-- ==== Sys2Proof/Word.lean ====
section
/-! DEFINITION. The word types of HUFFCORE and the type of a fixed-size table register file.
Every quantity is unsigned (00_scope R10); bit 0 is the least significant bit (R11). -/

namespace Sys2Proof

/-- A symbol or a buffer byte: SYM_BITS = 8 (00_scope section 5, R6). -/
abbrev Byte := BitVec 8

/-- A count, a weight, or a 32-bit register: CNT_BITS = 32 (R7). -/
abbrev Word := BitVec 32

/-- A 64-bit register: OUT_LEN and BITCOUNT (10_state R34, R36). -/
abbrev Long := BitVec 64

/-- An arena index as NODE and ROOT store it: IDX_BITS = 9 (00_scope section 5). -/
abbrev Index := BitVec 9

/-- A table register file of `n` entries (10_state section 2). The length travels with the data. -/
structure Table (α : Type) (n : Nat) where
  cells : List α
  size : cells.length = n
  deriving DecidableEq, Repr

/-- The table that holds `v` at every entry. -/
def Table.fill (α : Type) (n : Nat) (v : α) : Table α n :=
  ⟨List.replicate n v, List.length_replicate⟩

end Sys2Proof
end

