-- ==== Sys2Proof/Config.lean ====
section
/-! DEFINITION. What an implementation of HUFFCORE fixes, and the values the spec leaves unspecified.
The free values are opaque constants: nothing in Lean can evaluate one or prove a value of it. -/

namespace Sys2Proof.Config

/-- IN_CAP, the capacity of IN in bytes: a parameter with 1 <= IN_CAP <= 2^32 - 1 (00_scope section 5).
DESIGN CHOICE (log 7): its largest value, so that no input the 32-bit IN_LEN can announce is too long. -/
def inCap : Nat := 2 ^ 32 - 1

/-- The word that the `k`-th read of an unspecified register gives (10_state R54: "a host read returns
some value of the register's width, two reads may differ"). Free (log 5). -/
opaque freeWord : Nat → Word

/-- The byte found at address `a` of IN where no written or no valid byte stands, at count `k` (10_state R54,
R55). Free. DESIGN CHOICE (log 5): at one count, one address gives one byte. -/
opaque freeInByte : Nat → Nat → Byte

/-- The same for OUT. A constant of its own: the spec relates the unspecified bytes of the two buffers
nowhere, and nothing here does. Free (log 5). -/
opaque freeOutByte : Nat → Nat → Byte

end Sys2Proof.Config
end

