-- ==== Sys2Proof/Syntax.lean ====
section
/-! DEFINITION. The instructions: one constructor per row of spec/opcode_table.json (30_encoding R81,
R90, R98), and the abstract tree that a sequence of records spells (10_state R42). -/

namespace Sys2Proof

/-- Nine commands, which the host writes to CMD, and the two tree records, which `Parse()` meets in the
stream (30_encoding R98). A command has no operand field (R80). -/
inductive Instr where
  | encode
  | decode
  | count
  | build
  | derive
  | twrite
  | tread
  | benc
  | bdec
  | recInternal
  | recLeaf (v : Byte)
  deriving DecidableEq, Repr

/-- Which of the two decoded spaces an instruction belongs to (30_encoding, opening): the codes written
to CMD, or the records of the encoded stream. The byte 0x01 is ENCODE in one and a leaf marker in the
other. -/
inductive Space where
  | command
  | stream
  deriving DecidableEq, Repr

def Instr.space : Instr → Space
  | .encode | .decode | .count | .build | .derive => .command
  | .twrite | .tread | .benc | .bdec => .command
  | .recInternal | .recLeaf _ => .stream

/-- The abstract tree of 10_state R42: `Leaf(SYM)` or `Node(left, right)`. -/
inductive Tree where
  | leaf (sym : Byte)
  | node (l r : Tree)
  deriving DecidableEq, Repr

end Sys2Proof
end

