-- ==== Sys2Proof/WellFormed.lean ====
section
/-! DEFINITION. Well-formed instructions, and well-formed sequences of tree records (30_encoding R91,
43_tree_codec R147). -/

namespace Sys2Proof

/-- An instruction alone: a command has no operand (30_encoding R80) and every leaf value 0x00 to 0xFF is
legal (R90), so the check is on the width of the one operand and every term passes it. -/
def Instr.WellFormed : Instr → Bool
  | .recLeaf v => v.toNat ≤ 0xFF
  | .encode | .decode | .count | .build | .derive => true
  | .twrite | .tread | .benc | .bdec | .recInternal => true

/-- How many trees are still to be read after the records `is`, when `need` are to be read before them, by
the pre-order grammar of 30_encoding R91. `none`: a command stands among the records, or a record stands
after the last tree is complete. -/
def treesLeft : Nat → List Instr → Option Nat
  | need, [] => some need
  | 0, _ :: _ => none
  | need + 1, .recLeaf _ :: is => treesLeft need is
  | need + 1, .recInternal :: is => treesLeft (need + 2) is
  | _ + 1, .encode :: _ | _ + 1, .decode :: _ | _ + 1, .count :: _ => none
  | _ + 1, .build :: _ | _ + 1, .derive :: _ | _ + 1, .twrite :: _ => none
  | _ + 1, .tread :: _ | _ + 1, .benc :: _ | _ + 1, .bdec :: _ => none

/-- The leaf value an instruction carries. -/
def Instr.leafValue? : Instr → Option Byte
  | .recLeaf v => some v
  | .encode | .decode | .count | .build | .derive => none
  | .twrite | .tread | .benc | .bdec | .recInternal => none

/-- The leaf values of a sequence of records, in stream order. -/
def leafValues (is : List Instr) : List Byte :=
  is.filterMap Instr.leafValue?

/-- The sequence is one whole tree and nothing more (30_encoding R91). -/
def spellsOneTree (is : List Instr) : Bool :=
  treesLeft 1 is == some 0

/-- No leaf value occurs twice (43_tree_codec R147 clause 5). -/
def leavesDistinct (is : List Instr) : Bool :=
  decide (leafValues is).Nodup

/-- The tree records of a header that `TreeRead()` accepts (43_tree_codec R147). That at most 255 records
are INTERNAL follows (R147 clause 6). -/
def HeaderWellFormed (is : List Instr) : Bool :=
  spellsOneTree is && leavesDistinct is

end Sys2Proof
end

