-- ==== Sys2Proof/Decode.lean ====
section
/-! DEFINITION. Decoding and encoding: command codes, tree records, the count field, and the numbering of
spec/opcode_table.json (30_encoding R80 to R98, 20_memory R67). Decoding is total on any bytes and names
what it rejects. -/

namespace Sys2Proof

/-- INT_MARK, the marker byte of an INTERNAL record (30_encoding R90). -/
def intMark : Byte := 0x00

/-- LEAF_MARK, the marker byte of a LEAF record (30_encoding R90). -/
def leafMark : Byte := 0x01

/-- Why bytes are no instruction. -/
inductive DecodeError where
  /-- no command code is given -/
  | codeMissing
  /-- 0x00 or 0x0A to 0xFF in CMD (30_encoding R85) -/
  | reservedCommand (c : Byte)
  /-- the stream ends where a marker is expected (43_tree_codec R147 clause 2) -/
  | markerMissing
  /-- the stream ends where a leaf value is expected (R147 clause 3) -/
  | leafValueMissing
  /-- a marker 0x02 to 0xFF (30_encoding R92) -/
  | reservedMarker (m : Byte)
  deriving DecidableEq, Repr

/-- The command of a code (30_encoding R81); every other code is reserved (R85). -/
def decodeCommand (c : Byte) : Except DecodeError Instr :=
  match c.toNat with
  | 0x01 => .ok .encode
  | 0x02 => .ok .decode
  | 0x03 => .ok .count
  | 0x04 => .ok .build
  | 0x05 => .ok .derive
  | 0x06 => .ok .twrite
  | 0x07 => .ok .tread
  | 0x08 => .ok .benc
  | 0x09 => .ok .bdec
  | _ => .error (.reservedCommand c)

/-- One tree record at the head of the stream, and what follows it. The marker byte alone tells the length
of the record (30_encoding R90). -/
def decodeRecord : List Byte → Except DecodeError (Instr × List Byte)
  | [] => .error .markerMissing
  | m :: bs =>
    if m = leafMark then
      match bs with
      | [] => .error .leafValueMissing
      | v :: bs' => .ok (.recLeaf v, bs')
    else if m = intMark then .ok (.recInternal, bs)
    else .error (.reservedMarker m)

/-- The decoder: the instruction that stands at the head of the bytes of a space, and the bytes after it. -/
def decode : Space → List Byte → Except DecodeError (Instr × List Byte)
  | .command, [] => .error .codeMissing
  | .command, c :: bs =>
    match decodeCommand c with
    | .ok i => .ok (i, bs)
    | .error e => .error e
  | .stream, bs => decodeRecord bs

/-- The bytes of an instruction (30_encoding R81, R90). -/
def encode : Instr → List Byte
  | .encode => [0x01]
  | .decode => [0x02]
  | .count => [0x03]
  | .build => [0x04]
  | .derive => [0x05]
  | .twrite => [0x06]
  | .tread => [0x07]
  | .benc => [0x08]
  | .bdec => [0x09]
  | .recInternal => [intMark]
  | .recLeaf v => [leafMark, v]

/-- `BE32(v)`: most significant byte first (00_scope R13, 20_memory R67). -/
def be32 (v : Word) : List Byte :=
  [v.extractLsb' 24 8, v.extractLsb' 16 8, v.extractLsb' 8 8, v.extractLsb' 0 8]

/-- `unBE32(b0, b1, b2, b3)` (00_scope R13): zero-extended, never sign-extended (30_encoding R89). -/
def unBE32 (b0 b1 b2 b3 : Byte) : Word :=
  BitVec.ofNat 32 (b0.toNat * 2 ^ 24 + b1.toNat * 2 ^ 16 + b2.toNat * 2 ^ 8 + b3.toNat)

/-- The stream bytes of a table row's word, the first stream byte in the high-order position (30_encoding
R98, log 12). -/
def tableBytes (nbits w : Nat) : List Byte :=
  if nbits = 8 then [BitVec.ofNat 8 w]
  else if nbits = 16 then [BitVec.ofNat 8 (w / 256), BitVec.ofNat 8 w]
  else []

/-- The space a table row's word belongs to: REC_INTERNAL is the one 8-bit row with value 0, REC_LEAF the one
16-bit row, every other row is a command (spec/opcode_table.json). -/
def tableSpace (nbits w : Nat) : Space :=
  if nbits = 8 ∧ w ≠ 0 then .command else .stream

/-- The instruction the decoder reads from a word numbered as spec/opcode_table.json numbers it. -/
def decodeTableWord (nbits w : Nat) : Option Instr :=
  if w < 2 ^ nbits then
    match decode (tableSpace nbits w) (tableBytes nbits w) with
    | .ok (i, []) => some i
    | .ok (_, _ :: _) => none
    | .error _ => none
  else none

end Sys2Proof
end

