-- ==== Sys2Proof/Machine/State.lean ====
section
/-! DEFINITION. The state of HUFFCORE (10_state R20 to R55), the reasons a step can stop, the host's moves,
and the state after reset. -/

namespace Sys2Proof.Machine

/-- KIND of an arena entry (10_state R22). -/
inductive Kind where
  | internal
  | leaf
  deriving DecidableEq, Repr

/-- One entry of NODE (10_state R22). -/
structure NodeEntry where
  kind : Kind
  sym : Byte
  weight : Word
  left : Index
  right : Index
  deriving DecidableEq, Repr

/-- One entry of CODE (10_state R23): `c_k` stands at bit `254 - k` of `bits`. -/
structure CodeEntry where
  present : Bool
  len : BitVec 8
  bits : BitVec 255
  deriving DecidableEq, Repr

/-- A buffer: strictly rising addresses (`Memory.wf`, Machine/Ops.lean). An unlisted address holds no written
byte (log 5). -/
abbrev Memory := List Host.Cell

abbrev FreqTable := Table Word 256
abbrev NodeTable := Table NodeEntry 511
abbrev CodeTable := Table CodeEntry 256

/-- One frame of STK while `TreeRead()` runs (10_state R50): the internal entry `index` waits for its left
child (`left = none`) or, its left child being entry `l`, for its right one (`left = some l`). -/
structure Frame where
  index : Nat
  left : Option Nat
  deriving DecidableEq, Repr

/-- What `TreeRead()` carries from one record to the next: its locals p, cnt, nn, ni, nl (43_tree_codec R146),
SEEN (10_state R48) and STK (R50, innermost frame first). -/
structure HeaderParse where
  p : Nat
  cnt : Word
  nn : Nat
  ni : Nat
  nl : Nat
  seen : BitVec 256
  stk : List Frame
  deriving DecidableEq, Repr

/-- One act of the host, or of the reset input (20_memory R74, 30_encoding R87, 70_reset_and_hazards R220,
R223). Register numbers are those of 10_state R40, which ends at 0x1FFF (log 17). -/
inductive HostMove where
  /-- write a word to a register; number 0x000 is CMD and starts a command -/
  | writeReg (num : BitVec 13) (w : Word)
  /-- read a register -/
  | readReg (num : BitVec 13)
  /-- write one byte of IN -/
  | writeIn (a : Word) (v : Byte)
  /-- read one byte of IN -/
  | readIn (a : Word)
  /-- read one byte of OUT -/
  | readOut (a : Long)
  /-- wait until BUSY = 0 (R223 step 5) -/
  | waitIdle
  /-- the reset input (R220, R221) -/
  | reset
  deriving DecidableEq, Repr

/-- The whole state. Every field but the last three is the spec's. -/
structure State where
  /-- FREQ (R21) -/
  freq : FreqTable
  /-- NODE (R22) -/
  node : NodeTable
  /-- CODE (R23) -/
  code : CodeTable
  /-- CMD (R31) -/
  cmd : Byte
  /-- STATUS.BUSY (R32) -/
  busy : Bool
  /-- STATUS.DONE (R32) -/
  done : Bool
  /-- STATUS.ERROR (R32) -/
  error : Bool
  /-- STATUS.TREE_VALID (R27) -/
  treeValid : Bool
  /-- STATUS.CODE_VALID (R28) -/
  codeValid : Bool
  /-- ERRCODE (R33) -/
  errcode : BitVec 3
  /-- IN_LEN (R30) -/
  inLen : Word
  /-- IPTR (R25) -/
  iptr : Word
  /-- OUT_LEN (R34) -/
  outLen : Long
  /-- SYMCOUNT (R35) -/
  symcount : Word
  /-- BITCOUNT (R36) -/
  bitcount : Long
  /-- NLEAF (R37) -/
  nleaf : BitVec 9
  /-- NNODES (R38) -/
  nnodes : BitVec 10
  /-- ROOT (R39) -/
  root : Index
  /-- IN (R45) -/
  inMem : Memory
  /-- OUT (R45) -/
  outMem : Memory
  /-- INQ (R46) -/
  inq : BitVec 511
  /-- ACC (R47) -/
  acc : Byte
  /-- NB (R47) -/
  nb : BitVec 3
  /-- BP (R47) -/
  bp : BitVec 3
  /-- CUR (R49) -/
  cur : Index
  /-- SEEN, STK and the locals of `TreeRead()` (R48, R50, 43_tree_codec R146) -/
  parser : HeaderParse
  /-- the engine stands inside `TreeRead()`, about to read a record (70_reset_and_hazards R240, log 2) -/
  parsing : Bool
  /-- the model's own: the host's pending moves, oldest first (log 1) -/
  host : List HostMove
  /-- the model's own: the word the host's last read returned (log 16) -/
  rdata : Word
  /-- the model's own: where the free values are taken (log 5) -/
  freeIdx : Nat
  deriving DecidableEq, Repr

/-- The error kinds of 60_exceptions R190, with NONE left out (R191). -/
inductive ErrorKind where
  | emptyInput
  | emptyNodeSet
  | malformedTree
  | truncatedStream
  | illegalCommand
  deriving DecidableEq, Repr

/-- Reasons the machine stops. No run from reset reaches one. -/
inductive Fault where
  /-- Raised by `Derive()` and `TreeWrite()` where TREE_VALID = 1 over an arena whose ROOT spells no tree of
  depth at most 255: 10_state R41 says every procedure that sets TREE_VALID establishes one. Safe (log 14). -/
  | arenaNotTree
  /-- Raised by the step where BUSY = 1 and no header is being read: every other command is one step
  (00_scope R14), so no state lies inside it. Safe (log 19). -/
  | busyBetweenCommands
  deriving DecidableEq, Repr

/-- Reasons the model gives a state no next step. -/
inductive Refusal where
  /-- Raised by an arm of `exec` whose instruction has no meaning yet. Safe. -/
  | notModelled (mnemonic : String)
  /-- Raised by the step: a host move other than a STATUS read, a wait or reset while BUSY = 1
  (70_reset_and_hazards R230: "a model must *refuse* it"). Safe (log 9). -/
  | hostAccessWhileBusy
  /-- Raised by the step: a command started with IN_LEN > IN_CAP (70_reset_and_hazards R232: "a model must
  refuse a command started in such a state"). Safe (log 7). -/
  | inLenBeyondCapacity
  /-- Raised by the step: a host access to an address that IN, IN_CAP bytes from 0 (10_state R45), does not
  have. Safe (log 7). -/
  | inAddressBeyondCapacity
  deriving DecidableEq, Repr

/-- The value of an entry of NODE after reset, unspecified in R55. DESIGN CHOICE (log 4). -/
def NodeEntry.blank : NodeEntry := ⟨.internal, 0, 0, 0, 0⟩

/-- The cleared entry of `Derive()` (42_codemap R131), and the value after reset, unspecified in R55: DESIGN
CHOICE (log 4). -/
def CodeEntry.absent : CodeEntry := ⟨false, 0, 0⟩

/-- The locals of a `TreeRead()` that is about to read its first record, at `p`, with the count `cnt`. -/
def HeaderParse.start (p : Nat) (cnt : Word) : HeaderParse := ⟨p, cnt, 0, 0, 0, 0, []⟩

/-- The state after reset (10_state R55, 70_reset_and_hazards R220). -/
def State.reset : State where
  freq := Table.fill Word 256 0
  node := Table.fill NodeEntry 511 NodeEntry.blank
  code := Table.fill CodeEntry 256 CodeEntry.absent
  cmd := 0x00
  busy := false
  done := false
  error := false
  treeValid := false
  codeValid := false
  errcode := 0
  inLen := 0
  iptr := 0
  outLen := 0
  symcount := 0
  bitcount := 0
  nleaf := 0
  nnodes := 0
  root := 0
  inMem := []
  outMem := []
  inq := 0
  acc := 0
  nb := 0
  bp := 0
  cur := 0
  parser := HeaderParse.start 0 0
  parsing := false
  host := []
  rdata := 0
  freeIdx := 0

end Sys2Proof.Machine
end

