-- ==== Sys2Proof/Machine/Flags.lean ====
section
/-! DEFINITION. The flags: SINGLE and the STATUS register (10_state R26 to R32), the error codes (60_exceptions
R191). Mendable: every definition here is a plain def. -/

namespace Sys2Proof.Machine

/-- SINGLE (10_state R29): a function of TREE_VALID and NLEAF, with no storage of its own. -/
def State.single (s : State) : Bool :=
  s.treeValid && s.nleaf == 1

/-- A flag placed at bit `i` of a 32-bit register. -/
def flagBit (f : Bool) (i : Nat) : Word :=
  if f then BitVec.twoPow 32 i else 0

/-- STATUS (10_state R32): BUSY 0, DONE 1, ERROR 2, TREE_VALID 3, CODE_VALID 4, SINGLE 5, every other bit 0. -/
def State.status (s : State) : Word :=
  flagBit s.busy 0 ||| flagBit s.done 1 ||| flagBit s.error 2 ||| flagBit s.treeValid 3 |||
    flagBit s.codeValid 4 ||| flagBit s.single 5

/-- The bits of STATUS that show any value while a command runs: TREE_VALID, CODE_VALID and SINGLE
(93_implementation_defined U21, log 13). BUSY is 1 there, DONE and ERROR are 0 (R32). -/
def statusFreeMask : Word := 0x38

/-- ERRCODE of an error kind (60_exceptions R191). -/
def ErrorKind.code : ErrorKind → BitVec 3
  | .emptyInput => 1
  | .emptyNodeSet => 2
  | .malformedTree => 3
  | .truncatedStream => 4
  | .illegalCommand => 5

end Sys2Proof.Machine
end

