-- ==== Sys2Proof/Machine/Ops.lean ====
section
/-! DEFINITION. The shared operations: tables, buffers, `Emit`, the start and the end of a command, and the
raise of an error (00_scope section 7, 20_memory, 30_encoding R82 to R86, 60_exceptions R195). -/

namespace Sys2Proof.Machine

/-! ## Tables -/

/-- `T[i]` (00_scope section 7); `d` answers for an index the table does not have, which no run uses. -/
def tableGet {α : Type} {n : Nat} (t : Table α n) (i : Nat) (d : α) : α :=
  t.cells.getD i d

/-- `T[i] <- v`. -/
def tableSet {α : Type} {n : Nat} (t : Table α n) (i : Nat) (v : α) : Table α n :=
  ⟨t.cells.set i v, by rw [List.length_set]; exact t.size⟩

/-- FREQ[b]. -/
def freqAt (t : FreqTable) (b : Byte) : Word := tableGet t b.toNat 0

/-- NODE[i]. -/
def nodeAt (t : NodeTable) (i : Nat) : NodeEntry := tableGet t i NodeEntry.blank

/-- CODE[b]. -/
def codeAt (t : CodeTable) (b : Byte) : CodeEntry := tableGet t b.toNat CodeEntry.absent

/-! ## Buffers -/

/-- The canonical form of a buffer: strictly rising addresses. -/
abbrev Memory.wf (m : Memory) : Prop := m.Pairwise (fun x y => x.1 < y.1)

/-- The byte written at address `a`, if one was. -/
def Memory.load : Memory → Nat → Option Byte
  | [], _ => none
  | (k, v) :: m, a => if k = a then some v else Memory.load m a

/-- `MemWrite(_, a, 1, v)` (20_memory R64). -/
def Memory.store : Memory → Nat → Byte → Memory
  | [], a, v => [(a, v)]
  | (k, w) :: m, a, v =>
    if a < k then (a, v) :: (k, w) :: m
    else if a = k then (a, v) :: m
    else (k, w) :: Memory.store m a v

/-- `MemRead(IN, a, 1)` (20_memory R62). A byte nothing has written reads as a free byte: the same one for the
whole of a command, as R62 says; that it stays the same until the counter moves on, and may be another then, is
DESIGN CHOICE (log 5). -/
def State.readIn (s : State) (a : Nat) : Byte :=
  (s.inMem.load a).getD (Config.freeInByte s.freeIdx a)

/-- The byte at address `a` of OUT. Where none was written it is a free byte of OUT's own, unrelated to IN's
(log 5). -/
def State.readOut (s : State) (a : Nat) : Byte :=
  (s.outMem.load a).getD (Config.freeOutByte s.freeIdx a)

/-- The output of a command: OUT[0], ..., OUT[OUT_LEN-1] (20_memory R65). -/
def State.outBytes (s : State) : List Byte :=
  (List.range s.outLen.toNat).map s.readOut

/-- `Emit(v)` (20_memory R65). -/
def emit (s : State) (v : Byte) : State :=
  { s with outMem := s.outMem.store s.outLen.toNat v, outLen := s.outLen + 1 }

/-- `Emit` of each byte in turn. -/
def emitAll (s : State) (vs : List Byte) : State :=
  vs.foldl emit s

/-! ## The branch convention -/

/-- The bit of a left branch (42_codemap R132). `Derive()` and `BitDecode()` both take it from here. -/
def leftBit : Bool := false

/-- The bit of a right branch (42_codemap R132). -/
def rightBit : Bool := !leftBit

/-- The child a bit leads to (44_bitstream R166). -/
def NodeEntry.child (e : NodeEntry) (bit : Bool) : Index :=
  if bit = leftBit then e.left else e.right

/-! ## The abstract tree -/

/-- `tree(i)` of 10_state R42, by at most `depth` nested frames (R50). `none`: deeper than that, or a link
leaves the arena; a well-formed tree is neither (R41). -/
def treeAt (t : NodeTable) : Nat → Nat → Option Tree
  | 0, _ => none
  | depth + 1, i =>
    if i < 511 then
      match (nodeAt t i).kind with
      | .leaf => some (.leaf (nodeAt t i).sym)
      | .internal =>
        match treeAt t depth (nodeAt t i).left.toNat, treeAt t depth (nodeAt t i).right.toNat with
        | some l, some r => some (.node l r)
        | none, _ => none
        | some _, none => none
    else none

/-- The recursion depth of a tree walk: 255 internal nodes and one leaf (10_state R50). -/
def maxFrames : Nat := 256

/-- The abstract tree of the arena, `tree(ROOT)` (10_state R42). -/
def State.tree? (s : State) : Option Tree :=
  treeAt s.node maxFrames s.root.toNat

/-! ## Commands and errors -/

/-- How a procedure ends: it returns, it raises an error with what it wrote before, or it meets a state no
run reaches. -/
inductive ProcResult where
  | ok (s : State)
  | raised (e : ErrorKind) (s : State)
  | stuck (f : Fault)
  deriving DecidableEq, Repr

/-- The next procedure of a sequence runs only if nothing was raised (60_exceptions R195). -/
def ProcResult.andThen (r : ProcResult) (f : State → ProcResult) : ProcResult :=
  match r with
  | .ok s => f s
  | .raised e s => .raised e s
  | .stuck b => .stuck b

/-- `raise E`, the abort sequence (60_exceptions R195). The command has ended, so no header is being read. -/
def raise (e : ErrorKind) (s : State) : State :=
  { s with
    errcode := e.code, error := true, done := false, outLen := 0, iptr := 0, bitcount := 0,
    busy := false, parsing := false }

/-- The prologue of every command (30_encoding R84). -/
def prologue (s : State) : State :=
  { s with busy := true, done := false, error := false, outLen := 0 }

/-- The epilogue of a command that raised nothing (30_encoding R84). -/
def epilogue (s : State) : State :=
  { s with errcode := 0, done := true, busy := false }

/-- The end of a command (30_encoding R82): the epilogue, or the abort sequence. -/
def endCommand : ProcResult → Host.Outcome State Fault Refusal
  | .ok s => .next (epilogue s)
  | .raised e s => .next (raise e s)
  | .stuck f => .fault f

/-- Steps 2 and 4 to 6 of 30_encoding R82: prologue, precondition, body, end. -/
def runCommand (pre : State → Bool) (body : State → ProcResult) (s : State) :
    Host.Outcome State Fault Refusal :=
  if pre (prologue s) then endCommand (body (prologue s))
  else .next (raise .illegalCommand (prologue s))

end Sys2Proof.Machine
end

