-- ==== Sys2Proof/Machine/Operands.lean ====
section
/-! DEFINITION. The operands of the commands. Every operand is implicit (30_encoding R80): the input bytes, the
payload bits, the record at the parse pointer, a code as a bit string, and the preconditions on state (R86). -/

namespace Sys2Proof.Machine

/-- The input of a command: IN[0], ..., IN[IN_LEN-1] (20_memory R61). -/
def State.inputBytes (s : State) : List Byte :=
  (List.range s.inLen.toNat).map s.readIn

/-- The eight bits of a byte, most significant first (20_memory R68). -/
def byteBits (b : Byte) : List Bool :=
  (List.range 8).map (fun k => b.getLsbD (7 - k))

/-- The payload bits of `BitDecode()`: those of IN[IPTR], ..., IN[IN_LEN-1] (44_bitstream R165). -/
def State.payloadBits (s : State) : List Bool :=
  (s.inputBytes.drop s.iptr.toNat).flatMap byteBits

/-- The stream bytes from the parse pointer on (43_tree_codec R146). -/
def State.streamRest (s : State) : List Byte :=
  s.inputBytes.drop s.parser.p

/-- Where the bits of a path stand in BITS: `c_k` at bit `254 - k`, the rest 0 (10_state R23). -/
def packPath : Nat → List Bool → BitVec 255
  | _, [] => 0
  | k, c :: cs => (if c then BitVec.twoPow 255 (254 - k) else 0) ||| packPath (k + 1) cs

/-- The entry that records a path (42_codemap R131). -/
def CodeEntry.ofPath (path : List Bool) : CodeEntry :=
  ⟨true, BitVec.ofNat 8 path.length, packPath 0 path⟩

/-- The bit string `c_0 ... c_{LEN-1}` of an entry (10_state R23). -/
def CodeEntry.path (e : CodeEntry) : List Bool :=
  (List.range e.len.toNat).map (fun k => e.bits.getLsbD (254 - k))

/-- No requirement: ENCODE, DECODE, COUNT, BUILD, TREAD (30_encoding R86). -/
def needsNothing (_ : State) : Bool := true

/-- DERIVE and TWRITE require TREE_VALID = 1 (30_encoding R86). -/
def needsTree (s : State) : Bool := s.treeValid

/-- BENC requires CODE_VALID = 1 (30_encoding R86). -/
def needsCode (s : State) : Bool := s.codeValid

/-- BDEC requires TREE_VALID = 1 and IPTR <= IN_LEN (30_encoding R86). -/
def needsTreeAndPayload (s : State) : Bool :=
  s.treeValid && decide (s.iptr ≤ s.inLen)

end Sys2Proof.Machine
end

