-- ==== Sys2Proof/Machine/BitStream.lean ====
section
/-! DEFINITION. The bit-stream codec: `BitEncode()`, `BitDecode()`, BENC and BDEC (44_bitstream). -/

namespace Sys2Proof.Machine

/-! ## Encoder -/

/-- What `BitEncode()` carries: ACC, NB, the bit total, and the bytes it has emitted. -/
structure Packer where
  acc : Byte
  nb : Nat
  total : Nat
  out : List Byte
  deriving DecidableEq, Repr

/-- `acc = 0; nb = 0; total = 0` (44_bitstream R161). -/
def Packer.start : Packer := ⟨0, 0, 0, []⟩

/-- One code bit enters at bit 0; a full accumulator is emitted (44_bitstream R161). -/
def Packer.push (p : Packer) (c : Bool) : Packer :=
  let acc : Byte := (p.acc.setWidth 7).concat c
  if p.nb + 1 = 8 then ⟨0, 0, p.total + 1, p.out ++ [acc]⟩
  else ⟨acc, p.nb + 1, p.total + 1, p.out⟩

/-- The bits of one code, `c_0` first (44_bitstream R161). -/
def Packer.pushAll (p : Packer) (cs : List Bool) : Packer :=
  cs.foldl Packer.push p

/-- The bytes emitted by the end: a partly filled accumulator is padded with zeros in its low bits
(44_bitstream R161, 30_encoding R94). -/
def Packer.flush (p : Packer) : List Byte :=
  if p.nb ≠ 0 then p.out ++ [p.acc <<< (8 - p.nb)] else p.out

/-- The loop of `BitEncode()` (44_bitstream R161). `single` is the test NLEAF = 1 (R162). `none` on the left: it
ended at a byte without a code (R163). -/
def packBytes (code : CodeTable) (single : Bool) : List Byte → Packer → Bool × Packer
  | [], p => (true, p)
  | v :: vs, p =>
    if (codeAt code v).present then
      packBytes code single vs (if single then p else p.pushAll (codeAt code v).path)
    else (false, p)

/-- `BitEncode()` (44_bitstream R161). -/
def bitEncode (s : State) : ProcResult :=
  let run := packBytes s.code (s.nleaf == 1) s.inputBytes Packer.start
  let s0 := { s with bitcount := 0, acc := run.2.acc, nb := BitVec.ofNat 3 run.2.nb }
  if run.1 then
    .ok { emitAll s0 run.2.flush with bitcount := BitVec.ofNat 64 run.2.total, iptr := s.inLen }
  else .raised .illegalCommand (emitAll s0 run.2.out)

/-- BENC (44_bitstream R164). -/
def execBenc (s : State) : Host.Outcome State Fault Refusal :=
  runCommand needsCode bitEncode s

/-! ## Decoder -/

/-- Where the decoder reads: byte pointer, bit position (0 names bit 7), bits used (44_bitstream R166). -/
structure BitPos where
  p : Nat
  bp : Nat
  used : Nat
  deriving DecidableEq, Repr

/-- The position after one bit (44_bitstream R166). -/
def BitPos.advance (q : BitPos) : BitPos :=
  if q.bp + 1 = 8 then ⟨q.p + 1, 0, q.used + 1⟩ else ⟨q.p, q.bp + 1, q.used + 1⟩

/-- What `BitDecode()` carries: CUR, the unread bits, the position, the bytes emitted, and whether the bits have
sufficed so far. -/
structure DecodeRun where
  cur : Index
  bits : List Bool
  pos : BitPos
  out : List Byte
  enough : Bool
  deriving DecidableEq, Repr

/-- The `while` loop of `BitDecode()` from the node CUR (44_bitstream R166): one bit a turn, until a leaf is
reached (`enough`) or no bit remains on an internal node. -/
def walkDown (node : NodeTable) (out : List Byte) : List Bool → Index → BitPos → DecodeRun
  | [], cur, pos =>
    match (nodeAt node cur.toNat).kind with
    | .leaf => ⟨cur, [], pos, out, true⟩
    | .internal => ⟨cur, [], pos, out, false⟩
  | bit :: bits, cur, pos =>
    match (nodeAt node cur.toNat).kind with
    | .leaf => ⟨cur, bit :: bits, pos, out, true⟩
    | .internal => walkDown node out bits ((nodeAt node cur.toNat).child bit) pos.advance

/-- `Emit(NODE[CUR].SYM)` (44_bitstream R166). -/
def DecodeRun.emitSymbol (node : NodeTable) (r : DecodeRun) : DecodeRun :=
  { r with out := r.out ++ [(nodeAt node r.cur.toNat).sym] }

/-- `repeat SYMCOUNT times` (44_bitstream R166); a walk that ran out of bits ends it. -/
def decodeSymbols (node : NodeTable) (root : Index) : Nat → DecodeRun → DecodeRun
  | 0, r => r
  | n + 1, r =>
    let r' := walkDown node r.out r.bits root r.pos
    if r'.enough then decodeSymbols node root n (r'.emitSymbol node) else r'

/-- The run of `BitDecode()` in a state (44_bitstream R166). -/
def State.decodeRun (s : State) : DecodeRun :=
  decodeSymbols s.node s.root s.symcount.toNat
    ⟨s.cur, s.payloadBits, ⟨s.iptr.toNat, 0, 0⟩, [], true⟩

/-- The first byte not consumed: a partly used last byte counts as consumed (44_bitstream R166). -/
def BitPos.byteEnd (q : BitPos) : Nat :=
  if q.bp ≠ 0 then q.p + 1 else q.p

/-- `BitDecode()` (44_bitstream R166). -/
def bitDecode (s : State) : ProcResult :=
  let r := s.decodeRun
  let s0 := { s with bitcount := 0, cur := r.cur, bp := BitVec.ofNat 3 r.pos.bp }
  if r.enough then
    .ok { emitAll s0 r.out with
      iptr := BitVec.ofNat 32 r.pos.byteEnd, bitcount := BitVec.ofNat 64 r.pos.used }
  else .raised .truncatedStream (emitAll s0 r.out)

/-- BDEC (44_bitstream R169). -/
def execBdec (s : State) : Host.Outcome State Fault Refusal :=
  runCommand needsTreeAndPayload bitDecode s

/-! ## The decoder as a state machine (44_bitstream R170) -/

/-- The states of R170, with what each carries. -/
inductive DecoderState where
  | start (n : Nat) (r : DecodeRun)
  | atNode (n : Nat) (r : DecodeRun)
  | finish (r : DecodeRun)
  | abort (r : DecodeRun)
  deriving DecidableEq, Repr

/-- One transition of R170; `total` is SYMCOUNT. FINISH and the abort have none. -/
def decoderStep (node : NodeTable) (root : Index) (total : Nat) : DecoderState → DecoderState
  | .start n r => if n = total then .finish r else .atNode n { r with cur := root }
  | .atNode n r =>
    match (nodeAt node r.cur.toNat).kind, r.bits with
    | .leaf, _ => .start (n + 1) (r.emitSymbol node)
    | .internal, bit :: bits =>
      .atNode n
        { r with cur := (nodeAt node r.cur.toNat).child bit, bits := bits, pos := r.pos.advance }
    | .internal, [] => .abort { r with enough := false }
  | .finish r => .finish r
  | .abort r => .abort r

end Sys2Proof.Machine
end

