-- ==== Sys2Proof/Machine/CodeMap.lean ====
section
/-! DEFINITION. The code-map deriver: `Derive()` and DERIVE (42_codemap). -/

namespace Sys2Proof.Machine

/-- `Walk(i, path)` (42_codemap R131) on the abstract tree of entry `i` (10_state R42): left before right. -/
def walkCodes : Tree → List Bool → CodeTable → CodeTable
  | .leaf v, path, t => tableSet t v.toNat (CodeEntry.ofPath path)
  | .node l r, path, t => walkCodes r (path ++ [rightBit]) (walkCodes l (path ++ [leftBit]) t)

/-- The code map of a tree: every entry cleared, then the walk from the root (42_codemap R131). -/
def codesOf (t : Tree) : CodeTable :=
  walkCodes t [] (Table.fill CodeEntry 256 CodeEntry.absent)

/-- `Derive()` (42_codemap R131). -/
def derive (s : State) : ProcResult :=
  match s.tree? with
  | none => .stuck .arenaNotTree
  | some t => .ok { s with code := codesOf t, codeValid := true }

/-- DERIVE (42_codemap R133). -/
def execDerive (s : State) : Host.Outcome State Fault Refusal :=
  runCommand needsTree derive s

end Sys2Proof.Machine
end

