-- ==== Sys2Proof/Machine/Frequency.lean ====
section
/-! DEFINITION. The frequency counter: `Count()` and COUNT (40_frequency). -/

namespace Sys2Proof.Machine

/-- `FREQ[v] <- FREQ[v] + 1` (40_frequency R101). -/
def countByte (t : FreqTable) (v : Byte) : FreqTable :=
  tableSet t v.toNat (freqAt t v + 1)

/-- The counting loop of `Count()` (40_frequency R101). -/
def countBytes (t : FreqTable) (vs : List Byte) : FreqTable :=
  vs.foldl countByte t

/-- `Count()` (40_frequency R101). -/
def count (s : State) : ProcResult :=
  let s0 := { s with freq := Table.fill Word 256 0, symcount := s.inLen }
  if s.inLen = 0 then .raised .emptyInput s0
  else .ok { s0 with freq := countBytes s0.freq s.inputBytes, iptr := s.inLen }

/-- COUNT (40_frequency R102). -/
def execCount (s : State) : Host.Outcome State Fault Refusal :=
  runCommand needsNothing count s

end Sys2Proof.Machine
end

