-- ==== Sys2Proof/Machine/TreeBuilder.lean ====
section
/-! DEFINITION. The tree builder: the priority queue, `Build()` and BUILD (41_tree_builder). -/

namespace Sys2Proof.Machine

/-- What `Build()` works on: the arena, INQ, the number of entries in use, and the entry made last. -/
structure BuildWork where
  node : NodeTable
  inq : BitVec 511
  n : Nat
  last : Nat
  deriving DecidableEq, Repr

/-- `Insert(i)` (41_tree_builder R113). -/
def BuildWork.insert (w : BuildWork) (i : Nat) : BuildWork :=
  { w with inq := w.inq ||| BitVec.twoPow 511 i }

/-- The indices in the queue, smallest first (41_tree_builder R113). -/
def BuildWork.queue (w : BuildWork) : List Nat :=
  (List.range 511).filter (fun i => w.inq.getLsbD i)

/-- The key of an entry: `(WEIGHT, index)`, the weight an unsigned number (41_tree_builder R113, R114). -/
def BuildWork.key (w : BuildWork) (i : Nat) : Nat × Nat :=
  ((nodeAt w.node i).weight.toNat, i)

/-- The lexicographic order on keys (00_scope section 7). -/
def keyLt (a b : Nat × Nat) : Bool :=
  decide (a.1 < b.1) || (a.1 == b.1 && decide (a.2 < b.2))

/-- The least of two indices by their keys. -/
def BuildWork.lesser (w : BuildWork) (i j : Nat) : Nat :=
  if keyLt (w.key j) (w.key i) then j else i

/-- `ExtractMin()` (41_tree_builder R114): the index of least key, taken out of the queue. -/
def BuildWork.extractMin (w : BuildWork) : Option (Nat × BuildWork) :=
  match w.queue with
  | [] => none
  | i :: is =>
    let m := is.foldl w.lesser i
    some (m, { w with inq := w.inq &&& ~~~ (BitVec.twoPow 511 m) })

/-- The entry `Merge(a, b)` makes: the first extracted is the left child (41_tree_builder R115). -/
def mergedEntry (t : NodeTable) (a b : Nat) : NodeEntry :=
  ⟨.internal, 0, (nodeAt t a).weight + (nodeAt t b).weight, BitVec.ofNat 9 a, BitVec.ofNat 9 b⟩

/-- `Merge(a, b)` (41_tree_builder R115). -/
def BuildWork.merge (w : BuildWork) (a b : Nat) : BuildWork :=
  BuildWork.insert
    { w with node := tableSet w.node w.n (mergedEntry w.node a b), n := w.n + 1, last := w.n } w.n

/-- One turn of the merge loop (41_tree_builder R117). An empty queue, which the loop never meets, ends it. -/
def BuildWork.turn (w : BuildWork) : BuildWork :=
  match w.extractMin with
  | none => w
  | some (a, w1) =>
    match w1.extractMin with
    | none => w
    | some (b, w2) => w2.merge a b

/-- `repeat k times` (41_tree_builder R117). -/
def BuildWork.turns : Nat → BuildWork → BuildWork
  | 0, w => w
  | k + 1, w => BuildWork.turns k w.turn

/-- One byte value of the leaf loop: a leaf if its count is not 0 (41_tree_builder R111). -/
def BuildWork.addLeaf (freq : FreqTable) (w : BuildWork) (b : Nat) : BuildWork :=
  if freqAt freq (BitVec.ofNat 8 b) = 0 then w
  else
    BuildWork.insert
      { w with
        node := tableSet w.node w.n
          ⟨.leaf, BitVec.ofNat 8 b, freqAt freq (BitVec.ofNat 8 b), 0, 0⟩
        n := w.n + 1 } w.n

/-- The leaf loop, in ascending byte value (41_tree_builder R111). -/
def loadLeaves (freq : FreqTable) (w : BuildWork) : BuildWork :=
  (List.range 256).foldl (BuildWork.addLeaf freq) w

/-- `Build()` (41_tree_builder R117). -/
def build (s : State) : ProcResult :=
  let s0 := { s with treeValid := false, codeValid := false, inq := 0 }
  let w := loadLeaves s.freq ⟨s.node, 0, 0, 0⟩
  if w.n = 0 then .raised .emptyNodeSet s0
  else
    let w' := w.turns (w.n - 1)
    .ok { s0 with
      node := w'.node, inq := w'.inq, nleaf := BitVec.ofNat 9 w.n, nnodes := BitVec.ofNat 10 w'.n,
      root := BitVec.ofNat 9 w'.last, treeValid := true }

/-- BUILD (41_tree_builder R118). -/
def execBuild (s : State) : Host.Outcome State Fault Refusal :=
  runCommand needsNothing build s

end Sys2Proof.Machine
end

