-- ==== Sys2Proof/Machine/TreeCodec.lean ====
section
/-! DEFINITION. The tree codec: `TreeWrite()`, `TreeRead()` and one turn of its `Parse()`, TWRITE and TREAD
(43_tree_codec). -/

namespace Sys2Proof.Machine

/-! ## Writing -/

/-- The records of a tree in pre-order (30_encoding R91). -/
def records : Tree → List Instr
  | .leaf v => [.recLeaf v]
  | .node l r => .recInternal :: (records l ++ records r)

/-- `Ser(i)` (43_tree_codec R141) on the abstract tree of entry `i` (10_state R42). -/
def serialize (t : Tree) : List Byte :=
  (records t).flatMap encode

/-- The header of a count and a tree (30_encoding R88 items 1 and 2). -/
def headerBytes (cnt : Word) (t : Tree) : List Byte :=
  be32 cnt ++ serialize t

/-- `TreeWrite()` (43_tree_codec R141). -/
def treeWrite (s : State) : ProcResult :=
  match s.tree? with
  | none => .stuck .arenaNotTree
  | some t => .ok (emitAll s (headerBytes s.symcount t))

/-- TWRITE (43_tree_codec R143). -/
def execTwrite (s : State) : Host.Outcome State Fault Refusal :=
  runCommand needsTree treeWrite s

/-! ## Reading -/

/-- Where a record leaves `TreeRead()`: more records are due, the tree is complete with its root, or
MalformedTreeError. The arena is as written so far. -/
inductive HeaderStep where
  | more (node : NodeTable) (h : HeaderParse)
  | complete (node : NodeTable) (h : HeaderParse) (root : Nat)
  | malformed (node : NodeTable) (h : HeaderParse)
  deriving DecidableEq, Repr

/-- `Parse()` returns the entry `k` to the frames that wait for it (43_tree_codec R146): the first child of a
frame is its left one; with the second the internal entry is written and returned in turn. -/
def deliver (h : HeaderParse) : NodeTable → Nat → List Frame → HeaderStep
  | node, k, [] => .complete node { h with stk := [] } k
  | node, k, ⟨i, none⟩ :: stk => .more node { h with stk := ⟨i, some k⟩ :: stk }
  | node, k, ⟨i, some l⟩ :: stk =>
    deliver h (tableSet node i ⟨.internal, 0, 0, BitVec.ofNat 9 l, BitVec.ofNat 9 k⟩) i stk

/-- The LEAF record's branch of `Parse()` (43_tree_codec R146). -/
def takeLeaf (v : Byte) (node : NodeTable) (h : HeaderParse) : HeaderStep :=
  if h.seen.getLsbD v.toNat then .malformed node { h with p := h.p + 2 }
  else
    deliver
      { h with
        p := h.p + 2, nn := h.nn + 1, nl := h.nl + 1, seen := h.seen ||| BitVec.twoPow 256 v.toNat }
      (tableSet node h.nn ⟨.leaf, v, 0, 0, 0⟩) h.nn h.stk

/-- The INTERNAL record's branch of `Parse()`, down to the call that parses the left subtree (43_tree_codec
R146). -/
def takeInternal (node : NodeTable) (h : HeaderParse) : HeaderStep :=
  if h.ni < 255 then
    .more node
      { h with p := h.p + 1, nn := h.nn + 1, ni := h.ni + 1, stk := ⟨h.nn, none⟩ :: h.stk }
  else .malformed node { h with p := h.p + 1 }

/-- One turn of `Parse()` on a decoded record. A command code is no record: `decodeRecord` never gives one. -/
def takeRecord (i : Instr) (node : NodeTable) (h : HeaderParse) : HeaderStep :=
  match i with
  | .recLeaf v => takeLeaf v node h
  | .recInternal => takeInternal node h
  | .encode | .decode | .count | .build | .derive => .malformed node h
  | .twrite | .tread | .benc | .bdec => .malformed node h

/-- All records of a header, from the bytes that follow the count. `fuel` bounds the number of records; with
more fuel than bytes it never runs out, as every record takes a byte. -/
def parseRecords : Nat → List Byte → NodeTable → HeaderParse → HeaderStep
  | 0, _, node, h => .malformed node h
  | fuel + 1, bs, node, h =>
    match decodeRecord bs with
    | .error _ => .malformed node h
    | .ok (i, bs') =>
      match takeRecord i node h with
      | .more node' h' => parseRecords fuel bs' node' h'
      | .complete node' h' r => .complete node' h' r
      | .malformed node' h' => .malformed node' h'

/-- The end of `TreeRead()`: what it commits (43_tree_codec R146). -/
def commitHeader (node : NodeTable) (h : HeaderParse) (root : Nat) (s : State) : State :=
  { s with
    node := node, parser := h, symcount := h.cnt, root := BitVec.ofNat 9 root,
    nnodes := BitVec.ofNat 10 h.nn, nleaf := BitVec.ofNat 9 h.nl, iptr := BitVec.ofNat 32 h.p,
    treeValid := true, parsing := false }

/-- `TreeRead()` up to its first record (43_tree_codec R146): the flags cleared, the count field read. `none`:
fewer than 4 bytes (R147 clause 1). -/
def beginHeader (s : State) : Option State :=
  match s.inputBytes.drop s.iptr.toNat with
  | b0 :: b1 :: b2 :: b3 :: _ =>
    some { s with
      treeValid := false, codeValid := false, parsing := true
      parser := HeaderParse.start (s.iptr.toNat + 4) (unBE32 b0 b1 b2 b3) }
  | _ => none

/-- The records of `TreeRead()` from the state `beginHeader` gives, and their commit. -/
def runHeader (s : State) : ProcResult :=
  match parseRecords (s.streamRest.length + 1) s.streamRest s.node s.parser with
  | .complete node h root => .ok (commitHeader node h root s)
  | .malformed node h => .raised .malformedTree { s with node := node, parser := h }
  | .more node h => .raised .malformedTree { s with node := node, parser := h }

/-- `TreeRead()` (43_tree_codec R146). -/
def treeRead (s : State) : ProcResult :=
  match beginHeader s with
  | none => .raised .malformedTree { s with treeValid := false, codeValid := false }
  | some s1 => runHeader s1

/-- The body of TREAD: `IPTR <- 0; TreeRead()` (43_tree_codec R148). -/
def treeReadFromStart (s : State) : ProcResult :=
  treeRead { s with iptr := 0 }

/-- TREAD (43_tree_codec R148). -/
def execTread (s : State) : Host.Outcome State Fault Refusal :=
  runCommand needsNothing treeReadFromStart s

end Sys2Proof.Machine
end

