-- ==== Sys2Proof/Machine/Pipeline.lean ====
section
/-! DEFINITION. The pipeline sequencer: ENCODE and DECODE (45_pipeline), and the two tree records as the engine
runs them one at a time (43_tree_codec R146, 70_reset_and_hazards R240). -/

namespace Sys2Proof.Machine

/-- The body of ENCODE (45_pipeline R181). -/
def encodeBody (s : State) : ProcResult :=
  ((((count s).andThen build).andThen derive).andThen treeWrite).andThen bitEncode

/-- ENCODE (45_pipeline R181). -/
def execEncode (s : State) : Host.Outcome State Fault Refusal :=
  runCommand needsNothing encodeBody s

/-- The body of DECODE (45_pipeline R183). -/
def decodeBody (s : State) : ProcResult :=
  (treeReadFromStart s).andThen bitDecode

/-- DECODE (45_pipeline R183). -/
def execDecode (s : State) : Host.Outcome State Fault Refusal :=
  runCommand needsNothing decodeBody s

/-- The code of DECODE (30_encoding R81), by which the engine knows what follows `TreeRead()`. -/
def decodeCode : Byte := 0x02

/-- What follows `TreeRead()` in the running command: `BitDecode()` in DECODE (45_pipeline R183), nothing in
TREAD (43_tree_codec R148). -/
def afterHeader (s : State) : ProcResult :=
  if s.cmd = decodeCode then bitDecode s else .ok s

/-- One record of the header that is being read (43_tree_codec R146, 70_reset_and_hazards R240). -/
def headerRecord (i : Instr) (s : State) : Host.Outcome State Fault Refusal :=
  match takeRecord i s.node s.parser with
  | .more node h => .next { s with node := node, parser := h }
  | .complete node h root => endCommand (afterHeader (commitHeader node h root s))
  | .malformed node h => endCommand (.raised .malformedTree { s with node := node, parser := h })

/-- A record met while no header is being read: "While BUSY = 0 ... The engine does nothing" (20_memory R74,
log 3). The step never fetches one there. -/
def recordTurn (i : Instr) (s : State) : Host.Outcome State Fault Refusal :=
  if s.busy && s.parsing then headerRecord i s else .next s

/-- REC_INTERNAL (43_tree_codec R146). -/
def execRecInternal (s : State) : Host.Outcome State Fault Refusal :=
  recordTurn .recInternal s

/-- REC_LEAF (43_tree_codec R146). -/
def execRecLeaf (v : Byte) (s : State) : Host.Outcome State Fault Refusal :=
  recordTurn (.recLeaf v) s

end Sys2Proof.Machine
end

