-- ==== Sys2Proof/Machine/Dispatch.lean ====
section
/-! DEFINITION. exec: one arm per instruction, each a call of its meaning. -/

namespace Sys2Proof.Machine

def exec (i : Instr) (s : State) : Host.Outcome State Fault Refusal :=
  match i with
  | .encode => Sys2Proof.Machine.execEncode s
  | .decode => Sys2Proof.Machine.execDecode s
  | .count => Sys2Proof.Machine.execCount s
  | .build => Sys2Proof.Machine.execBuild s
  | .derive => Sys2Proof.Machine.execDerive s
  | .twrite => Sys2Proof.Machine.execTwrite s
  | .tread => Sys2Proof.Machine.execTread s
  | .benc => Sys2Proof.Machine.execBenc s
  | .bdec => Sys2Proof.Machine.execBdec s
  | .recInternal => Sys2Proof.Machine.execRecInternal s
  | .recLeaf v => Sys2Proof.Machine.execRecLeaf v s

end Sys2Proof.Machine
end

