-- ==== Sys2Proof/Machine/RegisterMap.lean ====
section
/-! DEFINITION. The host's register map (10_state R40, 20_memory R69). -/

namespace Sys2Proof.Machine

/-! ## Register numbers -/

def regCMD : Nat := 0x000
def regSTATUS : Nat := 0x001
def regERRCODE : Nat := 0x002
def regIN_LEN : Nat := 0x003
def regIPTR : Nat := 0x004
def regOUT_LEN_LO : Nat := 0x005
def regOUT_LEN_HI : Nat := 0x006
def regSYMCOUNT : Nat := 0x007
def regBITCOUNT_LO : Nat := 0x008
def regBITCOUNT_HI : Nat := 0x009
def regNLEAF : Nat := 0x00A
def regNNODES : Nat := 0x00B
def regROOT : Nat := 0x00C

/-- Where a register number leads (10_state R40). -/
inductive RegPlace where
  | control (num : Nat)
  | freq (b : Nat)
  | weight (i : Nat)
  | link (i : Nat)
  | codeHead (b : Nat)
  | codeBits (b j : Nat)
  | reserved
  deriving DecidableEq, Repr

/-- The map of 10_state R40. -/
def regPlace (n : Nat) : RegPlace :=
  if n ≤ 0x00C then .control n
  else if n < 0x100 then .reserved
  else if n < 0x200 then .freq (n - 0x100)
  else if n < 0x400 then .reserved
  else if n < 0x7FE then
    if n % 2 = 0 then .weight ((n - 0x400) / 2) else .link ((n - 0x400) / 2)
  else if n < 0x1000 then .reserved
  else if n < 0x2000 then
    if n % 16 = 0 then .codeHead ((n - 0x1000) / 16)
    else if n % 16 ≤ 8 then .codeBits ((n - 0x1000) / 16) (n % 16 - 1)
    else .reserved
  else .reserved

/-! ## Words of the table windows -/

/-- The link word of an arena entry: KIND at 26, SYM at 25:18, LEFT at 17:9, RIGHT at 8:0 (10_state R40). -/
def linkWord (e : NodeEntry) : Word :=
  flagBit (e.kind == .leaf) 26 ||| (e.sym.setWidth 32 <<< 18) ||| (e.left.setWidth 32 <<< 9) |||
    e.right.setWidth 32

/-- The head word of a code entry: PRESENT at 8, LEN at 7:0 (10_state R40). -/
def codeHeadWord (e : CodeEntry) : Word :=
  flagBit e.present 8 ||| e.len.setWidth 32

/-- Bits word `j` of a code entry: bit `31 - m` holds `c_{32j+m}`, 0 for `k >= LEN` (10_state R40). -/
def codeBitsWord (e : CodeEntry) (j : Nat) : Word :=
  (List.range 32).foldl
    (fun w m => w ||| flagBit (e.path.getD (32 * j + m) false) (31 - m)) 0

/-! ## Reads -/

/-- What a read gives: a value, or an unspecified one of which only the bits of `mask` are used (10_state
R54). -/
inductive RegValue where
  | value (w : Word)
  | unspecified (mask : Word)
  deriving DecidableEq, Repr

/-- A value that stands only while its flag does (10_state R54). -/
def guarded (valid : Bool) (mask w : Word) : RegValue :=
  if valid then .value w else .unspecified mask

/-- The registers 0x000 to 0x00C (10_state R40). -/
def State.readControl (s : State) (n : Nat) : RegValue :=
  if n = regCMD then .value (s.cmd.setWidth 32)
  else if n = regSTATUS then .value s.status
  else if n = regERRCODE then .value (s.errcode.setWidth 32)
  else if n = regIN_LEN then .value s.inLen
  else if n = regIPTR then .value s.iptr
  else if n = regOUT_LEN_LO then .value (s.outLen.extractLsb' 0 32)
  else if n = regOUT_LEN_HI then .value (s.outLen.extractLsb' 32 32)
  else if n = regSYMCOUNT then .value s.symcount
  else if n = regBITCOUNT_LO then .value (s.bitcount.extractLsb' 0 32)
  else if n = regBITCOUNT_HI then .value (s.bitcount.extractLsb' 32 32)
  else if n = regNLEAF then guarded s.treeValid 0x1FF (s.nleaf.setWidth 32)
  else if n = regNNODES then guarded s.treeValid 0x3FF (s.nnodes.setWidth 32)
  else if n = regROOT then guarded s.treeValid 0x1FF (s.root.setWidth 32)
  else .value 0

/-- A host read of register number `n` while BUSY = 0 (10_state R40, R54). Arena entries at or above NNODES are
unspecified. -/
def State.readReg (s : State) (n : Nat) : RegValue :=
  match regPlace n with
  | .control k => s.readControl k
  | .freq b => .value (tableGet s.freq b 0)
  | .weight i =>
    guarded (s.treeValid && decide (i < s.nnodes.toNat)) 0xFFFFFFFF (nodeAt s.node i).weight
  | .link i =>
    guarded (s.treeValid && decide (i < s.nnodes.toNat)) 0x07FFFFFF (linkWord (nodeAt s.node i))
  | .codeHead b => guarded s.codeValid 0x1FF (codeHeadWord (tableGet s.code b CodeEntry.absent))
  | .codeBits b j =>
    guarded s.codeValid (if j = 7 then 0xFFFFFFFE else 0xFFFFFFFF)
      (codeBitsWord (tableGet s.code b CodeEntry.absent) j)
  | .reserved => .value 0

/-! ## Writes -/

/-- A host write to a register other than CMD (10_state R40): IN_LEN, IPTR and SYMCOUNT take the word, every
other number ignores it. -/
def State.writeRegister (s : State) (n : Nat) (w : Word) : State :=
  if n = regIN_LEN then { s with inLen := w }
  else if n = regIPTR then { s with iptr := w }
  else if n = regSYMCOUNT then { s with symcount := w }
  else s

end Sys2Proof.Machine
end

