-- ==== Sys2Proof/Machine/HostPort.lean ====
section
/-! DEFINITION. The host's side of a step: its moves, the start of a command by a CMD write (30_encoding R82),
the fetch of a record, reset, and the placing of one instruction for the next step. `exec` is not called here:
Machine/Step.lean runs what `turn` asks for. -/

namespace Sys2Proof.Machine

/-- What a step does: run an instruction in a state, or end as said. -/
inductive Turn where
  | run (i : Instr) (s : State)
  | over (o : Host.Outcome State Fault Refusal)

/-- The state after reset, with the host's own list and last read word kept; the buffers' contents are
unspecified anew (70_reset_and_hazards R220, R221, log 20). -/
def State.afterReset (s : State) : State :=
  { State.reset with host := s.host, rdata := s.rdata, freeIdx := s.freeIdx + 1 }

/-- The host has read the word `w`. -/
def State.gotWord (s : State) (w : Word) : State :=
  { s with rdata := w }

/-- The host has read an unspecified word, of which only the bits of `mask` can be 1 (10_state R54). -/
def State.gotFree (s : State) (mask : Word) : State :=
  { s with rdata := Config.freeWord s.freeIdx &&& mask, freeIdx := s.freeIdx + 1 }

/-- A register read while BUSY = 0. -/
def State.hostReads (s : State) (n : Nat) : State :=
  match s.readReg n with
  | .value w => s.gotWord w
  | .unspecified mask => s.gotFree mask

/-- A STATUS read while BUSY = 1: BUSY reads 1, DONE and ERROR as they stand, bits 3 to 5 any value
(10_state R32, 93_implementation_defined U21, log 13). -/
def State.hostPolls (s : State) : State :=
  { s with
    rdata := (s.status &&& ~~~statusFreeMask) ||| (Config.freeWord s.freeIdx &&& statusFreeMask)
    freeIdx := s.freeIdx + 1 }

/-- A read of IN[a] with `a` < IN_CAP: the byte that stands there below IN_LEN, or an unspecified one at or above
it (10_state R54), taken from IN's free bytes (log 5). -/
def State.hostReadsIn (s : State) (a : Nat) : State :=
  if a < s.inLen.toNat then s.gotWord ((s.readIn a).setWidth 32)
  else
    { s with
      rdata := (Config.freeInByte s.freeIdx a).setWidth 32
      freeIdx := s.freeIdx + 1 }

/-- A read of OUT[a]: a valid byte, or an unspecified one at or above OUT_LEN (10_state R54), taken from OUT's own
free bytes (log 5). -/
def State.hostReadsOut (s : State) (a : Nat) : State :=
  if a < s.outLen.toNat then s.gotWord ((s.readOut a).setWidth 32)
  else
    { s with
      rdata := (Config.freeOutByte s.freeIdx a).setWidth 32
      freeIdx := s.freeIdx + 1 }

/-- A write of c to CMD while BUSY = 0 (30_encoding R82): CMD <- c, then the command; a reserved code raises
IllegalCommandError after the prologue (R85). Refused with IN_LEN > IN_CAP (70_reset_and_hazards R232). -/
def startCommand (c : Byte) (s : State) : Turn :=
  if s.inLen.toNat ≤ Config.inCap then
    match decode .command [c] with
    | .ok (i, _) => .run i { s with cmd := c }
    | .error _ => .over (.next (raise .illegalCommand (prologue { s with cmd := c })))
  else .over (.refused .inLenBeyondCapacity)

/-- The engine's turn while BUSY = 1: the record at the parse pointer (43_tree_codec R146). -/
def engineTurn (s : State) : Turn :=
  if s.parsing then
    match decode .stream s.streamRest with
    | .ok (i, _) => .run i s
    | .error _ => .over (.next (raise .malformedTree s))
  else .over (.fault .busyBetweenCommands)

/-- A host move while BUSY = 0; `s` no longer lists it. -/
def hostTurn (m : HostMove) (s : State) : Turn :=
  match m with
  | .writeReg num w =>
    if num.toNat = regCMD then startCommand (w.setWidth 8) s
    else .over (.next (s.writeRegister num.toNat w))
  | .readReg num => .over (.next (s.hostReads num.toNat))
  | .writeIn a v =>
    if a.toNat < Config.inCap then .over (.next { s with inMem := s.inMem.store a.toNat v })
    else .over (.refused .inAddressBeyondCapacity)
  | .readIn a =>
    if a.toNat < Config.inCap then .over (.next (s.hostReadsIn a.toNat))
    else .over (.refused .inAddressBeyondCapacity)
  | .readOut a => .over (.next (s.hostReadsOut a.toNat))
  | .waitIdle => .over (.next s)
  | .reset => .over (.next s.afterReset)

/-- A host move while BUSY = 1: a STATUS read, a wait (the engine takes the turn and the wait stays), or reset;
nothing else (70_reset_and_hazards R230). That the engine makes no progress at a STATUS read, so that polls in a row all
see BUSY = 1, and that it takes one record at each wait, is DESIGN CHOICE: R240 gives no timing (log 25). `s` still
lists the move and `rest` is the list after it. -/
def busyTurn (m : HostMove) (rest : List HostMove) (s : State) : Turn :=
  match m with
  | .readReg num =>
    if num.toNat = regSTATUS then .over (.next { s with host := rest }.hostPolls)
    else .over (.refused .hostAccessWhileBusy)
  | .waitIdle => engineTurn s
  | .reset => .over (.next { s with host := rest }.afterReset)
  | .writeReg _ _ | .writeIn _ _ | .readIn _ | .readOut _ => .over (.refused .hostAccessWhileBusy)

/-- Whose turn it is, and what it does. The idle engine with no pending move waits and loses no state
(60_exceptions R215). 70_reset_and_hazards R230 bars the host's accesses until it has read BUSY = 0; that a command
has ended with its own step, so that the next move needs no STATUS read or wait before it, is DESIGN CHOICE
(log 24). -/
def turn (s : State) : Turn :=
  match s.host with
  | [] => if s.busy then engineTurn s else .over (.next s)
  | m :: rest => if s.busy then busyTurn m rest s else hostTurn m { s with host := rest }

/-! ## Placing one instruction -/

/-- Bytes written to IN from address `a` on. -/
def storeFrom (m : Memory) : Nat → List Byte → Memory
  | _, [] => m
  | a, v :: vs => storeFrom (m.store a v) (a + 1) vs

/-- The host is about to write the code `c` to the idle block's CMD (log 1). -/
def placeCommand (c : Nat) (s : State) : State :=
  { s with
    busy := false, parsing := false,
    host := .writeReg (BitVec.ofNat 13 regCMD) (BitVec.ofNat 32 c) :: s.host }

/-- The engine is inside a TREAD whose next stream bytes are `bs`; the host waits (log 1). A header already being
read goes on where it stands. -/
def placeRecord (bs : List Byte) (s : State) : State :=
  let fresh := !(s.busy && s.parsing)
  let h := if fresh then HeaderParse.start 4 0 else s.parser
  { s with
    cmd := if fresh then 0x07 else s.cmd
    busy := true, parsing := true, done := false, error := false
    treeValid := false, codeValid := false, parser := h
    inMem := storeFrom s.inMem h.p bs
    inLen := BitVec.ofNat 32 (max s.inLen.toNat (h.p + bs.length))
    host := .waitIdle :: s.host }

/-- See `State.withFetchWord` in Machine/Step.lean. -/
def placeWord (nbits w : Nat) (s : State) : State :=
  match tableSpace nbits w with
  | .command => placeCommand w s
  | .stream => placeRecord (tableBytes nbits w) s

end Sys2Proof.Machine
end

