-- ==== Sys2Proof/Machine/Step.lean ====
section
/-! DEFINITION. One step of the machine, and the placing of one instruction for it. -/

namespace Sys2Proof.Machine

/-- One step: the host's next move, or one record of a header that is being read. A CMD write runs its whole
command (30_encoding R82: a command is one atomic transition, 00_scope R14). -/
def step (s : State) : Host.Outcome State Fault Refusal :=
  match turn s with
  | .run i s' => exec i s'
  | .over o => o

/-- The state in which the next step runs the instruction of a word numbered as spec/opcode_table.json numbers
it (log 1, log 12): for a command the host's next move writes its code to CMD; for a tree record the engine is
inside a TREAD and the record stands at its parse pointer. -/
def State.withFetchWord (s : State) (nbits w : Nat) : State :=
  placeWord nbits w s

end Sys2Proof.Machine
end

