-- ==== Sys2Proof/Safety.lean ====
section
/-! DEFINITION. The terms claims use: facts about abstract trees, the well-formed tree of 10_state R41, the code
map of R43, and the invariant of the machine. Nothing here is part of a step. -/

namespace Sys2Proof.Machine

/-! ## Abstract trees -/

/-- The byte values of the leaves, left to right. -/
def leavesOf : Tree → List Byte
  | .leaf v => [v]
  | .node l r => leavesOf l ++ leavesOf r

/-- The branches on the longest path from the root. -/
def depthOf : Tree → Nat
  | .leaf _ => 0
  | .node l r => max (depthOf l) (depthOf r) + 1

/-- Each byte value with its root-to-leaf path, left to right: 0 for a left branch, 1 for a right one (42_codemap
R130). The bits are written out, not taken from the machine's `leftBit`. -/
def pathsOf : Tree → List (Byte × List Bool)
  | .leaf v => [(v, [])]
  | .node l r =>
    (pathsOf l).map (fun x => (x.1, false :: x.2)) ++
      (pathsOf r).map (fun x => (x.1, true :: x.2))

/-- The code of a byte value in a tree, if it is a leaf (42_codemap R130). -/
def codeIn (t : Tree) (v : Byte) : Option (List Bool) :=
  (pathsOf t).lookup v

/-- The bits of a sequence of symbols under the codes of a tree, in order (30_encoding R93). A value that is no
leaf adds no bit. -/
def bitsOf (t : Tree) (vs : List Byte) : List Bool :=
  vs.flatMap (fun v => (codeIn t v).getD [])

/-- One symbol read from a tree, and the bits after it: 0 goes left, 1 goes right, until a leaf is reached
(44_bitstream R165). `none`: the bits end on an internal node. -/
def readSymbol : Tree → List Bool → Option (Byte × List Bool)
  | .leaf v, bits => some (v, bits)
  | .node _ _, [] => none
  | .node l _, false :: bits => readSymbol l bits
  | .node _ r, true :: bits => readSymbol r bits

/-- `n` symbols read one after the other, each from the root (44_bitstream R165). -/
def readSymbols (t : Tree) : Nat → List Bool → Option (List Byte × List Bool)
  | 0, bits => some ([], bits)
  | n + 1, bits =>
    match readSymbol t bits with
    | none => none
    | some (v, bits') =>
      match readSymbols t n bits' with
      | none => none
      | some (vs, rest) => some (v :: vs, rest)

/-! ## The arena -/

/-- The arena entries reached from entry `i`, in pre-order, by at most `depth` nested frames. -/
def entriesAt (t : NodeTable) : Nat → Nat → Option (List Nat)
  | 0, _ => none
  | depth + 1, i =>
    if i < 511 then
      match (nodeAt t i).kind with
      | .leaf => some [i]
      | .internal =>
        match entriesAt t depth (nodeAt t i).left.toNat, entriesAt t depth (nodeAt t i).right.toNat with
        | some l, some r => some (i :: (l ++ r))
        | none, _ => none
        | some _, none => none
    else none

/-- The entries in use that are leaves. -/
def State.leafEntries (s : State) : List Nat :=
  (List.range s.nnodes.toNat).filter (fun i => (nodeAt s.node i).kind == .leaf)

/-- The byte values with a count other than 0, in ascending order (41_tree_builder R110, R111). -/
def presentBytes (t : FreqTable) : List Byte :=
  ((List.range 256).map (BitVec.ofNat 8)).filter (fun b => freqAt t b != 0)

/-- The sum of all counts (41_tree_builder R121). -/
def totalCount (t : FreqTable) : Nat :=
  (((List.range 256).map (BitVec.ofNat 8)).map (fun b => (freqAt t b).toNat)).sum

/-- Entry `i` waits in the queue when entry `k` is about to be made: it is made, and no entry made before `k` has it
as a child (41_tree_builder R113, R115). -/
def WaitsAt (node : NodeTable) (k i : Nat) : Prop :=
  i < k ∧ ∀ j < k, (nodeAt node j).kind = .internal →
    (nodeAt node j).left.toNat ≠ i ∧ (nodeAt node j).right.toNat ≠ i

/-- The pair (WEIGHT, index) of entry `i` is below that of entry `j` (41_tree_builder R114). -/
def KeyBelow (node : NodeTable) (i j : Nat) : Prop :=
  (nodeAt node i).weight < (nodeAt node j).weight ∨
    ((nodeAt node i).weight = (nodeAt node j).weight ∧ i < j)

/-- Entry `k` merges the two waiting entries of least keys: the least is its left child, the next its right one
(41_tree_builder R114, R115). -/
structure MergesTheLeast (node : NodeTable) (k : Nat) : Prop where
  entry : nodeAt node k = ⟨.internal, 0,
    (nodeAt node (nodeAt node k).left.toNat).weight + (nodeAt node (nodeAt node k).right.toNat).weight,
    (nodeAt node k).left, (nodeAt node k).right⟩
  leftWaits : WaitsAt node k (nodeAt node k).left.toNat
  rightWaits : WaitsAt node k (nodeAt node k).right.toNat
  leftLeast : ∀ j, WaitsAt node k j → j ≠ (nodeAt node k).left.toNat →
    KeyBelow node (nodeAt node k).left.toNat j
  rightNext : (nodeAt node k).right ≠ (nodeAt node k).left ∧
    ∀ j, WaitsAt node k j → j ≠ (nodeAt node k).left.toNat → j ≠ (nodeAt node k).right.toNat →
      KeyBelow node (nodeAt node k).right.toNat j

/-- A well-formed tree: clauses 1 to 3 of 10_state R41. -/
structure WellFormedTree (s : State) : Prop where
  /-- clause 1 -/
  leafCount : 1 ≤ s.nleaf.toNat ∧ s.nleaf.toNat ≤ 256
  /-- clause 1 -/
  nodeCount : s.nnodes.toNat = 2 * s.nleaf.toNat - 1
  /-- clause 1 -/
  rootInUse : s.root.toNat < s.nnodes.toNat
  /-- clause 2: every entry in use is reached from ROOT exactly once, and no other is -/
  reached : ∃ is, entriesAt s.node maxFrames s.root.toNat = some is ∧ is.Perm (List.range s.nnodes.toNat)
  /-- clause 3 -/
  leaves : s.leafEntries.length = s.nleaf.toNat ∧
    (s.leafEntries.map (fun i => (nodeAt s.node i).sym)).Nodup

/-- The weights of a built tree: clause 4 of 10_state R41, for the entries in use. -/
def BuiltWeights (s : State) : Prop :=
  ∀ i < s.nnodes.toNat,
    ((nodeAt s.node i).kind = .leaf → (nodeAt s.node i).weight ≠ 0) ∧
    ((nodeAt s.node i).kind = .internal →
      (nodeAt s.node i).weight =
        (nodeAt s.node (nodeAt s.node i).left.toNat).weight +
          (nodeAt s.node (nodeAt s.node i).right.toNat).weight)

/-- CODE holds exactly the code map of the present tree (10_state R28). -/
def CodeMatchesTree (s : State) : Prop :=
  ∃ t, s.tree? = some t ∧ s.code = codesOf t

/-! ## A header that is being read -/

/-- The records `is` taken one after the other, none of them the last. -/
def takeRecords : List Instr → NodeTable → HeaderParse → HeaderStep
  | [], node, h => .more node h
  | i :: is, node, h =>
    match takeRecord i node h with
    | .more node' h' => takeRecords is node' h'
    | .complete node' h' r => .complete node' h' r
    | .malformed node' h' => .malformed node' h'

/-- Some records of some header, taken from its first one on, lead to where the parser stands. -/
def HeaderInProgress (s : State) : Prop :=
  ∃ is node p cnt, takeRecords is node (HeaderParse.start p cnt) = .more s.node s.parser

/-- The waiting entries `fs`, innermost first, each an entry index with its left child, completed one after the
other when entry `k` ends: each is written with the entry completed before it as its right child (43_tree_codec
R146). The arena then, and the entry completed last. -/
def completed (node : NodeTable) (k : Nat) : List (Nat × Nat) → NodeTable × Nat
  | [] => (node, k)
  | (i, l) :: fs =>
    completed (tableSet node i ⟨.internal, 0, 0, BitVec.ofNat 9 l, BitVec.ofNat 9 k⟩) i fs

/-- The frames of STK that wait for their right child alone (10_state R50). -/
def waitingRight (fs : List (Nat × Nat)) : List Frame :=
  fs.map (fun f => ⟨f.1, some f.2⟩)

/-! ## What a command may leave -/

/-- OUT holds the bytes `bs` from address 0 on and is otherwise as it was (20_memory R65). -/
def WroteOut (before after : Memory) (bs : List Byte) : Prop :=
  ∀ a, after.load a = if a < bs.length then bs[a]? else before.load a

/-- The two states differ at most in the transient state of 10_state R46 to R50. -/
def SameButTransients (s s' : State) : Prop :=
  s' = { s with
    inq := s'.inq, acc := s'.acc, nb := s'.nb, bp := s'.bp, cur := s'.cur, parser := s'.parser }

/-- The error codes a command can report (60_exceptions R191, R192). -/
def reportable : Instr → List (BitVec 3)
  | .encode | .count => [1]
  | .decode => [3, 4]
  | .build => [2]
  | .derive | .twrite | .benc => [5]
  | .tread => [3]
  | .bdec => [4, 5]
  | .recInternal | .recLeaf _ => []

/-! ## The invariant -/

/-- What every step keeps. -/
structure Inv (s : State) : Prop where
  /-- the buffers keep their canonical form -/
  inCanonical : s.inMem.wf
  outCanonical : s.outMem.wf
  /-- ERRCODE is 0 or the code of one of the five kinds (60_exceptions R191) -/
  errcodeLegal : s.errcode.toNat ≤ 5
  /-- between commands ERROR = 1 exactly when ERRCODE is not 0 (10_state R33) -/
  errorIffErrcode : s.busy = false → (s.error = true ↔ s.errcode ≠ 0)
  /-- DONE and ERROR are never 1 together (10_state R32) -/
  notBoth : ¬ (s.done = true ∧ s.error = true)
  /-- BUSY = 1 is never seen together with DONE = 1 or ERROR = 1 (10_state R32) -/
  busyAlone : s.busy = true → s.done = false ∧ s.error = false
  /-- the only place inside a command where the machine can stand is a header -/
  busyIffParsing : s.busy = s.parsing
  /-- CODE_VALID = 1 implies TREE_VALID = 1 (10_state R28) -/
  codeNeedsTree : s.codeValid = true → s.treeValid = true
  /-- TREE_VALID = 1 means a well-formed tree (10_state R27, R41) -/
  tree : s.treeValid = true → WellFormedTree s
  /-- CODE_VALID = 1 means the code map of that tree (10_state R28) -/
  code : s.codeValid = true → CodeMatchesTree s
  /-- `TreeRead()` clears TREE_VALID before it writes the arena (43_tree_codec R146) -/
  parsingClears : s.parsing = true → s.treeValid = false ∧ s.codeValid = false
  /-- a header that is being read was read from its first record on -/
  header : s.parsing = true → HeaderInProgress s

end Sys2Proof.Machine
end

