-- ==== Sys2Proof/Certificates/Slice0/Obligations.lean ====
section
/-! DEFINITION. The statements for the provers. A result statement writes its next state as an update of the state
before, so what it does not name is unchanged. `parsing` and the transient state of 10_state R46 to R50 are not
architectural: where a statement leaves one of them open, it says only that it exists. A host move is taken wherever
BUSY = 0: that no STATUS read need come first is the model's choice (log 24). -/

open Sys2Proof Sys2Proof.Machine

/-! ## Reset -/

/-- 10_state R55, 70_reset_and_hazards R220: the state after reset. What R55 calls unspecified is what a host read
reports as unspecified, or a buffer address that holds no written byte. -/
def Obligations.ResetLeavesStatedValues : Prop :=
  State.reset.cmd = 0x00 ∧ State.reset.readReg 0x000 = .value 0 ∧ State.reset.status = 0 ∧
  State.reset.busy = false ∧ State.reset.done = false ∧ State.reset.error = false ∧
  State.reset.errcode = 0 ∧ State.reset.inLen = 0 ∧ State.reset.iptr = 0 ∧ State.reset.outLen = 0 ∧
  State.reset.symcount = 0 ∧ State.reset.bitcount = 0 ∧
  (∀ b, freqAt State.reset.freq b = 0) ∧
  (∀ a, State.reset.inMem.load a = none ∧ State.reset.outMem.load a = none) ∧
  (∀ n ∈ [0x00A, 0x00B, 0x00C], ∃ m, State.reset.readReg n = .unspecified m) ∧
  (∀ i < 511, (∃ m, State.reset.readReg (0x400 + 2 * i) = .unspecified m) ∧
    ∃ m, State.reset.readReg (0x401 + 2 * i) = .unspecified m) ∧
  (∀ b < 256, (∃ m, State.reset.readReg (0x1000 + 16 * b) = .unspecified m) ∧
    ∀ j < 8, ∃ m, State.reset.readReg (0x1001 + 16 * b + j) = .unspecified m)

/-- 70_reset_and_hazards R221: reset, also while a command runs, gives the reset state. That the host's own list, the
word it last read and the counter of free values outlive a reset is the model's choice (log 20). -/
def Obligations.ResetAbandonsTheCommand : Prop :=
  ∀ s rest, s.host = .reset :: rest →
    step s = .next { State.reset with host := rest, rdata := s.rdata, freeIdx := s.freeIdx + 1 }

/-! ## Decoding, and what a step does -/

/-- 30_encoding R81, R90, R98: words of the opcode table and what they stand for. -/
def Obligations.TableWordsDecode : Prop :=
  decodeTableWord 8 0x01 = some .encode ∧ decodeTableWord 8 0x02 = some .decode ∧
  decodeTableWord 8 0x03 = some .count ∧ decodeTableWord 8 0x04 = some .build ∧
  decodeTableWord 8 0x05 = some .derive ∧ decodeTableWord 8 0x06 = some .twrite ∧
  decodeTableWord 8 0x07 = some .tread ∧ decodeTableWord 8 0x08 = some .benc ∧
  decodeTableWord 8 0x09 = some .bdec ∧ decodeTableWord 8 0x00 = some .recInternal ∧
  decodeTableWord 16 0x0100 = some (.recLeaf 0x00) ∧ decodeTableWord 16 0x0141 = some (.recLeaf 0x41) ∧
  decodeTableWord 16 0x01FF = some (.recLeaf 0xFF) ∧ decodeTableWord 16 0x0241 = none ∧
  decodeTableWord 8 0x0A = none

/-- Decode and encode agree, for every well-formed instruction and whatever bytes follow it. -/
def Obligations.DecodeOfEncodeIsTheInstruction : Prop :=
  ∀ (i : Instr) (rest : List Byte), i.WellFormed = true → decode i.space (encode i ++ rest) = .ok (i, rest)

/-- Each byte sequence has at most one reading: what decodes is the encoding of what it decodes to. -/
def Obligations.DecodedBytesAreTheEncoding : Prop :=
  ∀ (sp : Space) (bs rest : List Byte) (i : Instr), decode sp bs = .ok (i, rest) →
    bs = encode i ++ rest ∧ i.space = sp

/-- 30_encoding R91: the pre-order grammar, its sizes, its last record, and that it is unambiguous and
self-delimiting. -/
def Obligations.TreeGrammarIsSelfDelimiting : Prop :=
  (∀ v, serialize (.leaf v) = [0x01, v]) ∧
  (∀ l r, serialize (.node l r) = 0x00 :: (serialize l ++ serialize r)) ∧
  (∀ t, (serialize t).length = 3 * (leavesOf t).length - 1 ∧
    (leafValues (records t)).length = (leavesOf t).length ∧
    ((records t).filter (fun i => i == .recInternal)).length = (leavesOf t).length - 1 ∧
    ∃ bs v, serialize t = bs ++ [0x01, v] ∧ v ∈ leavesOf t) ∧
  (∀ t, (leavesOf t).Nodup → (serialize t).length ≤ 767) ∧
  ∀ t u bs cs, serialize t ++ bs = serialize u ++ cs → t = u ∧ bs = cs

/-- 43_tree_codec R147: the records the well-formedness check accepts are those of a tree whose leaves have pairwise
different values. -/
def Obligations.WellFormedHeadersAreTrees : Prop :=
  ∀ is, HeaderWellFormed is = true ↔ ∃ t, is = records t ∧ (leavesOf t).Nodup

/-- 10_state R31, 30_encoding R82: the step of a CMD write runs the instruction its byte decodes to, on the state with
CMD written and the move taken off the host's list. -/
def Obligations.CmdWriteRunsDecodedCommand : Prop :=
  ∀ s rest num w i, s.busy = false → s.host = .writeReg num w :: rest → num = 0x000 →
    s.inLen.toNat ≤ Config.inCap → decode .command [w.setWidth 8] = .ok (i, []) →
    step s = exec i { s with host := rest, cmd := w.setWidth 8 }

/-- 43_tree_codec R146, 70_reset_and_hazards R240: while a header is being read and the host waits, the step runs the
record that stands at the parse pointer; bytes that are no record end the command with MalformedTreeError. That one
record is one step is the model's choice (log 2). -/
def Obligations.BusyEngineRunsDecodedRecord : Prop :=
  ∀ s, s.busy = true → s.parsing = true → (s.host = [] ∨ ∃ rest, s.host = .waitIdle :: rest) →
    (∀ i rest, decode .stream s.streamRest = .ok (i, rest) → step s = exec i s) ∧
    (∀ e, decode .stream s.streamRest = .error e →
      step s = .next { s with
        errcode := 3, error := true, done := false, outLen := 0, iptr := 0, bitcount := 0, busy := false
        parsing := false })

/-- 30_encoding R85: the codes 0x00 and 0x0A to 0xFF, and no other, decode to nothing; writing one raises
IllegalCommandError after the prologue and does nothing else. -/
def Obligations.ReservedCommandCodesRaise : Prop :=
  ∀ s rest w, s.busy = false → s.host = .writeReg 0x000 w :: rest → s.inLen.toNat ≤ Config.inCap →
    ((w.setWidth 8 : Byte) = 0x00 ∨ 0x0A ≤ (w.setWidth 8 : Byte).toNat ↔
      ∀ i, decode .command [w.setWidth 8] ≠ .ok (i, [])) ∧
    ((w.setWidth 8 : Byte) = 0x00 ∨ 0x0A ≤ (w.setWidth 8 : Byte).toNat →
      step s = .next { s with
        host := rest, cmd := w.setWidth 8, errcode := 5, error := true, done := false, outLen := 0
        iptr := 0, bitcount := 0, busy := false, parsing := false })

/-! ## The frame of every command -/

/-- 30_encoding R82, R84, 60_exceptions R191, R195: a command whose precondition holds runs its body on the state the
prologue leaves; if the body returns, the epilogue follows; if it raises, the abort sequence does and nothing else. -/
def Obligations.CommandsEndByEpilogueOrAbort : Prop :=
  ∀ (pre : State → Bool) (body : State → ProcResult) (s t : State) (e : ErrorKind),
    pre { s with busy := true, done := false, error := false, outLen := 0 } = true →
    (body { s with busy := true, done := false, error := false, outLen := 0 } = .ok t →
      runCommand pre body s = .next { t with errcode := 0, done := true, busy := false }) ∧
    (body { s with busy := true, done := false, error := false, outLen := 0 } = .raised e t →
      runCommand pre body s = .next { t with
        errcode :=
          (match e with
          | .emptyInput => 1
          | .emptyNodeSet => 2
          | .malformedTree => 3
          | .truncatedStream => 4
          | .illegalCommand => 5)
        error := true, done := false, outLen := 0, iptr := 0, bitcount := 0, busy := false
        parsing := false })

/-- 30_encoding R86: where the precondition fails the command reports IllegalCommandError and its body does not run;
where it holds the body runs on the state after the prologue; five commands have no precondition. -/
def Obligations.PreconditionsOnState : Prop :=
  ∀ s,
    (∀ i, (i = .derive ∧ s.treeValid = false) ∨ (i = .twrite ∧ s.treeValid = false) ∨
      (i = .benc ∧ s.codeValid = false) ∨ (i = .bdec ∧ (s.treeValid = false ∨ s.inLen < s.iptr)) →
      exec i s = .next { s with
        errcode := 5, error := true, done := false, outLen := 0, iptr := 0, bitcount := 0, busy := false
        parsing := false }) ∧
    (s.treeValid = true → exec .derive s = endCommand (derive (prologue s)) ∧
      exec .twrite s = endCommand (treeWrite (prologue s))) ∧
    (s.codeValid = true → exec .benc s = endCommand (bitEncode (prologue s))) ∧
    (s.treeValid = true → s.iptr ≤ s.inLen → exec .bdec s = endCommand (bitDecode (prologue s))) ∧
    exec .encode s = endCommand (encodeBody (prologue s)) ∧
    exec .decode s = endCommand (decodeBody (prologue s)) ∧
    exec .count s = endCommand (count (prologue s)) ∧ exec .build s = endCommand (build (prologue s)) ∧
    exec .tread s = endCommand (treeReadFromStart (prologue s))

/-- 45_pipeline R187: all or nothing. -/
def Obligations.CommandsSucceedOrReportOneError : Prop :=
  ∀ i s t, i.space = .command → exec i s = .next t → t.busy = false ∧
    ((t.done = true ∧ t.error = false ∧ t.errcode = 0) ∨
      (t.done = false ∧ t.error = true ∧ t.errcode ≠ 0 ∧ t.outLen = 0 ∧ t.outBytes = [] ∧ t.iptr = 0 ∧
        t.bitcount = 0))

/-- 60_exceptions R192: which error codes each command can report. -/
def Obligations.ErrorsEachCommandCanReport : Prop :=
  ∀ i s t, i.space = .command → exec i s = .next t → t.errcode = 0 ∨ t.errcode ∈ reportable i

/-- 10_state R56: what each command may write, and nothing else. `parsing` and the transients, which R56 does not
list, are left open. -/
def Obligations.CommandsWriteOnlyWhatIsListed : Prop :=
  ∀ s t,
    (∀ i, i.space = .command → exec i s = .next t →
      t.inMem = s.inMem ∧ t.inLen = s.inLen ∧ t.cmd = s.cmd ∧ t.host = s.host ∧ t.rdata = s.rdata ∧
        t.freeIdx = s.freeIdx ∧ (t.error = true → t.bitcount = 0)) ∧
    (exec .count s = .next t → t.outLen = 0 ∧ (t.error = false → t.bitcount = s.bitcount) ∧
      SameButTransients t { s with
        freq := t.freq, symcount := t.symcount, iptr := t.iptr, outLen := t.outLen, done := t.done
        error := t.error, errcode := t.errcode, busy := t.busy, bitcount := t.bitcount
        parsing := t.parsing }) ∧
    (exec .build s = .next t → t.outLen = 0 ∧ t.codeValid = false ∧
      (t.error = false → t.iptr = s.iptr ∧ t.bitcount = s.bitcount) ∧
      SameButTransients t { s with
        node := t.node, nnodes := t.nnodes, nleaf := t.nleaf, root := t.root, treeValid := t.treeValid
        codeValid := t.codeValid, outLen := t.outLen, iptr := t.iptr, done := t.done, error := t.error
        errcode := t.errcode, busy := t.busy, bitcount := t.bitcount, parsing := t.parsing }) ∧
    (exec .derive s = .next t → t.outLen = 0 ∧
      (t.error = false → t.iptr = s.iptr ∧ t.bitcount = s.bitcount) ∧
      SameButTransients t { s with
        code := t.code, codeValid := t.codeValid, outLen := t.outLen, iptr := t.iptr, done := t.done
        error := t.error, errcode := t.errcode, busy := t.busy, bitcount := t.bitcount
        parsing := t.parsing }) ∧
    (exec .twrite s = .next t → (t.error = false → t.iptr = s.iptr ∧ t.bitcount = s.bitcount) ∧
      SameButTransients t { s with
        outMem := t.outMem, outLen := t.outLen, iptr := t.iptr, done := t.done, error := t.error
        errcode := t.errcode, busy := t.busy, bitcount := t.bitcount, parsing := t.parsing }) ∧
    (exec .tread s = .next t → t.outLen = 0 ∧ t.codeValid = false ∧
      (t.error = true → t.symcount = s.symcount) ∧ (t.error = false → t.bitcount = s.bitcount) ∧
      SameButTransients t { s with
        node := t.node, nnodes := t.nnodes, nleaf := t.nleaf, root := t.root, treeValid := t.treeValid
        codeValid := t.codeValid, symcount := t.symcount, iptr := t.iptr, outLen := t.outLen
        done := t.done, error := t.error, errcode := t.errcode, busy := t.busy, bitcount := t.bitcount
        parsing := t.parsing }) ∧
    (exec .benc s = .next t ∨ exec .bdec s = .next t →
      SameButTransients t { s with
        outMem := t.outMem, outLen := t.outLen, bitcount := t.bitcount, iptr := t.iptr, done := t.done
        error := t.error, errcode := t.errcode, busy := t.busy, parsing := t.parsing }) ∧
    (exec .encode s = .next t →
      SameButTransients t { s with
        freq := t.freq, symcount := t.symcount, node := t.node, nnodes := t.nnodes, nleaf := t.nleaf
        root := t.root, treeValid := t.treeValid, code := t.code, codeValid := t.codeValid
        outMem := t.outMem, outLen := t.outLen, bitcount := t.bitcount, iptr := t.iptr, done := t.done
        error := t.error, errcode := t.errcode, busy := t.busy, parsing := t.parsing }) ∧
    (exec .decode s = .next t →
      SameButTransients t { s with
        node := t.node, nnodes := t.nnodes, nleaf := t.nleaf, root := t.root, treeValid := t.treeValid
        codeValid := t.codeValid, symcount := t.symcount, outMem := t.outMem, outLen := t.outLen
        bitcount := t.bitcount, iptr := t.iptr, done := t.done, error := t.error, errcode := t.errcode
        busy := t.busy, parsing := t.parsing })

/-- 10_state R25: IPTR after each command, never beyond IN_LEN where the command sets it. -/
def Obligations.IptrAfterEachCommand : Prop :=
  ∀ i s t, i.space = .command → exec i s = .next t →
    (t.error = true → t.iptr = 0) ∧
    (t.error = false →
      (i = .encode ∨ i = .count ∨ i = .benc → t.iptr = t.inLen) ∧
      (i = .decode ∨ i = .tread ∨ i = .bdec → t.iptr ≤ t.inLen) ∧
      (i = .build ∨ i = .derive ∨ i = .twrite → t.iptr = s.iptr))

/-- 10_state R51: no command's result depends on what an earlier one left in the transient state. -/
def Obligations.TransientsDoNotMatter : Prop :=
  ∀ i s s' t, i.space = .command → SameButTransients s s' → exec i s = .next t →
    ∃ t', exec i s' = .next t' ∧ SameButTransients t t'

/-! ## The frequency counter -/

/-- 40_frequency R101, R102: COUNT. -/
def Obligations.CountLeavesTheByteCounts : Prop :=
  ∀ s,
    (s.inLen ≠ 0 → ∃ f, exec .count s = .next { s with
        freq := f, symcount := s.inLen, iptr := s.inLen, outLen := 0, errcode := 0, done := true
        error := false, busy := false } ∧
      (∀ b, (freqAt f b).toNat = s.inputBytes.count b) ∧ totalCount f = s.inLen.toNat) ∧
    (s.inLen = 0 → exec .count s = .next { s with
        freq := Table.fill Word 256 0, symcount := 0, errcode := 1, error := true, done := false
        outLen := 0, iptr := 0, bitcount := 0, busy := false, parsing := false })

/-! ## The tree builder -/

/-- 41_tree_builder R114: `ExtractMin()` takes the index of least weight, among equal weights the smaller index, and
takes nothing else out of the queue. -/
def Obligations.ExtractMinTakesTheLeastKey : Prop :=
  ∀ (w : BuildWork) (i : Nat), w.inq.getLsbD i = true →
    ∃ m w', w.extractMin = some (m, w') ∧ w.inq.getLsbD m = true ∧
      (∀ j, w.inq.getLsbD j = true → j ≠ m →
        (nodeAt w.node m).weight < (nodeAt w.node j).weight ∨
          ((nodeAt w.node m).weight = (nodeAt w.node j).weight ∧ m < j)) ∧
      (∀ j, w'.inq.getLsbD j = (w.inq.getLsbD j && j != m)) ∧
      w'.node = w.node ∧ w'.n = w.n

/-- 41_tree_builder R115: `Merge(a, b)` makes the internal entry of the sum, with the first extracted as its left
child, and inserts it. -/
def Obligations.MergeMakesTheNewNode : Prop :=
  ∀ (w : BuildWork) (a b : Nat), w.n < 511 → a < 511 → b < 511 →
    nodeAt (w.merge a b).node w.n =
      ⟨.internal, 0, (nodeAt w.node a).weight + (nodeAt w.node b).weight, BitVec.ofNat 9 a,
        BitVec.ofNat 9 b⟩ ∧
    (BitVec.ofNat 9 a).toNat = a ∧ (BitVec.ofNat 9 b).toNat = b ∧
    (∀ i, i ≠ w.n → nodeAt (w.merge a b).node i = nodeAt w.node i) ∧
    (w.merge a b).n = w.n + 1 ∧ (w.merge a b).last = w.n ∧
    ∀ i, (w.merge a b).inq.getLsbD i = (w.inq.getLsbD i || i == w.n)

/-- 41_tree_builder R111, R112, R117, R118: BUILD of a table with a count that is not 0: one leaf for each present byte,
in ascending order, from entry 0 on; then, for each m < n - 1, entry n + m merges the two waiting entries of least
(WEIGHT, index), the least as its left child; the root is the entry made last. -/
def Obligations.BuildMakesLeavesInByteOrder : Prop :=
  ∀ s, presentBytes s.freq ≠ [] →
    ∃ node inq root, exec .build s = .next { s with
        node := node, inq := inq, root := root
        nleaf := BitVec.ofNat 9 (presentBytes s.freq).length
        nnodes := BitVec.ofNat 10 (2 * (presentBytes s.freq).length - 1)
        treeValid := true, codeValid := false, outLen := 0, errcode := 0, done := true, error := false
        busy := false } ∧
      (presentBytes s.freq).length ≤ 256 ∧
      (presentBytes s.freq).Pairwise (fun a b => a < b) ∧
      (∀ b, b ∈ presentBytes s.freq ↔ freqAt s.freq b ≠ 0) ∧
      (∀ k (h : k < (presentBytes s.freq).length), nodeAt node k =
        ⟨.leaf, (presentBytes s.freq)[k], freqAt s.freq (presentBytes s.freq)[k], 0, 0⟩) ∧
      (∀ m < (presentBytes s.freq).length - 1, MergesTheLeast node ((presentBytes s.freq).length + m)) ∧
      root.toNat = 2 * (presentBytes s.freq).length - 2

/-- 41_tree_builder R119: BUILD of a table of zeros. That the arena, NNODES, NLEAF, ROOT and CODE stay as they were is
the model's choice (log 18): 60_exceptions R196 calls them unspecified after this error. -/
def Obligations.BuildRaisesOnEmptyTable : Prop :=
  ∀ s, (∀ b, freqAt s.freq b = 0) →
    exec .build s = .next { s with
      treeValid := false, codeValid := false, inq := 0, errcode := 2, error := true, done := false
      outLen := 0, iptr := 0, bitcount := 0, busy := false, parsing := false }

/-- 41_tree_builder R121: the tree BUILD leaves is well formed, clause 4 included, and the root's weight is the sum of
all counts (modulo 2^32, so the sum itself where it fits its 32 bits, as it does after `Count()`, where it is
SYMCOUNT). -/
def Obligations.BuiltTreeIsWellFormed : Prop :=
  ∀ s t, exec .build s = .next t → t.error = false →
    t.treeValid = true ∧ WellFormedTree t ∧ BuiltWeights t ∧
    (nodeAt t.node t.root.toNat).weight = BitVec.ofNat 32 (totalCount s.freq) ∧
    (∀ r, exec .count r = .next s → s.error = false → (nodeAt t.node t.root.toNat).weight = s.symcount) ∧
    ((List.range t.nnodes.toNat).filter (fun i => (nodeAt t.node i).kind == .internal)).length =
      t.nleaf.toNat - 1 ∧
    ∃ tr, t.tree? = some tr ∧ (leavesOf tr).Perm (presentBytes s.freq)

/-- 41_tree_builder R122: the arena, entry for entry, depends on FREQ alone. -/
def Obligations.BuildDependsOnFreqAlone : Prop :=
  ∀ s s' t t', s.freq = s'.freq → exec .build s = .next t → exec .build s' = .next t' →
    t.error = t'.error ∧ t.treeValid = t'.treeValid ∧
    (t.error = false → t.nleaf = t'.nleaf ∧ t.nnodes = t'.nnodes ∧ t.root = t'.root ∧
      ∀ i < t.nnodes.toNat, nodeAt t.node i = nodeAt t'.node i)

/-! ## The code-map deriver -/

/-- 42_codemap R130, R131, R132, R134, 10_state R23: DERIVE records for each leaf its path from the root, 0 for a left
branch and 1 for a right one, with `c_k` at bit 254 - k of BITS and 0 in every bit below, and nothing for any other
byte value; a single leaf gets the empty code. -/
def Obligations.DeriveRecordsThePaths : Prop :=
  leftBit = false ∧ rightBit = true ∧
  (∀ l r, pathsOf (.node l r) = (pathsOf l).map (fun x => (x.1, false :: x.2)) ++
    (pathsOf r).map (fun x => (x.1, true :: x.2))) ∧
  ∀ s, s.treeValid = true → WellFormedTree s →
    ∃ tr code, s.tree? = some tr ∧ exec .derive s = .next { s with
        code := code, codeValid := true, outLen := 0, errcode := 0, done := true, error := false
        busy := false } ∧
      (∀ b p, codeIn tr b = some p → (codeAt code b).present = true ∧ (codeAt code b).len.toNat = p.length ∧
        (codeAt code b).path = p ∧
        (∀ k (h : k < p.length), (codeAt code b).bits.getLsbD (254 - k) = p[k]) ∧
        ∀ i < 255 - p.length, (codeAt code b).bits.getLsbD i = false) ∧
      (∀ b, codeIn tr b = none → codeAt code b = ⟨false, 0, 0⟩) ∧
      ∀ v, tr = .leaf v → codeAt code v = ⟨true, 0, 0⟩

/-- 42_codemap R135, 10_state R43: the codes DERIVE leaves are those of NLEAF values, prefix-free, not empty where the
tree has two leaves or more, and complete: every infinite bit sequence begins with exactly one of them. -/
def Obligations.DerivedCodesArePrefixFree : Prop :=
  ∀ s t, WellFormedTree s → exec .derive s = .next t → t.error = false →
    (((List.range 256).map (BitVec.ofNat 8)).filter (fun b => (codeAt t.code b).present)).length =
      t.nleaf.toNat ∧
    (∀ u v, (codeAt t.code u).present = true → (codeAt t.code v).present = true → u ≠ v →
      ¬ (codeAt t.code u).path <+: (codeAt t.code v).path) ∧
    (2 ≤ t.nleaf.toNat → ∀ v, (codeAt t.code v).present = true →
      1 ≤ (codeAt t.code v).len.toNat ∧ (codeAt t.code v).len.toNat ≤ 255) ∧
    ∀ bits : Nat → Bool, ∃ v, ((codeAt t.code v).present = true ∧
        (codeAt t.code v).path = (List.range (codeAt t.code v).len.toNat).map bits) ∧
      ∀ u, (codeAt t.code u).present = true →
        (codeAt t.code u).path = (List.range (codeAt t.code u).len.toNat).map bits → u = v

/-! ## The tree codec -/

/-- 43_tree_codec R141, R143: TWRITE emits the count, most significant byte first, and the records of the tree. -/
def Obligations.TwriteEmitsTheHeader : Prop :=
  ∀ s, s.treeValid = true → WellFormedTree s →
    ∃ tr out, s.tree? = some tr ∧ exec .twrite s = .next { s with
        outMem := out, outLen := BitVec.ofNat 64 (4 + 3 * s.nleaf.toNat - 1), errcode := 0, done := true
        error := false, busy := false } ∧
      ([s.symcount.extractLsb' 24 8, s.symcount.extractLsb' 16 8, s.symcount.extractLsb' 8 8,
        s.symcount.extractLsb' 0 8] ++ serialize tr).length = 4 + 3 * s.nleaf.toNat - 1 ∧
      WroteOut s.outMem out ([s.symcount.extractLsb' 24 8, s.symcount.extractLsb' 16 8,
        s.symcount.extractLsb' 8 8, s.symcount.extractLsb' 0 8] ++ serialize tr)

/-- 43_tree_codec R146, R148: TREAD of a well-formed header: the count, the tree numbered in pre-order from entry 0,
every weight 0, and IPTR at the first byte after the header. -/
def Obligations.TreadReadsTheHeader : Prop :=
  ∀ s b0 b1 b2 b3 tr rest, s.inputBytes = b0 :: b1 :: b2 :: b3 :: (serialize tr ++ rest) →
    (leavesOf tr).Nodup →
    ∃ node parser, exec .tread s = .next { s with
        node := node, parser := parser
        symcount := BitVec.ofNat 32 (b0.toNat * 2 ^ 24 + b1.toNat * 2 ^ 16 + b2.toNat * 2 ^ 8 + b3.toNat)
        root := 0, nnodes := BitVec.ofNat 10 (2 * (leavesOf tr).length - 1)
        nleaf := BitVec.ofNat 9 (leavesOf tr).length
        iptr := BitVec.ofNat 32 (4 + 3 * (leavesOf tr).length - 1), treeValid := true
        codeValid := false, outLen := 0, errcode := 0, done := true, error := false, busy := false
        parsing := false } ∧
      treeAt node maxFrames 0 = some tr ∧
      entriesAt node maxFrames 0 = some (List.range (2 * (leavesOf tr).length - 1)) ∧
      ∀ i < 2 * (leavesOf tr).length - 1, (nodeAt node i).weight = 0

/-- 43_tree_codec R147: TREAD fails, with MalformedTreeError, exactly where the input is no count field followed by
the records of a tree whose leaves have pairwise different values; the flags are then clear and SYMCOUNT is
unchanged. -/
def Obligations.TreadRejectsExactlyMalformedHeaders : Prop :=
  ∀ s, (¬ ∃ b0 b1 b2 b3 tr rest, s.inputBytes = b0 :: b1 :: b2 :: b3 :: (serialize tr ++ rest) ∧
      (leavesOf tr).Nodup) ↔
    ∃ node parser, exec .tread s = .next { s with
      node := node, parser := parser, treeValid := false, codeValid := false, errcode := 3
      error := true, done := false, outLen := 0, iptr := 0, bitcount := 0, busy := false
      parsing := false }

/-- 43_tree_codec R149: the header TWRITE emits is read back by TREAD to the same count and the same abstract tree,
every byte of it consumed; and TWRITE after any TREAD that succeeds emits exactly the header bytes that were read. -/
def Obligations.HeaderRoundTrip : Prop :=
  (∀ s t u, s.treeValid = true → WellFormedTree s → exec .twrite s = .next t → u.inputBytes = t.outBytes →
    ∃ v, exec .tread u = .next v ∧ v.done = true ∧ v.treeValid = true ∧ v.symcount = s.symcount ∧
      v.tree? = s.tree? ∧ v.iptr.toNat = t.outBytes.length ∧ v.iptr = v.inLen) ∧
  ∀ u v, exec .tread u = .next v → v.error = false →
    ∃ w, exec .twrite v = .next w ∧ w.done = true ∧ w.outBytes = u.inputBytes.take v.iptr.toNat

/-- 43_tree_codec R146, R148, 45_pipeline R183: one LEAF record while a header is being read. Its entry is written. It
completes the entries `fs` that wait for their right child alone, none, one or many in a row; what is completed last
becomes the left child of the entry that waits next. Where none waits it is the root: TREAD ends, and DECODE goes on to
the payload. A value that occurred before is MalformedTreeError. That one record is one step is the model's choice
(log 2). -/
def Obligations.LeafRecordTurn : Prop :=
  ∀ s v, s.busy = true → s.parsing = true →
    (∀ fs j stk, s.parser.seen.getLsbD v.toNat = false → s.parser.stk = waitingRight fs ++ ⟨j, none⟩ :: stk →
      ∃ node k, completed (tableSet s.node s.parser.nn ⟨.leaf, v, 0, 0, 0⟩) s.parser.nn fs = (node, k) ∧
        exec (.recLeaf v) s = .next { s with
          node := node
          parser := { s.parser with
            p := s.parser.p + 2, nn := s.parser.nn + 1, nl := s.parser.nl + 1
            seen := s.parser.seen ||| BitVec.twoPow 256 v.toNat
            stk := ⟨j, some k⟩ :: stk } }) ∧
    (∀ fs, s.parser.seen.getLsbD v.toNat = false → s.parser.stk = waitingRight fs →
      ∃ node k c, completed (tableSet s.node s.parser.nn ⟨.leaf, v, 0, 0, 0⟩) s.parser.nn fs = (node, k) ∧
        c = { s with
          node := node
          parser := { s.parser with
            p := s.parser.p + 2, nn := s.parser.nn + 1, nl := s.parser.nl + 1
            seen := s.parser.seen ||| BitVec.twoPow 256 v.toNat, stk := [] }
          symcount := s.parser.cnt, root := BitVec.ofNat 9 k, nnodes := BitVec.ofNat 10 (s.parser.nn + 1)
          nleaf := BitVec.ofNat 9 (s.parser.nl + 1), iptr := BitVec.ofNat 32 (s.parser.p + 2)
          treeValid := true, parsing := false } ∧
        (s.cmd = 0x07 → exec (.recLeaf v) s = .next { c with errcode := 0, done := true, busy := false }) ∧
        (s.cmd = 0x02 →
          (∃ u, bitDecode c = .ok u ∧
            exec (.recLeaf v) s = .next { u with errcode := 0, done := true, busy := false }) ∨
          (∃ u, bitDecode c = .raised .truncatedStream u ∧
            exec (.recLeaf v) s = .next { u with
              errcode := 4, error := true, done := false, outLen := 0, iptr := 0, bitcount := 0
              busy := false, parsing := false }))) ∧
    (s.parser.seen.getLsbD v.toNat = true →
      exec (.recLeaf v) s = .next { s with
        parser := { s.parser with p := s.parser.p + 2 }, errcode := 3, error := true, done := false
        outLen := 0, iptr := 0, bitcount := 0, busy := false, parsing := false })

/-- 43_tree_codec R146: one INTERNAL record while a header is being read: a new entry waits for its children; a 256th
is MalformedTreeError. That one record is one step is the model's choice (log 2). -/
def Obligations.InternalRecordTurn : Prop :=
  ∀ s, s.busy = true → s.parsing = true →
    (s.parser.ni < 255 →
      exec .recInternal s = .next { s with
        parser := { s.parser with
          p := s.parser.p + 1, nn := s.parser.nn + 1, ni := s.parser.ni + 1
          stk := ⟨s.parser.nn, none⟩ :: s.parser.stk } }) ∧
    (255 ≤ s.parser.ni →
      exec .recInternal s = .next { s with
        parser := { s.parser with p := s.parser.p + 1 }, errcode := 3, error := true, done := false
        outLen := 0, iptr := 0, bitcount := 0, busy := false, parsing := false })

/-- The model's choice (log 3, after 20_memory R74): a record has no effect where no header is being read. -/
def Obligations.RecordOutsideHeaderHasNoEffect : Prop :=
  ∀ s v, s.busy = false ∨ s.parsing = false →
    exec (.recLeaf v) s = .next s ∧ exec .recInternal s = .next s

/-- TREAD and DECODE run one record a step end where the atomic commands end, and BUSY is 1 in between. To split them so
is the model's choice (log 2); 70_reset_and_hazards R240 allows a model to split a command into steps. -/
def Obligations.RecordByRecordAgrees : Prop :=
  ∀ s s1, s.host = [] → beginHeader { prologue s with iptr := 0 } = some s1 →
    (s.cmd = 0x07 → ∃ k t, Sys2Proof.core.run k s1 = .next t ∧ exec .tread s = .next t ∧
      ∀ j < k, ∃ u : State, Sys2Proof.core.run j s1 = .next u ∧ u.busy = true) ∧
    (s.cmd = 0x02 → ∃ k t, Sys2Proof.core.run k s1 = .next t ∧ exec .decode s = .next t ∧
      ∀ j < k, ∃ u : State, Sys2Proof.core.run j s1 = .next u ∧ u.busy = true)

/-! ## The bit-stream codec -/

/-- 44_bitstream R161, R162, R164, 20_memory R68, 30_encoding R94: BENC of an input whose bytes all have codes: bit k of
the concatenated codes stands at bit 7 - (k mod 8) of byte floor(k / 8), and the padding is 0. -/
def Obligations.BencPacksTheCodes : Prop :=
  ∀ s tr, s.codeValid = true → WellFormedTree s → s.tree? = some tr → s.code = codesOf tr →
    (∀ v ∈ s.inputBytes, v ∈ leavesOf tr) →
    ∃ out acc nb bs, exec .benc s = .next { s with
        outMem := out, acc := acc, nb := nb, bitcount := BitVec.ofNat 64 (bitsOf tr s.inputBytes).length
        outLen := BitVec.ofNat 64 (((bitsOf tr s.inputBytes).length + 7) / 8), iptr := s.inLen
        errcode := 0, done := true, error := false, busy := false } ∧
      WroteOut s.outMem out bs ∧ bs.length = ((bitsOf tr s.inputBytes).length + 7) / 8 ∧
      (∀ k < 8 * bs.length,
        (bs.getD (k / 8) 0).getLsbD (7 - k % 8) = (bitsOf tr s.inputBytes).getD k false) ∧
      (s.nleaf = 1 → bitsOf tr s.inputBytes = [])

/-- 44_bitstream R163: BENC stops at the first input byte without a code; what it had emitted, the whole bytes of the
codes before, is discarded. -/
def Obligations.BencStopsAtByteWithoutCode : Prop :=
  ∀ s tr vs v ws, s.codeValid = true → WellFormedTree s → s.tree? = some tr → s.code = codesOf tr →
    s.inputBytes = vs ++ v :: ws → (∀ u ∈ vs, u ∈ leavesOf tr) → v ∉ leavesOf tr →
    ∃ out acc nb bs, exec .benc s = .next { s with
        outMem := out, acc := acc, nb := nb, errcode := 5, error := true, done := false, outLen := 0
        iptr := 0, bitcount := 0, busy := false, parsing := false } ∧
      WroteOut s.outMem out bs ∧
      bs.flatMap byteBits = (bitsOf tr vs).take (8 * ((bitsOf tr vs).length / 8))

/-- 44_bitstream R165, R166, R169: BDEC of a payload that holds SYMCOUNT symbols, whatever follows them. -/
def Obligations.BdecWalksTheTree : Prop :=
  ∀ s tr vs rest, s.treeValid = true → s.iptr ≤ s.inLen → WellFormedTree s → s.tree? = some tr →
    readSymbols tr s.symcount.toNat s.payloadBits = some (vs, rest) →
    ∃ out cur bp, exec .bdec s = .next { s with
        outMem := out, cur := cur, bp := bp, outLen := BitVec.ofNat 64 s.symcount.toNat
        bitcount := BitVec.ofNat 64 (s.payloadBits.length - rest.length)
        iptr := BitVec.ofNat 32 (s.iptr.toNat + (s.payloadBits.length - rest.length + 7) / 8)
        errcode := 0, done := true, error := false, busy := false } ∧
      vs.length = s.symcount.toNat ∧ WroteOut s.outMem out vs ∧
      s.iptr.toNat + (s.payloadBits.length - rest.length + 7) / 8 ≤ s.inLen.toNat

/-- 44_bitstream R167: a single-leaf tree decodes to SYMCOUNT copies and a zero count to nothing, and neither reads a
bit. -/
def Obligations.BdecSingleLeafAndZeroCount : Prop :=
  ∀ s tr, s.treeValid = true → s.iptr ≤ s.inLen → WellFormedTree s → s.tree? = some tr →
    (∀ v, tr = .leaf v → ∃ t, exec .bdec s = .next t ∧ t.done = true ∧
      t.outBytes = List.replicate s.symcount.toNat v ∧ t.bitcount = 0 ∧ t.iptr = s.iptr) ∧
    (s.symcount = 0 → ∃ t, exec .bdec s = .next t ∧ t.done = true ∧ t.outBytes = [] ∧ t.outLen = 0 ∧
      t.bitcount = 0 ∧ t.iptr = s.iptr)

/-- 44_bitstream R168: TruncatedStreamError exactly where the bits end on an internal node before SYMCOUNT symbols; the
symbols emitted before are discarded, and the tree stays valid. -/
def Obligations.BdecTruncatedExactlyWhenBitsRunOut : Prop :=
  ∀ s tr, s.treeValid = true → s.iptr ≤ s.inLen → WellFormedTree s → s.tree? = some tr →
    ((∃ n vs rest, n < s.symcount.toNat ∧ readSymbols tr n s.payloadBits = some (vs, rest) ∧
        readSymbol tr rest = none) ↔
      ∃ out cur bp n vs rest, exec .bdec s = .next { s with
        outMem := out, cur := cur, bp := bp, errcode := 4, error := true, done := false, outLen := 0
        iptr := 0, bitcount := 0, busy := false, parsing := false } ∧
        n < s.symcount.toNat ∧ readSymbols tr n s.payloadBits = some (vs, rest) ∧
        WroteOut s.outMem out vs)

/-- 44_bitstream R170: the decode state machine, from START, reaches FINISH or the abort with what the loop of
`BitDecode()` computes. -/
def Obligations.DecoderStateMachineAgrees : Prop :=
  ∀ s : State, ∃ k,
    (decoderStep s.node s.root s.symcount.toNat)^[k]
      (.start 0 ⟨s.cur, s.payloadBits, ⟨s.iptr.toNat, 0, 0⟩, [], true⟩) =
    if s.decodeRun.enough then .finish s.decodeRun else .abort s.decodeRun

/-- 44_bitstream R173: the payload BENC emits is decoded by BDEC, with the same tree and SYMCOUNT = IN_LEN, to exactly
the input, every byte of it consumed and the same BITCOUNT reported. -/
def Obligations.PayloadRoundTrip : Prop :=
  ∀ s tr t u, s.codeValid = true → WellFormedTree s → s.tree? = some tr → s.code = codesOf tr →
    (∀ v ∈ s.inputBytes, v ∈ leavesOf tr) → exec .benc s = .next t →
    u.treeValid = true → WellFormedTree u → u.tree? = some tr → u.symcount = s.inLen → u.iptr = 0 →
    u.inputBytes = t.outBytes →
    ∃ v, exec .bdec u = .next v ∧ v.done = true ∧ v.outBytes = s.inputBytes ∧ v.iptr = v.inLen ∧
      v.bitcount = t.bitcount

/-! ## The pipeline -/

/-- 30_encoding R87: ENCODE ends where COUNT, BUILD, DERIVE, TWRITE and BENC in turn end, if the sequence stops at the
first that raises and OUT is not cleared between TWRITE and BENC; DECODE ends where TREAD and BDEC end. -/
def Obligations.MacroCommandsAreTheirComponents : Prop :=
  ∀ s t,
    (exec .encode s = .next t → ∃ s1, exec .count s = .next s1 ∧
      ((s1.error = true ∧ t = s1) ∨
        (s1.error = false ∧ ∃ s2 s3 s4 s5, exec .build s1 = .next s2 ∧ exec .derive s2 = .next s3 ∧
          exec .twrite s3 = .next s4 ∧ exec .benc s4 = .next s5 ∧
          t = { s5 with outMem := t.outMem, outLen := t.outLen } ∧
          t.outBytes = s4.outBytes ++ s5.outBytes))) ∧
    (exec .decode s = .next t → ∃ s1, exec .tread s = .next s1 ∧
      ((s1.error = true ∧ t = s1) ∨ (s1.error = false ∧ exec .bdec s1 = .next t)))

/-- 45_pipeline R181, 30_encoding R88: ENCODE. Its arena is the one BUILD makes of the counts. -/
def Obligations.EncodeEmitsTheStream : Prop :=
  decode .command [0x01] = .ok (.encode, []) ∧ ∀ s,
    (s.inLen ≠ 0 → ∃ f node nleaf root code out inq acc nb tr pay b, exec .encode s = .next { s with
        freq := f, symcount := s.inLen, node := node, nleaf := nleaf
        nnodes := BitVec.ofNat 10 (2 * nleaf.toNat - 1), root := root
        treeValid := true, code := code, codeValid := true, outMem := out, inq := inq, acc := acc
        nb := nb, outLen := BitVec.ofNat 64 (4 + (3 * nleaf.toNat - 1) + pay.length)
        bitcount := BitVec.ofNat 64 (bitsOf tr s.inputBytes).length, iptr := s.inLen
        errcode := 0, done := true, error := false, busy := false } ∧
      (∀ b, (freqAt f b).toNat = s.inputBytes.count b) ∧
      exec .build { s with freq := f } = .next b ∧ b.node = node ∧ b.nleaf = nleaf ∧ b.root = root ∧
      treeAt node maxFrames root.toNat = some tr ∧ (leavesOf tr).Nodup ∧
      (leavesOf tr).length = nleaf.toNat ∧ (∀ v, v ∈ leavesOf tr ↔ v ∈ s.inputBytes) ∧
      code = codesOf tr ∧
      WroteOut s.outMem out (be32 s.inLen ++ serialize tr ++ pay) ∧
      pay.length = ((bitsOf tr s.inputBytes).length + 7) / 8 ∧
      (∃ pad, pay.flatMap byteBits = bitsOf tr s.inputBytes ++ List.replicate pad false) ∧
      (nleaf = 1 → pay = [])) ∧
    (s.inLen = 0 → exec .encode s = .next { s with
        freq := Table.fill Word 256 0, symcount := 0, errcode := 1, error := true, done := false
        outLen := 0, iptr := 0, bitcount := 0, busy := false, parsing := false })

/-- 45_pipeline R183, R188: DECODE of any header that `TreeRead()` accepts, followed by enough payload bits and anything
after them. The tree is numbered in pre-order from entry 0, with every weight 0. -/
def Obligations.DecodeReadsAnyAcceptedStream : Prop :=
  ∀ s cnt tr pay vs rest, s.inputBytes = be32 cnt ++ serialize tr ++ pay → (leavesOf tr).Nodup →
    readSymbols tr cnt.toNat (pay.flatMap byteBits) = some (vs, rest) →
    ∃ node parser out cur bp, exec .decode s = .next { s with
        node := node, parser := parser, symcount := cnt, root := 0
        nnodes := BitVec.ofNat 10 (2 * (leavesOf tr).length - 1)
        nleaf := BitVec.ofNat 9 (leavesOf tr).length, treeValid := true, codeValid := false
        outMem := out, cur := cur, bp := bp, outLen := BitVec.ofNat 64 cnt.toNat
        bitcount := BitVec.ofNat 64 (8 * pay.length - rest.length)
        iptr := BitVec.ofNat 32
          (4 + (3 * (leavesOf tr).length - 1) + (8 * pay.length - rest.length + 7) / 8)
        errcode := 0, done := true, error := false, busy := false, parsing := false } ∧
      vs.length = cnt.toNat ∧ WroteOut s.outMem out vs ∧ treeAt node maxFrames 0 = some tr ∧
      entriesAt node maxFrames 0 = some (List.range (2 * (leavesOf tr).length - 1)) ∧
      ∀ i < 2 * (leavesOf tr).length - 1, (nodeAt node i).weight = 0

/-- 45_pipeline R183, 60_exceptions R196, R198: how DECODE fails: a malformed header is reported before a short payload,
and a short payload leaves the tree and the count of the header. -/
def Obligations.DecodeErrors : Prop :=
  ∀ s,
    ((¬ ∃ cnt tr rest, s.inputBytes = be32 cnt ++ serialize tr ++ rest ∧ (leavesOf tr).Nodup) →
      ∃ t, exec .decode s = .next t ∧ t.errcode = 3 ∧ t.error = true ∧ t.done = false ∧ t.outLen = 0 ∧
        t.iptr = 0 ∧ t.treeValid = false ∧ t.codeValid = false ∧ t.symcount = s.symcount) ∧
    (∀ cnt tr pay, s.inputBytes = be32 cnt ++ serialize tr ++ pay → (leavesOf tr).Nodup →
      readSymbols tr cnt.toNat (pay.flatMap byteBits) = none →
      ∃ t, exec .decode s = .next t ∧ t.errcode = 4 ∧ t.error = true ∧ t.done = false ∧ t.outLen = 0 ∧
        t.iptr = 0 ∧ t.bitcount = 0 ∧ t.treeValid = true ∧ t.codeValid = false ∧ t.symcount = cnt ∧
        t.tree? = some tr)

/-- 45_pipeline R185: the round-trip guarantee. -/
def Obligations.RoundTrip : Prop :=
  ∀ s u, s.inLen ≠ 0 →
    ∃ t, exec .encode s = .next t ∧ t.done = true ∧
      (u.inputBytes = t.outBytes →
        ∃ v, exec .decode u = .next v ∧ v.done = true ∧ v.outBytes = s.inputBytes ∧ v.iptr = v.inLen)

/-- 43_tree_codec R150: a stream of ENCODE cut one byte before the end of its tree section is MalformedTreeError. -/
def Obligations.CutTreeSectionRejected : Prop :=
  ∀ s t u, s.inLen ≠ 0 → exec .encode s = .next t →
    u.inputBytes = t.outBytes.take (4 + (3 * t.nleaf.toNat - 1) - 1) →
    ∃ v w, exec .decode u = .next v ∧ v.errcode = 3 ∧ v.error = true ∧ v.outBytes = [] ∧
      exec .tread u = .next w ∧ w.errcode = 3 ∧ w.error = true

/-- 44_bitstream R172: a stream of ENCODE of an input with two distinct byte values or more, cut anywhere after its
header so that at least its last byte is gone, is TruncatedStreamError. -/
def Obligations.TruncatedPayloadRejected : Prop :=
  ∀ s t u n, 2 ≤ t.nleaf.toNat → s.inLen ≠ 0 → exec .encode s = .next t →
    4 + (3 * t.nleaf.toNat - 1) ≤ n → n < t.outBytes.length → u.inputBytes = t.outBytes.take n →
    ∃ v, exec .decode u = .next v ∧ v.errcode = 4 ∧ v.error = true ∧ v.outBytes = []

/-! ## The host's side -/

/-- 10_state R29, R32: the STATUS word. -/
def Obligations.StatusWordLayout : Prop :=
  ∀ s : State, (s.single = true ↔ s.treeValid = true ∧ s.nleaf = 1) ∧
    s.status.getLsbD 0 = s.busy ∧ s.status.getLsbD 1 = s.done ∧ s.status.getLsbD 2 = s.error ∧
    s.status.getLsbD 3 = s.treeValid ∧ s.status.getLsbD 4 = s.codeValid ∧
    s.status.getLsbD 5 = s.single ∧ ∀ i, 6 ≤ i → s.status.getLsbD i = false

/-- 10_state R40, R54: what a read of each register number gives: the value where it is specified; where it is not, the
tables and their registers while their flag is clear and the arena at and above NNODES, an unspecified one of the
register's width, whose bits are those of the mask. -/
def Obligations.RegisterReads : Prop :=
  ∀ s : State,
    s.readReg 0x000 = .value (s.cmd.setWidth 32) ∧ s.readReg 0x001 = .value s.status ∧
    s.readReg 0x002 = .value (s.errcode.setWidth 32) ∧ s.readReg 0x003 = .value s.inLen ∧
    s.readReg 0x004 = .value s.iptr ∧ s.readReg 0x005 = .value (s.outLen.extractLsb' 0 32) ∧
    s.readReg 0x006 = .value (s.outLen.extractLsb' 32 32) ∧ s.readReg 0x007 = .value s.symcount ∧
    s.readReg 0x008 = .value (s.bitcount.extractLsb' 0 32) ∧
    s.readReg 0x009 = .value (s.bitcount.extractLsb' 32 32) ∧
    (s.treeValid = true → s.readReg 0x00A = .value (s.nleaf.setWidth 32) ∧
      s.readReg 0x00B = .value (s.nnodes.setWidth 32) ∧ s.readReg 0x00C = .value (s.root.setWidth 32)) ∧
    (∀ b : Byte, s.readReg (0x100 + b.toNat) = .value (freqAt s.freq b)) ∧
    (∀ i < s.nnodes.toNat, i < 511 → s.treeValid = true →
      s.readReg (0x400 + 2 * i) = .value (nodeAt s.node i).weight ∧
      ∃ w, s.readReg (0x401 + 2 * i) = .value w ∧
        w.getLsbD 26 = ((nodeAt s.node i).kind == .leaf) ∧ w.extractLsb' 18 8 = (nodeAt s.node i).sym ∧
        w.extractLsb' 9 9 = (nodeAt s.node i).left ∧ w.extractLsb' 0 9 = (nodeAt s.node i).right ∧
        w.extractLsb' 27 5 = 0) ∧
    (∀ b : Byte, s.codeValid = true →
      (∃ w, s.readReg (0x1000 + 16 * b.toNat) = .value w ∧ w.getLsbD 8 = (codeAt s.code b).present ∧
        w.extractLsb' 0 8 = (codeAt s.code b).len ∧ w.extractLsb' 9 23 = 0) ∧
      ∀ j < 8, ∃ w, s.readReg (0x1001 + 16 * b.toNat + j) = .value w ∧
        ∀ m < 32, w.getLsbD (31 - m) = (codeAt s.code b).path.getD (32 * j + m) false) ∧
    (s.treeValid = false → s.readReg 0x00A = .unspecified 0x1FF ∧ s.readReg 0x00B = .unspecified 0x3FF ∧
      s.readReg 0x00C = .unspecified 0x1FF) ∧
    (∀ i < 511, s.treeValid = false ∨ s.nnodes.toNat ≤ i →
      s.readReg (0x400 + 2 * i) = .unspecified 0xFFFFFFFF ∧
      s.readReg (0x401 + 2 * i) = .unspecified 0x07FFFFFF) ∧
    (∀ b : Byte, s.codeValid = false →
      s.readReg (0x1000 + 16 * b.toNat) = .unspecified 0x1FF ∧
      (∀ j < 7, s.readReg (0x1001 + 16 * b.toNat + j) = .unspecified 0xFFFFFFFF) ∧
      s.readReg (0x1008 + 16 * b.toNat) = .unspecified 0xFFFFFFFE) ∧
    (∀ n, (0x00D ≤ n ∧ n ≤ 0x0FF) ∨ (0x200 ≤ n ∧ n ≤ 0x3FF) ∨ (0x7FE ≤ n ∧ n ≤ 0xFFF) ∨
        (0x1000 ≤ n ∧ n ≤ 0x1FFF ∧ 9 ≤ n % 16) → s.readReg n = .value 0)

/-- 10_state R40, R54: a read of an idle block's register changes only what the host has read; an unspecified read
gives any bits within the width of the register, and the next one may differ. -/
def Obligations.HostReadDeliversTheWord : Prop :=
  ∀ s rest num, s.busy = false → s.host = .readReg num :: rest →
    (∀ w, s.readReg num.toNat = .value w → step s = .next { s with host := rest, rdata := w }) ∧
    (∀ m, s.readReg num.toNat = .unspecified m →
      step s = .next { s with
        host := rest, rdata := Config.freeWord s.freeIdx &&& m, freeIdx := s.freeIdx + 1 })

/-- 10_state R40: a write of an idle block's register other than CMD: IN_LEN, IPTR and SYMCOUNT take the word, every
other number ignores it. -/
def Obligations.HostWritesTakeOrAreIgnored : Prop :=
  ∀ s rest num w, s.busy = false → s.host = .writeReg num w :: rest → num ≠ 0x000 →
    (num = 0x003 → step s = .next { s with host := rest, inLen := w }) ∧
    (num = 0x004 → step s = .next { s with host := rest, iptr := w }) ∧
    (num = 0x007 → step s = .next { s with host := rest, symcount := w }) ∧
    (num ≠ 0x003 → num ≠ 0x004 → num ≠ 0x007 → step s = .next { s with host := rest })

/-- 20_memory R61, R74: a host write of one byte of IN: that byte, and no other, is what a read then gives, a read by a
command or by the host (`readIn`). An address
that IN does not have is refused, which is the model's choice (log 7). -/
def Obligations.HostWriteInStoresOneByte : Prop :=
  ∀ s rest a v, s.busy = false → s.host = .writeIn a v :: rest →
    (a.toNat < Config.inCap → ∃ m, step s = .next { s with host := rest, inMem := m } ∧
      (∀ b, m.load b = if b = a.toNat then some v else s.inMem.load b) ∧
      (∀ b, ({ s with host := rest, inMem := m } : State).readIn b = if b = a.toNat then v else s.readIn b) ∧
      (s.inMem.wf → m.wf)) ∧
    (Config.inCap ≤ a.toNat → step s = .refused .inAddressBeyondCapacity)

/-- 20_memory R61, R65, R72, 10_state R54: a host read of one byte of IN or OUT: below the length the byte that stands
there, which is the one written last if one was, the same that `inputBytes` and `outBytes` list; any byte at or above
it; nothing but what the host has read changes. That a read at an address IN does not have is refused is the model's
choice (log 7). -/
def Obligations.HostReadsOfBuffers : Prop :=
  ∀ s rest, s.busy = false →
    (∀ a, s.host = .readIn a :: rest → a.toNat < Config.inCap →
      (a.toNat < s.inLen.toNat → step s = .next { s with
          host := rest, rdata := (s.readIn a.toNat).setWidth 32 } ∧
        s.inputBytes[a.toNat]? = some (s.readIn a.toNat) ∧
        ∀ v, s.inMem.load a.toNat = some v → s.readIn a.toNat = v) ∧
      (s.inLen.toNat ≤ a.toNat → step s = .next { s with
        host := rest, rdata := (Config.freeInByte s.freeIdx a.toNat).setWidth 32
        freeIdx := s.freeIdx + 1 })) ∧
    (∀ a, s.host = .readIn a :: rest → Config.inCap ≤ a.toNat →
      step s = .refused .inAddressBeyondCapacity) ∧
    (∀ a, s.host = .readOut a :: rest →
      (a.toNat < s.outLen.toNat → step s = .next { s with
          host := rest, rdata := (s.readOut a.toNat).setWidth 32 } ∧
        s.outBytes[a.toNat]? = some (s.readOut a.toNat) ∧
        ∀ v, s.outMem.load a.toNat = some v → s.readOut a.toNat = v) ∧
      (s.outLen.toNat ≤ a.toNat → step s = .next { s with
        host := rest, rdata := (Config.freeOutByte s.freeIdx a.toNat).setWidth 32
        freeIdx := s.freeIdx + 1 }))

/-- 70_reset_and_hazards R230, 20_memory R74: while BUSY = 1 every access but a read of STATUS is refused; a read of
STATUS shows BUSY = 1 and changes only what the host has read. That it shows DONE and ERROR as they stand and 0 above
bit 5, after 10_state R32, is the model's choice (log 13): 70_reset_and_hazards R245 leaves open what STATUS reads
during a command other than BUSY = 1. That the engine makes no progress at such a read is the model's choice too
(log 25): R240 gives no timing. -/
def Obligations.HostAccessWhileBusy : Prop :=
  ∀ s m rest, s.busy = true → s.host = m :: rest →
    (m ≠ .waitIdle → m ≠ .reset → m ≠ .readReg 0x001 → step s = .refused .hostAccessWhileBusy) ∧
    (m = .readReg 0x001 → ∃ w, step s = .next { s with
        host := rest, rdata := w, freeIdx := s.freeIdx + 1 } ∧
      w.getLsbD 0 = true ∧ w.getLsbD 1 = s.done ∧ w.getLsbD 2 = s.error ∧ w.extractLsb' 6 26 = 0)

/-- 60_exceptions R215: the idle engine waits and loses no state. -/
def Obligations.IdleEngineKeepsItsState : Prop :=
  ∀ s, s.busy = false → (s.host = [] → step s = .next s) ∧
    ∀ rest, s.host = .waitIdle :: rest → step s = .next { s with host := rest }

/-! ## The invariant -/

/-- The invariant holds after reset. -/
def Obligations.InvariantHoldsAtReset : Prop := Machine.Inv State.reset

/-- Every step keeps the invariant: canonical buffers, legal flags and error code, and, where the flags say so, a
well-formed tree and its code map. -/
def Obligations.StepKeepsInvariant : Prop :=
  ∀ s t, Machine.Inv s → step s = .next t → Machine.Inv t

/-- 60_exceptions R199: nothing leaves the block stuck. From a state of the invariant no step faults, and a step is
refused only for what the host does. -/
def Obligations.NoStepFaults : Prop :=
  ∀ s, Machine.Inv s → (∀ f, step s ≠ .fault f) ∧ (s.host = [] → ∃ t, step s = .next t) ∧
    ∀ i, i.space = .command → ∃ t, exec i s = .next t
end

