-- ==== Sys2Proof/Laws/Decode.lean ====
section
/-! SUPPORT. Decoding and encoding: the laws the codec proofs cite. -/

namespace Sys2Proof

theorem leafMark_ne_intMark : leafMark ≠ intMark := by decide

theorem decodeRecord_leaf (v : Byte) (bs : List Byte) :
    decodeRecord (leafMark :: v :: bs) = .ok (.recLeaf v, bs) := rfl

theorem decodeRecord_internal (bs : List Byte) : decodeRecord (intMark :: bs) = .ok (.recInternal, bs) := rfl

/-- What `decodeRecord` accepts: a record and nothing else. -/
theorem decodeRecord_ok {bs bs' : List Byte} {i : Instr} (h : decodeRecord bs = .ok (i, bs')) :
    bs = encode i ++ bs' ∧ i.space = .stream := by
  unfold decodeRecord at h
  split at h
  · cases h
  · next m bs =>
    split at h
    · next hm =>
      subst hm
      split at h
      · cases h
      · cases h; exact ⟨rfl, rfl⟩
    · split at h
      · next hm => subst hm; cases h; exact ⟨rfl, rfl⟩
      · cases h

/-- A record's bytes decode to it, whatever follows. -/
theorem decodeRecord_encode {i : Instr} (h : i.space = .stream) (bs : List Byte) :
    decodeRecord (encode i ++ bs) = .ok (i, bs) := by
  cases i <;> first | rfl | cases h

/-- What `decodeCommand` accepts: a command's code. -/
theorem decodeCommand_ok {c : Byte} {i : Instr} (h : decodeCommand c = .ok i) :
    [c] = encode i ∧ i.space = .command := by
  have hc : c = BitVec.ofNat 8 c.toNat := by simp
  unfold decodeCommand at h
  split at h <;> first | (rename_i e; cases h; rw [hc, e]; exact ⟨rfl, rfl⟩) | cases h

theorem encode_length_pos (i : Instr) : 0 < (encode i).length := by cases i <;> simp [encode]

theorem be32_length (v : Word) : (be32 v).length = 4 := rfl

theorem split_bytes (n : Nat) (h : n < 2 ^ 32) :
    (n / 2 ^ 24 % 2 ^ 8 * 2 ^ 24 + n / 2 ^ 16 % 2 ^ 8 * 2 ^ 16 + n / 2 ^ 8 % 2 ^ 8 * 2 ^ 8 +
      n / 2 ^ 0 % 2 ^ 8) % 2 ^ 32 = n := by
  norm_num at h ⊢
  omega

theorem join_bytes (a b c d : Nat) (ha : a < 2 ^ 8) (hb : b < 2 ^ 8) (hc : c < 2 ^ 8) (hd : d < 2 ^ 8) :
    let n := (a * 2 ^ 24 + b * 2 ^ 16 + c * 2 ^ 8 + d) % 2 ^ 32
    n / 2 ^ 24 % 2 ^ 8 = a ∧ n / 2 ^ 16 % 2 ^ 8 = b ∧ n / 2 ^ 8 % 2 ^ 8 = c ∧ n / 2 ^ 0 % 2 ^ 8 = d := by
  norm_num at *
  omega

/-- The count field reads back as it was written (20_memory R67, 30_encoding R89). -/
theorem unBE32_be32 (v : Word) :
    unBE32 (v.extractLsb' 24 8) (v.extractLsb' 16 8) (v.extractLsb' 8 8) (v.extractLsb' 0 8) = v := by
  apply BitVec.eq_of_toNat_eq
  rw [unBE32, BitVec.toNat_ofNat]
  simp only [BitVec.extractLsb'_toNat, Nat.shiftRight_eq_div_pow]
  exact split_bytes _ v.isLt

theorem be32_unBE32 (b0 b1 b2 b3 : Byte) : be32 (unBE32 b0 b1 b2 b3) = [b0, b1, b2, b3] := by
  obtain ⟨h0, h1, h2, h3⟩ := join_bytes _ _ _ _ b0.isLt b1.isLt b2.isLt b3.isLt
  simp only [be32, List.cons.injEq, and_true]
  refine ⟨?_, ?_, ?_, ?_⟩ <;> apply BitVec.eq_of_toNat_eq <;>
    rw [BitVec.extractLsb'_toNat, Nat.shiftRight_eq_div_pow, unBE32, BitVec.toNat_ofNat] <;> assumption

end Sys2Proof
end

