-- ==== Sys2Proof/Laws/State.lean ====
section
/-! SUPPORT. One lemma per field per named update of State, true by rfl, so that no later proof unfolds a record
update. -/

namespace Sys2Proof.Machine

variable (s : State)

/-! ## prologue -/

@[simp] theorem prologue_freq : (prologue s).freq = s.freq := rfl
@[simp] theorem prologue_node : (prologue s).node = s.node := rfl
@[simp] theorem prologue_code : (prologue s).code = s.code := rfl
@[simp] theorem prologue_cmd : (prologue s).cmd = s.cmd := rfl
@[simp] theorem prologue_busy : (prologue s).busy = true := rfl
@[simp] theorem prologue_done : (prologue s).done = false := rfl
@[simp] theorem prologue_error : (prologue s).error = false := rfl
@[simp] theorem prologue_treeValid : (prologue s).treeValid = s.treeValid := rfl
@[simp] theorem prologue_codeValid : (prologue s).codeValid = s.codeValid := rfl
@[simp] theorem prologue_errcode : (prologue s).errcode = s.errcode := rfl
@[simp] theorem prologue_inLen : (prologue s).inLen = s.inLen := rfl
@[simp] theorem prologue_iptr : (prologue s).iptr = s.iptr := rfl
@[simp] theorem prologue_outLen : (prologue s).outLen = 0 := rfl
@[simp] theorem prologue_symcount : (prologue s).symcount = s.symcount := rfl
@[simp] theorem prologue_bitcount : (prologue s).bitcount = s.bitcount := rfl
@[simp] theorem prologue_nleaf : (prologue s).nleaf = s.nleaf := rfl
@[simp] theorem prologue_nnodes : (prologue s).nnodes = s.nnodes := rfl
@[simp] theorem prologue_root : (prologue s).root = s.root := rfl
@[simp] theorem prologue_inMem : (prologue s).inMem = s.inMem := rfl
@[simp] theorem prologue_outMem : (prologue s).outMem = s.outMem := rfl
@[simp] theorem prologue_inq : (prologue s).inq = s.inq := rfl
@[simp] theorem prologue_acc : (prologue s).acc = s.acc := rfl
@[simp] theorem prologue_nb : (prologue s).nb = s.nb := rfl
@[simp] theorem prologue_bp : (prologue s).bp = s.bp := rfl
@[simp] theorem prologue_cur : (prologue s).cur = s.cur := rfl
@[simp] theorem prologue_parser : (prologue s).parser = s.parser := rfl
@[simp] theorem prologue_parsing : (prologue s).parsing = s.parsing := rfl
@[simp] theorem prologue_host : (prologue s).host = s.host := rfl
@[simp] theorem prologue_rdata : (prologue s).rdata = s.rdata := rfl
@[simp] theorem prologue_freeIdx : (prologue s).freeIdx = s.freeIdx := rfl

/-! ## epilogue -/

@[simp] theorem epilogue_freq : (epilogue s).freq = s.freq := rfl
@[simp] theorem epilogue_node : (epilogue s).node = s.node := rfl
@[simp] theorem epilogue_code : (epilogue s).code = s.code := rfl
@[simp] theorem epilogue_cmd : (epilogue s).cmd = s.cmd := rfl
@[simp] theorem epilogue_busy : (epilogue s).busy = false := rfl
@[simp] theorem epilogue_done : (epilogue s).done = true := rfl
@[simp] theorem epilogue_error : (epilogue s).error = s.error := rfl
@[simp] theorem epilogue_treeValid : (epilogue s).treeValid = s.treeValid := rfl
@[simp] theorem epilogue_codeValid : (epilogue s).codeValid = s.codeValid := rfl
@[simp] theorem epilogue_errcode : (epilogue s).errcode = 0 := rfl
@[simp] theorem epilogue_inLen : (epilogue s).inLen = s.inLen := rfl
@[simp] theorem epilogue_iptr : (epilogue s).iptr = s.iptr := rfl
@[simp] theorem epilogue_outLen : (epilogue s).outLen = s.outLen := rfl
@[simp] theorem epilogue_symcount : (epilogue s).symcount = s.symcount := rfl
@[simp] theorem epilogue_bitcount : (epilogue s).bitcount = s.bitcount := rfl
@[simp] theorem epilogue_nleaf : (epilogue s).nleaf = s.nleaf := rfl
@[simp] theorem epilogue_nnodes : (epilogue s).nnodes = s.nnodes := rfl
@[simp] theorem epilogue_root : (epilogue s).root = s.root := rfl
@[simp] theorem epilogue_inMem : (epilogue s).inMem = s.inMem := rfl
@[simp] theorem epilogue_outMem : (epilogue s).outMem = s.outMem := rfl
@[simp] theorem epilogue_inq : (epilogue s).inq = s.inq := rfl
@[simp] theorem epilogue_acc : (epilogue s).acc = s.acc := rfl
@[simp] theorem epilogue_nb : (epilogue s).nb = s.nb := rfl
@[simp] theorem epilogue_bp : (epilogue s).bp = s.bp := rfl
@[simp] theorem epilogue_cur : (epilogue s).cur = s.cur := rfl
@[simp] theorem epilogue_parser : (epilogue s).parser = s.parser := rfl
@[simp] theorem epilogue_parsing : (epilogue s).parsing = s.parsing := rfl
@[simp] theorem epilogue_host : (epilogue s).host = s.host := rfl
@[simp] theorem epilogue_rdata : (epilogue s).rdata = s.rdata := rfl
@[simp] theorem epilogue_freeIdx : (epilogue s).freeIdx = s.freeIdx := rfl

/-! ## raise -/

@[simp] theorem raise_freq (e : ErrorKind) : (raise e s).freq = s.freq := rfl
@[simp] theorem raise_node (e : ErrorKind) : (raise e s).node = s.node := rfl
@[simp] theorem raise_code (e : ErrorKind) : (raise e s).code = s.code := rfl
@[simp] theorem raise_cmd (e : ErrorKind) : (raise e s).cmd = s.cmd := rfl
@[simp] theorem raise_busy (e : ErrorKind) : (raise e s).busy = false := rfl
@[simp] theorem raise_done (e : ErrorKind) : (raise e s).done = false := rfl
@[simp] theorem raise_error (e : ErrorKind) : (raise e s).error = true := rfl
@[simp] theorem raise_treeValid (e : ErrorKind) : (raise e s).treeValid = s.treeValid := rfl
@[simp] theorem raise_codeValid (e : ErrorKind) : (raise e s).codeValid = s.codeValid := rfl
@[simp] theorem raise_errcode (e : ErrorKind) : (raise e s).errcode = e.code := rfl
@[simp] theorem raise_inLen (e : ErrorKind) : (raise e s).inLen = s.inLen := rfl
@[simp] theorem raise_iptr (e : ErrorKind) : (raise e s).iptr = 0 := rfl
@[simp] theorem raise_outLen (e : ErrorKind) : (raise e s).outLen = 0 := rfl
@[simp] theorem raise_symcount (e : ErrorKind) : (raise e s).symcount = s.symcount := rfl
@[simp] theorem raise_bitcount (e : ErrorKind) : (raise e s).bitcount = 0 := rfl
@[simp] theorem raise_nleaf (e : ErrorKind) : (raise e s).nleaf = s.nleaf := rfl
@[simp] theorem raise_nnodes (e : ErrorKind) : (raise e s).nnodes = s.nnodes := rfl
@[simp] theorem raise_root (e : ErrorKind) : (raise e s).root = s.root := rfl
@[simp] theorem raise_inMem (e : ErrorKind) : (raise e s).inMem = s.inMem := rfl
@[simp] theorem raise_outMem (e : ErrorKind) : (raise e s).outMem = s.outMem := rfl
@[simp] theorem raise_inq (e : ErrorKind) : (raise e s).inq = s.inq := rfl
@[simp] theorem raise_acc (e : ErrorKind) : (raise e s).acc = s.acc := rfl
@[simp] theorem raise_nb (e : ErrorKind) : (raise e s).nb = s.nb := rfl
@[simp] theorem raise_bp (e : ErrorKind) : (raise e s).bp = s.bp := rfl
@[simp] theorem raise_cur (e : ErrorKind) : (raise e s).cur = s.cur := rfl
@[simp] theorem raise_parser (e : ErrorKind) : (raise e s).parser = s.parser := rfl
@[simp] theorem raise_parsing (e : ErrorKind) : (raise e s).parsing = false := rfl
@[simp] theorem raise_host (e : ErrorKind) : (raise e s).host = s.host := rfl
@[simp] theorem raise_rdata (e : ErrorKind) : (raise e s).rdata = s.rdata := rfl
@[simp] theorem raise_freeIdx (e : ErrorKind) : (raise e s).freeIdx = s.freeIdx := rfl

/-! ## emit -/

@[simp] theorem emit_freq (v : Byte) : (emit s v).freq = s.freq := rfl
@[simp] theorem emit_node (v : Byte) : (emit s v).node = s.node := rfl
@[simp] theorem emit_code (v : Byte) : (emit s v).code = s.code := rfl
@[simp] theorem emit_cmd (v : Byte) : (emit s v).cmd = s.cmd := rfl
@[simp] theorem emit_busy (v : Byte) : (emit s v).busy = s.busy := rfl
@[simp] theorem emit_done (v : Byte) : (emit s v).done = s.done := rfl
@[simp] theorem emit_error (v : Byte) : (emit s v).error = s.error := rfl
@[simp] theorem emit_treeValid (v : Byte) : (emit s v).treeValid = s.treeValid := rfl
@[simp] theorem emit_codeValid (v : Byte) : (emit s v).codeValid = s.codeValid := rfl
@[simp] theorem emit_errcode (v : Byte) : (emit s v).errcode = s.errcode := rfl
@[simp] theorem emit_inLen (v : Byte) : (emit s v).inLen = s.inLen := rfl
@[simp] theorem emit_iptr (v : Byte) : (emit s v).iptr = s.iptr := rfl
@[simp] theorem emit_outLen (v : Byte) : (emit s v).outLen = s.outLen + 1 := rfl
@[simp] theorem emit_symcount (v : Byte) : (emit s v).symcount = s.symcount := rfl
@[simp] theorem emit_bitcount (v : Byte) : (emit s v).bitcount = s.bitcount := rfl
@[simp] theorem emit_nleaf (v : Byte) : (emit s v).nleaf = s.nleaf := rfl
@[simp] theorem emit_nnodes (v : Byte) : (emit s v).nnodes = s.nnodes := rfl
@[simp] theorem emit_root (v : Byte) : (emit s v).root = s.root := rfl
@[simp] theorem emit_inMem (v : Byte) : (emit s v).inMem = s.inMem := rfl
@[simp] theorem emit_outMem (v : Byte) : (emit s v).outMem = s.outMem.store s.outLen.toNat v := rfl
@[simp] theorem emit_inq (v : Byte) : (emit s v).inq = s.inq := rfl
@[simp] theorem emit_acc (v : Byte) : (emit s v).acc = s.acc := rfl
@[simp] theorem emit_nb (v : Byte) : (emit s v).nb = s.nb := rfl
@[simp] theorem emit_bp (v : Byte) : (emit s v).bp = s.bp := rfl
@[simp] theorem emit_cur (v : Byte) : (emit s v).cur = s.cur := rfl
@[simp] theorem emit_parser (v : Byte) : (emit s v).parser = s.parser := rfl
@[simp] theorem emit_parsing (v : Byte) : (emit s v).parsing = s.parsing := rfl
@[simp] theorem emit_host (v : Byte) : (emit s v).host = s.host := rfl
@[simp] theorem emit_rdata (v : Byte) : (emit s v).rdata = s.rdata := rfl
@[simp] theorem emit_freeIdx (v : Byte) : (emit s v).freeIdx = s.freeIdx := rfl

/-! ## gotWord -/

@[simp] theorem gotWord_freq (w : Word) : (s.gotWord w).freq = s.freq := rfl
@[simp] theorem gotWord_node (w : Word) : (s.gotWord w).node = s.node := rfl
@[simp] theorem gotWord_code (w : Word) : (s.gotWord w).code = s.code := rfl
@[simp] theorem gotWord_cmd (w : Word) : (s.gotWord w).cmd = s.cmd := rfl
@[simp] theorem gotWord_busy (w : Word) : (s.gotWord w).busy = s.busy := rfl
@[simp] theorem gotWord_done (w : Word) : (s.gotWord w).done = s.done := rfl
@[simp] theorem gotWord_error (w : Word) : (s.gotWord w).error = s.error := rfl
@[simp] theorem gotWord_treeValid (w : Word) : (s.gotWord w).treeValid = s.treeValid := rfl
@[simp] theorem gotWord_codeValid (w : Word) : (s.gotWord w).codeValid = s.codeValid := rfl
@[simp] theorem gotWord_errcode (w : Word) : (s.gotWord w).errcode = s.errcode := rfl
@[simp] theorem gotWord_inLen (w : Word) : (s.gotWord w).inLen = s.inLen := rfl
@[simp] theorem gotWord_iptr (w : Word) : (s.gotWord w).iptr = s.iptr := rfl
@[simp] theorem gotWord_outLen (w : Word) : (s.gotWord w).outLen = s.outLen := rfl
@[simp] theorem gotWord_symcount (w : Word) : (s.gotWord w).symcount = s.symcount := rfl
@[simp] theorem gotWord_bitcount (w : Word) : (s.gotWord w).bitcount = s.bitcount := rfl
@[simp] theorem gotWord_nleaf (w : Word) : (s.gotWord w).nleaf = s.nleaf := rfl
@[simp] theorem gotWord_nnodes (w : Word) : (s.gotWord w).nnodes = s.nnodes := rfl
@[simp] theorem gotWord_root (w : Word) : (s.gotWord w).root = s.root := rfl
@[simp] theorem gotWord_inMem (w : Word) : (s.gotWord w).inMem = s.inMem := rfl
@[simp] theorem gotWord_outMem (w : Word) : (s.gotWord w).outMem = s.outMem := rfl
@[simp] theorem gotWord_inq (w : Word) : (s.gotWord w).inq = s.inq := rfl
@[simp] theorem gotWord_acc (w : Word) : (s.gotWord w).acc = s.acc := rfl
@[simp] theorem gotWord_nb (w : Word) : (s.gotWord w).nb = s.nb := rfl
@[simp] theorem gotWord_bp (w : Word) : (s.gotWord w).bp = s.bp := rfl
@[simp] theorem gotWord_cur (w : Word) : (s.gotWord w).cur = s.cur := rfl
@[simp] theorem gotWord_parser (w : Word) : (s.gotWord w).parser = s.parser := rfl
@[simp] theorem gotWord_parsing (w : Word) : (s.gotWord w).parsing = s.parsing := rfl
@[simp] theorem gotWord_host (w : Word) : (s.gotWord w).host = s.host := rfl
@[simp] theorem gotWord_rdata (w : Word) : (s.gotWord w).rdata = w := rfl
@[simp] theorem gotWord_freeIdx (w : Word) : (s.gotWord w).freeIdx = s.freeIdx := rfl

/-! ## gotFree -/

@[simp] theorem gotFree_freq (mask : Word) : (s.gotFree mask).freq = s.freq := rfl
@[simp] theorem gotFree_node (mask : Word) : (s.gotFree mask).node = s.node := rfl
@[simp] theorem gotFree_code (mask : Word) : (s.gotFree mask).code = s.code := rfl
@[simp] theorem gotFree_cmd (mask : Word) : (s.gotFree mask).cmd = s.cmd := rfl
@[simp] theorem gotFree_busy (mask : Word) : (s.gotFree mask).busy = s.busy := rfl
@[simp] theorem gotFree_done (mask : Word) : (s.gotFree mask).done = s.done := rfl
@[simp] theorem gotFree_error (mask : Word) : (s.gotFree mask).error = s.error := rfl
@[simp] theorem gotFree_treeValid (mask : Word) : (s.gotFree mask).treeValid = s.treeValid := rfl
@[simp] theorem gotFree_codeValid (mask : Word) : (s.gotFree mask).codeValid = s.codeValid := rfl
@[simp] theorem gotFree_errcode (mask : Word) : (s.gotFree mask).errcode = s.errcode := rfl
@[simp] theorem gotFree_inLen (mask : Word) : (s.gotFree mask).inLen = s.inLen := rfl
@[simp] theorem gotFree_iptr (mask : Word) : (s.gotFree mask).iptr = s.iptr := rfl
@[simp] theorem gotFree_outLen (mask : Word) : (s.gotFree mask).outLen = s.outLen := rfl
@[simp] theorem gotFree_symcount (mask : Word) : (s.gotFree mask).symcount = s.symcount := rfl
@[simp] theorem gotFree_bitcount (mask : Word) : (s.gotFree mask).bitcount = s.bitcount := rfl
@[simp] theorem gotFree_nleaf (mask : Word) : (s.gotFree mask).nleaf = s.nleaf := rfl
@[simp] theorem gotFree_nnodes (mask : Word) : (s.gotFree mask).nnodes = s.nnodes := rfl
@[simp] theorem gotFree_root (mask : Word) : (s.gotFree mask).root = s.root := rfl
@[simp] theorem gotFree_inMem (mask : Word) : (s.gotFree mask).inMem = s.inMem := rfl
@[simp] theorem gotFree_outMem (mask : Word) : (s.gotFree mask).outMem = s.outMem := rfl
@[simp] theorem gotFree_inq (mask : Word) : (s.gotFree mask).inq = s.inq := rfl
@[simp] theorem gotFree_acc (mask : Word) : (s.gotFree mask).acc = s.acc := rfl
@[simp] theorem gotFree_nb (mask : Word) : (s.gotFree mask).nb = s.nb := rfl
@[simp] theorem gotFree_bp (mask : Word) : (s.gotFree mask).bp = s.bp := rfl
@[simp] theorem gotFree_cur (mask : Word) : (s.gotFree mask).cur = s.cur := rfl
@[simp] theorem gotFree_parser (mask : Word) : (s.gotFree mask).parser = s.parser := rfl
@[simp] theorem gotFree_parsing (mask : Word) : (s.gotFree mask).parsing = s.parsing := rfl
@[simp] theorem gotFree_host (mask : Word) : (s.gotFree mask).host = s.host := rfl
@[simp] theorem gotFree_rdata (mask : Word) : (s.gotFree mask).rdata = Config.freeWord s.freeIdx &&& mask := rfl
@[simp] theorem gotFree_freeIdx (mask : Word) : (s.gotFree mask).freeIdx = s.freeIdx + 1 := rfl

/-! ## commitHeader -/

@[simp] theorem commitHeader_freq (node : NodeTable) (h : HeaderParse) (r : Nat) : (commitHeader node h r s).freq = s.freq := rfl
@[simp] theorem commitHeader_node (node : NodeTable) (h : HeaderParse) (r : Nat) : (commitHeader node h r s).node = node := rfl
@[simp] theorem commitHeader_code (node : NodeTable) (h : HeaderParse) (r : Nat) : (commitHeader node h r s).code = s.code := rfl
@[simp] theorem commitHeader_cmd (node : NodeTable) (h : HeaderParse) (r : Nat) : (commitHeader node h r s).cmd = s.cmd := rfl
@[simp] theorem commitHeader_busy (node : NodeTable) (h : HeaderParse) (r : Nat) : (commitHeader node h r s).busy = s.busy := rfl
@[simp] theorem commitHeader_done (node : NodeTable) (h : HeaderParse) (r : Nat) : (commitHeader node h r s).done = s.done := rfl
@[simp] theorem commitHeader_error (node : NodeTable) (h : HeaderParse) (r : Nat) : (commitHeader node h r s).error = s.error := rfl
@[simp] theorem commitHeader_treeValid (node : NodeTable) (h : HeaderParse) (r : Nat) : (commitHeader node h r s).treeValid = true := rfl
@[simp] theorem commitHeader_codeValid (node : NodeTable) (h : HeaderParse) (r : Nat) : (commitHeader node h r s).codeValid = s.codeValid := rfl
@[simp] theorem commitHeader_errcode (node : NodeTable) (h : HeaderParse) (r : Nat) : (commitHeader node h r s).errcode = s.errcode := rfl
@[simp] theorem commitHeader_inLen (node : NodeTable) (h : HeaderParse) (r : Nat) : (commitHeader node h r s).inLen = s.inLen := rfl
@[simp] theorem commitHeader_iptr (node : NodeTable) (h : HeaderParse) (r : Nat) : (commitHeader node h r s).iptr = BitVec.ofNat 32 h.p := rfl
@[simp] theorem commitHeader_outLen (node : NodeTable) (h : HeaderParse) (r : Nat) : (commitHeader node h r s).outLen = s.outLen := rfl
@[simp] theorem commitHeader_symcount (node : NodeTable) (h : HeaderParse) (r : Nat) : (commitHeader node h r s).symcount = h.cnt := rfl
@[simp] theorem commitHeader_bitcount (node : NodeTable) (h : HeaderParse) (r : Nat) : (commitHeader node h r s).bitcount = s.bitcount := rfl
@[simp] theorem commitHeader_nleaf (node : NodeTable) (h : HeaderParse) (r : Nat) : (commitHeader node h r s).nleaf = BitVec.ofNat 9 h.nl := rfl
@[simp] theorem commitHeader_nnodes (node : NodeTable) (h : HeaderParse) (r : Nat) : (commitHeader node h r s).nnodes = BitVec.ofNat 10 h.nn := rfl
@[simp] theorem commitHeader_root (node : NodeTable) (h : HeaderParse) (r : Nat) : (commitHeader node h r s).root = BitVec.ofNat 9 r := rfl
@[simp] theorem commitHeader_inMem (node : NodeTable) (h : HeaderParse) (r : Nat) : (commitHeader node h r s).inMem = s.inMem := rfl
@[simp] theorem commitHeader_outMem (node : NodeTable) (h : HeaderParse) (r : Nat) : (commitHeader node h r s).outMem = s.outMem := rfl
@[simp] theorem commitHeader_inq (node : NodeTable) (h : HeaderParse) (r : Nat) : (commitHeader node h r s).inq = s.inq := rfl
@[simp] theorem commitHeader_acc (node : NodeTable) (h : HeaderParse) (r : Nat) : (commitHeader node h r s).acc = s.acc := rfl
@[simp] theorem commitHeader_nb (node : NodeTable) (h : HeaderParse) (r : Nat) : (commitHeader node h r s).nb = s.nb := rfl
@[simp] theorem commitHeader_bp (node : NodeTable) (h : HeaderParse) (r : Nat) : (commitHeader node h r s).bp = s.bp := rfl
@[simp] theorem commitHeader_cur (node : NodeTable) (h : HeaderParse) (r : Nat) : (commitHeader node h r s).cur = s.cur := rfl
@[simp] theorem commitHeader_parser (node : NodeTable) (h : HeaderParse) (r : Nat) : (commitHeader node h r s).parser = h := rfl
@[simp] theorem commitHeader_parsing (node : NodeTable) (h : HeaderParse) (r : Nat) : (commitHeader node h r s).parsing = false := rfl
@[simp] theorem commitHeader_host (node : NodeTable) (h : HeaderParse) (r : Nat) : (commitHeader node h r s).host = s.host := rfl
@[simp] theorem commitHeader_rdata (node : NodeTable) (h : HeaderParse) (r : Nat) : (commitHeader node h r s).rdata = s.rdata := rfl
@[simp] theorem commitHeader_freeIdx (node : NodeTable) (h : HeaderParse) (r : Nat) : (commitHeader node h r s).freeIdx = s.freeIdx := rfl

/-! ## emitAll -/

@[simp] theorem emitAll_freq (vs : List Byte) : (emitAll s vs).freq = s.freq := by
  induction vs generalizing s with
  | nil => rfl
  | cons v vs ih => exact ih (emit s v)

@[simp] theorem emitAll_node (vs : List Byte) : (emitAll s vs).node = s.node := by
  induction vs generalizing s with
  | nil => rfl
  | cons v vs ih => exact ih (emit s v)

@[simp] theorem emitAll_code (vs : List Byte) : (emitAll s vs).code = s.code := by
  induction vs generalizing s with
  | nil => rfl
  | cons v vs ih => exact ih (emit s v)

@[simp] theorem emitAll_cmd (vs : List Byte) : (emitAll s vs).cmd = s.cmd := by
  induction vs generalizing s with
  | nil => rfl
  | cons v vs ih => exact ih (emit s v)

@[simp] theorem emitAll_busy (vs : List Byte) : (emitAll s vs).busy = s.busy := by
  induction vs generalizing s with
  | nil => rfl
  | cons v vs ih => exact ih (emit s v)

@[simp] theorem emitAll_done (vs : List Byte) : (emitAll s vs).done = s.done := by
  induction vs generalizing s with
  | nil => rfl
  | cons v vs ih => exact ih (emit s v)

@[simp] theorem emitAll_error (vs : List Byte) : (emitAll s vs).error = s.error := by
  induction vs generalizing s with
  | nil => rfl
  | cons v vs ih => exact ih (emit s v)

@[simp] theorem emitAll_treeValid (vs : List Byte) : (emitAll s vs).treeValid = s.treeValid := by
  induction vs generalizing s with
  | nil => rfl
  | cons v vs ih => exact ih (emit s v)

@[simp] theorem emitAll_codeValid (vs : List Byte) : (emitAll s vs).codeValid = s.codeValid := by
  induction vs generalizing s with
  | nil => rfl
  | cons v vs ih => exact ih (emit s v)

@[simp] theorem emitAll_errcode (vs : List Byte) : (emitAll s vs).errcode = s.errcode := by
  induction vs generalizing s with
  | nil => rfl
  | cons v vs ih => exact ih (emit s v)

@[simp] theorem emitAll_inLen (vs : List Byte) : (emitAll s vs).inLen = s.inLen := by
  induction vs generalizing s with
  | nil => rfl
  | cons v vs ih => exact ih (emit s v)

@[simp] theorem emitAll_iptr (vs : List Byte) : (emitAll s vs).iptr = s.iptr := by
  induction vs generalizing s with
  | nil => rfl
  | cons v vs ih => exact ih (emit s v)

@[simp] theorem emitAll_symcount (vs : List Byte) : (emitAll s vs).symcount = s.symcount := by
  induction vs generalizing s with
  | nil => rfl
  | cons v vs ih => exact ih (emit s v)

@[simp] theorem emitAll_bitcount (vs : List Byte) : (emitAll s vs).bitcount = s.bitcount := by
  induction vs generalizing s with
  | nil => rfl
  | cons v vs ih => exact ih (emit s v)

@[simp] theorem emitAll_nleaf (vs : List Byte) : (emitAll s vs).nleaf = s.nleaf := by
  induction vs generalizing s with
  | nil => rfl
  | cons v vs ih => exact ih (emit s v)

@[simp] theorem emitAll_nnodes (vs : List Byte) : (emitAll s vs).nnodes = s.nnodes := by
  induction vs generalizing s with
  | nil => rfl
  | cons v vs ih => exact ih (emit s v)

@[simp] theorem emitAll_root (vs : List Byte) : (emitAll s vs).root = s.root := by
  induction vs generalizing s with
  | nil => rfl
  | cons v vs ih => exact ih (emit s v)

@[simp] theorem emitAll_inMem (vs : List Byte) : (emitAll s vs).inMem = s.inMem := by
  induction vs generalizing s with
  | nil => rfl
  | cons v vs ih => exact ih (emit s v)

@[simp] theorem emitAll_inq (vs : List Byte) : (emitAll s vs).inq = s.inq := by
  induction vs generalizing s with
  | nil => rfl
  | cons v vs ih => exact ih (emit s v)

@[simp] theorem emitAll_acc (vs : List Byte) : (emitAll s vs).acc = s.acc := by
  induction vs generalizing s with
  | nil => rfl
  | cons v vs ih => exact ih (emit s v)

@[simp] theorem emitAll_nb (vs : List Byte) : (emitAll s vs).nb = s.nb := by
  induction vs generalizing s with
  | nil => rfl
  | cons v vs ih => exact ih (emit s v)

@[simp] theorem emitAll_bp (vs : List Byte) : (emitAll s vs).bp = s.bp := by
  induction vs generalizing s with
  | nil => rfl
  | cons v vs ih => exact ih (emit s v)

@[simp] theorem emitAll_cur (vs : List Byte) : (emitAll s vs).cur = s.cur := by
  induction vs generalizing s with
  | nil => rfl
  | cons v vs ih => exact ih (emit s v)

@[simp] theorem emitAll_parser (vs : List Byte) : (emitAll s vs).parser = s.parser := by
  induction vs generalizing s with
  | nil => rfl
  | cons v vs ih => exact ih (emit s v)

@[simp] theorem emitAll_parsing (vs : List Byte) : (emitAll s vs).parsing = s.parsing := by
  induction vs generalizing s with
  | nil => rfl
  | cons v vs ih => exact ih (emit s v)

@[simp] theorem emitAll_host (vs : List Byte) : (emitAll s vs).host = s.host := by
  induction vs generalizing s with
  | nil => rfl
  | cons v vs ih => exact ih (emit s v)

@[simp] theorem emitAll_rdata (vs : List Byte) : (emitAll s vs).rdata = s.rdata := by
  induction vs generalizing s with
  | nil => rfl
  | cons v vs ih => exact ih (emit s v)

@[simp] theorem emitAll_freeIdx (vs : List Byte) : (emitAll s vs).freeIdx = s.freeIdx := by
  induction vs generalizing s with
  | nil => rfl
  | cons v vs ih => exact ih (emit s v)

theorem emitAll_nil : emitAll s [] = s := rfl

theorem emitAll_cons (v : Byte) (vs : List Byte) : emitAll s (v :: vs) = emitAll (emit s v) vs := rfl

theorem emitAll_append (vs ws : List Byte) : emitAll s (vs ++ ws) = emitAll (emitAll s vs) ws := by
  simp [emitAll, List.foldl_append]

/-- `Emit` changes nothing but OUT and OUT_LEN. -/
theorem emitAll_eq (vs : List Byte) :
    emitAll s vs = { s with outMem := (emitAll s vs).outMem, outLen := (emitAll s vs).outLen } := by
  induction vs generalizing s with
  | nil => rfl
  | cons v vs ih => rw [emitAll_cons, ih (emit s v)]; rfl

end Sys2Proof.Machine
end

