-- ==== Sys2Proof/Laws/Memory.lean ====
section
/-! SUPPORT. Buffers: a read after a write, the canonical form, and what a run of `Emit` leaves. -/

namespace Sys2Proof.Machine

theorem load_store_same (m : Memory) (a : Nat) (v : Byte) : (m.store a v).load a = some v := by
  induction m with
  | nil => simp [Memory.store, Memory.load]
  | cons c m ih =>
    obtain ⟨k, w⟩ := c
    rw [Memory.store]
    split
    · simp [Memory.load]
    split
    · simp [Memory.load]
    · next h => simp [Memory.load, ih, show ¬ k = a from fun e => h e.symm]

theorem load_store_other (m : Memory) {a b : Nat} (v : Byte) (h : b ≠ a) :
    (m.store a v).load b = m.load b := by
  induction m with
  | nil => simp [Memory.store, Memory.load, h.symm]
  | cons c m ih =>
    obtain ⟨k, w⟩ := c
    rw [Memory.store]
    split
    · simp [Memory.load, h.symm]
    split
    · next e => subst e; simp [Memory.load, h.symm]
    · simp [Memory.load, ih]

/-- The addresses of a buffer after a write. -/
theorem mem_store {m : Memory} {a : Nat} {v : Byte} {c : Host.Cell} (h : c ∈ m.store a v) :
    c = (a, v) ∨ c ∈ m := by
  induction m with
  | nil => simpa [Memory.store] using h
  | cons d m ih =>
    obtain ⟨k, w⟩ := d
    rw [Memory.store] at h
    split at h
    · simpa using h
    split at h
    · rcases List.mem_cons.1 h with rfl | h
      · exact .inl rfl
      · exact .inr (List.mem_cons_of_mem _ h)
    · rcases List.mem_cons.1 h with rfl | h
      · exact .inr List.mem_cons_self
      · exact (ih h).imp_right (List.mem_cons_of_mem _)

/-- Every write keeps the canonical form. -/
theorem store_wf {m : Memory} (hm : m.wf) (a : Nat) (v : Byte) : (m.store a v).wf := by
  induction m with
  | nil => simp [Memory.wf, Memory.store]
  | cons c m ih =>
    obtain ⟨k, w⟩ := c
    obtain ⟨h1, h2⟩ := List.pairwise_cons.1 hm
    rw [Memory.store]
    split
    · next hk =>
      refine List.pairwise_cons.2 ⟨fun x hx => ?_, hm⟩
      rcases List.mem_cons.1 hx with rfl | hx
      · exact hk
      · exact Nat.lt_trans hk (h1 x hx)
    split
    · next e => subst e; exact List.pairwise_cons.2 ⟨h1, h2⟩
    · next hk hne =>
      refine List.pairwise_cons.2 ⟨fun x hx => ?_, ih h2⟩
      rcases mem_store hx with rfl | hx
      · exact Nat.lt_of_le_of_ne (Nat.le_of_not_lt hk) (fun e => hne e.symm)
      · exact h1 x hx

/-- Writing bytes to IN from one address on keeps the canonical form. -/
theorem storeFrom_wf {m : Memory} (hm : m.wf) (a : Nat) (vs : List Byte) : (storeFrom m a vs).wf := by
  induction vs generalizing m a with
  | nil => exact hm
  | cons v vs ih => exact ih (store_wf hm a v) (a + 1)

theorem emitAll_wf {s : State} (hm : s.outMem.wf) (vs : List Byte) : (emitAll s vs).outMem.wf := by
  induction vs generalizing s with
  | nil => exact hm
  | cons v vs ih => exact ih (s := emit s v) (store_wf hm _ v)

theorem emitAll_outLen (s : State) (vs : List Byte) :
    (emitAll s vs).outLen = s.outLen + BitVec.ofNat 64 vs.length := by
  induction vs generalizing s with
  | nil => simp [emitAll_nil]
  | cons v vs ih =>
    rw [emitAll_cons, ih, emit_outLen, List.length_cons, BitVec.add_assoc]
    congr 1
    rw [Nat.add_comm, BitVec.ofNat_add]; rfl

theorem emitAll_outLen_toNat {s : State} {vs : List Byte} (h : s.outLen.toNat + vs.length < 2 ^ 64) :
    (emitAll s vs).outLen.toNat = s.outLen.toNat + vs.length := by
  rw [emitAll_outLen, BitVec.toNat_add, BitVec.toNat_ofNat, Nat.mod_eq_of_lt (a := vs.length) (by omega),
    Nat.mod_eq_of_lt h]

/-- What a run of `Emit` leaves in OUT: the bytes, in order, from the old OUT_LEN on (20_memory R65). -/
theorem emitAll_load {s : State} {vs : List Byte} (h : s.outLen.toNat + vs.length < 2 ^ 64) (a : Nat) :
    (emitAll s vs).outMem.load a =
      if s.outLen.toNat ≤ a ∧ a < s.outLen.toNat + vs.length then vs[a - s.outLen.toNat]?
      else s.outMem.load a := by
  induction vs generalizing s with
  | nil => simp [emitAll_nil]
  | cons v vs ih =>
    have h1 : (emit s v).outLen.toNat = s.outLen.toNat + 1 := by
      rw [emit_outLen, BitVec.toNat_add]
      exact Nat.mod_eq_of_lt (by rw [List.length_cons] at h; simpa using by omega)
    rw [List.length_cons] at h ⊢
    rw [emitAll_cons, ih (by omega), h1, emit_outMem]
    by_cases e : a = s.outLen.toNat
    · subst e; rw [if_neg (by omega), if_pos (by omega), load_store_same]; simp
    · rw [load_store_other _ _ e]
      by_cases c : s.outLen.toNat + 1 ≤ a ∧ a < s.outLen.toNat + 1 + vs.length
      · rw [if_pos c, if_pos (by omega), show a - s.outLen.toNat = a - (s.outLen.toNat + 1) + 1 by omega,
          List.getElem?_cons_succ]
      · rw [if_neg c, if_neg (by omega)]

/-- The output after a run of `Emit` that began with OUT_LEN = 0 (20_memory R65). -/
theorem outBytes_emitAll {s : State} {vs : List Byte} (h0 : s.outLen = 0) (h : vs.length < 2 ^ 64) :
    (emitAll s vs).outBytes = vs := by
  have hz : s.outLen.toNat = 0 := by rw [h0]; rfl
  have hl : s.outLen.toNat + vs.length < 2 ^ 64 := by omega
  rw [State.outBytes, emitAll_outLen_toNat hl, hz, Nat.zero_add]
  refine List.ext_getElem (by simp) fun i h1 h2 => ?_
  simp only [List.getElem_map, List.getElem_range, State.readOut, emitAll_load hl, hz]
  simp [h2]

/-- A run of `Emit` leaves every byte outside its own addresses as it was. -/
theorem emitAll_load_outside {s : State} {vs : List Byte} (h : s.outLen.toNat + vs.length < 2 ^ 64)
    {a : Nat} (ha : a < s.outLen.toNat ∨ s.outLen.toNat + vs.length ≤ a) :
    (emitAll s vs).outMem.load a = s.outMem.load a := by
  rw [emitAll_load h, if_neg (by omega)]

/-! ## Reading IN -/

theorem inputBytes_length (s : State) : s.inputBytes.length = s.inLen.toNat := by
  simp [State.inputBytes]

theorem inputBytes_getElem (s : State) (i : Nat) (h : i < s.inputBytes.length) :
    s.inputBytes[i] = s.readIn i := by
  simp [State.inputBytes]

/-- The input depends on IN, IN_LEN and the free values alone. -/
theorem inputBytes_congr {s t : State} (h1 : t.inMem = s.inMem) (h2 : t.inLen = s.inLen)
    (h3 : t.freeIdx = s.freeIdx) : t.inputBytes = s.inputBytes := by
  have : t.readIn = s.readIn := by funext a; rw [State.readIn, State.readIn, h1, h3]
  rw [State.inputBytes, State.inputBytes, h2, this]

theorem inputBytes_eq_nil {s : State} : s.inputBytes = [] ↔ s.inLen = 0 := by
  rw [← List.length_eq_zero_iff, inputBytes_length]
  exact ⟨fun h => BitVec.eq_of_toNat_eq (by simpa using h), fun h => by simp [h]⟩

end Sys2Proof.Machine
end

