-- ==== Sys2Proof/Laws/Table.lean ====
section
/-! SUPPORT. Table register files: a read after a write. -/

namespace Sys2Proof.Machine

theorem tableGet_set_same {α : Type} {n : Nat} (t : Table α n) {i : Nat} (h : i < n) (v d : α) :
    tableGet (tableSet t i v) i d = v := by
  have : i < t.cells.length := by rw [t.size]; exact h
  simp [tableGet, tableSet, this]

theorem tableGet_set_other {α : Type} {n : Nat} (t : Table α n) {i j : Nat} (h : i ≠ j) (v d : α) :
    tableGet (tableSet t i v) j d = tableGet t j d := by
  simp [tableGet, tableSet, List.getElem?_set_ne h]

theorem tableGet_fill {α : Type} {n : Nat} (v : α) {i : Nat} (h : i < n) (d : α) :
    tableGet (Table.fill α n v) i d = v := by
  simp [tableGet, Table.fill, h]

/-- Tables that read alike are the same table. -/
theorem table_ext {α : Type} {n : Nat} {t u : Table α n} (d : α)
    (h : ∀ i < n, tableGet t i d = tableGet u i d) : t = u := by
  obtain ⟨ts, ht⟩ := t
  obtain ⟨us, hu⟩ := u
  have : ts = us := by
    refine List.ext_getElem (ht.trans hu.symm) fun i h1 h2 => ?_
    simpa [tableGet, h1, h2] using h i (by omega)
  subst this; rfl

theorem nodeAt_set_same (t : NodeTable) {i : Nat} (h : i < 511) (e : NodeEntry) :
    nodeAt (tableSet t i e) i = e := tableGet_set_same t h e _

theorem nodeAt_set_other (t : NodeTable) {i j : Nat} (h : i ≠ j) (e : NodeEntry) :
    nodeAt (tableSet t i e) j = nodeAt t j := tableGet_set_other t h e _

theorem freqAt_set_same (t : FreqTable) (b : Byte) (w : Word) : freqAt (tableSet t b.toNat w) b = w :=
  tableGet_set_same t b.isLt w _

theorem freqAt_set_other (t : FreqTable) {b c : Byte} (h : b ≠ c) (w : Word) :
    freqAt (tableSet t b.toNat w) c = freqAt t c :=
  tableGet_set_other t (fun e => h (BitVec.eq_of_toNat_eq e)) w _

theorem codeAt_set_same (t : CodeTable) (b : Byte) (e : CodeEntry) : codeAt (tableSet t b.toNat e) b = e :=
  tableGet_set_same t b.isLt e _

theorem codeAt_set_other (t : CodeTable) {b c : Byte} (h : b ≠ c) (e : CodeEntry) :
    codeAt (tableSet t b.toNat e) c = codeAt t c :=
  tableGet_set_other t (fun e => h (BitVec.eq_of_toNat_eq e)) e _

end Sys2Proof.Machine
end

