-- ==== Sys2Proof/Laws/Trees.lean ====
section
/-! SUPPORT. Abstract trees: leaves, paths, the code map, reading symbols; and the arena that holds a tree. -/

namespace Sys2Proof.Machine

/-! ## Paths -/

theorem rightBit_ne_leftBit : rightBit ≠ leftBit := by decide

theorem bit_cases (b : Bool) : b = leftBit ∨ b = rightBit := by cases b <;> simp [leftBit, rightBit]

/-- The paths of a tree, in the machine's bits (42_codemap R132). -/
theorem pathsOf_node (l r : Tree) : pathsOf (.node l r) =
    (pathsOf l).map (fun x => (x.1, leftBit :: x.2)) ++ (pathsOf r).map (fun x => (x.1, rightBit :: x.2)) := rfl

/-- One branch of a reading, in the machine's bits (42_codemap R132). -/
theorem readSymbol_node (l r : Tree) (bit : Bool) (bits : List Bool) :
    readSymbol (.node l r) (bit :: bits) = if bit = leftBit then readSymbol l bits else readSymbol r bits := by
  cases bit <;> rfl

theorem lookup_map_snd (f : List Bool → List Bool) (l : List (Byte × List Bool)) (v : Byte) :
    (l.map (fun x => (x.1, f x.2))).lookup v = (l.lookup v).map f := by
  induction l with
  | nil => rfl
  | cons x l ih =>
    obtain ⟨a, p⟩ := x
    simp only [List.map_cons, List.lookup_cons]
    by_cases h : v == a <;> simp [h, ih]

theorem codeIn_leaf (u v : Byte) : codeIn (.leaf u) v = if v = u then some [] else none := by
  simp only [codeIn, pathsOf, List.lookup_cons, List.lookup_nil]
  by_cases h : v = u
  · simp [h]
  · simp [h, show (v == u) = false by simpa using h]

theorem codeIn_node (l r : Tree) (v : Byte) :
    codeIn (.node l r) v =
      ((codeIn l v).map (leftBit :: ·)).or ((codeIn r v).map (rightBit :: ·)) := by
  simp only [codeIn, pathsOf_node, List.lookup_append, lookup_map_snd]

theorem codeIn_isSome (t : Tree) (v : Byte) : (codeIn t v).isSome ↔ v ∈ leavesOf t := by
  induction t with
  | leaf u => rw [codeIn_leaf]; by_cases h : v = u <;> simp [h, leavesOf]
  | node l r ihl ihr => simp [codeIn_node, leavesOf, ihl, ihr]

theorem codeIn_eq_none {t : Tree} {v : Byte} : codeIn t v = none ↔ v ∉ leavesOf t := by
  rw [← codeIn_isSome]; simp

theorem codeIn_length_le {t : Tree} {v : Byte} {p : List Bool} (h : codeIn t v = some p) :
    p.length ≤ depthOf t := by
  induction t generalizing p with
  | leaf u => rw [codeIn_leaf] at h; split at h <;> simp_all
  | node l r ihl ihr =>
    rw [codeIn_node, Option.or_eq_some_iff] at h
    simp only [Option.map_eq_some_iff] at h
    rcases h with ⟨q, hq, rfl⟩ | ⟨-, q, hq, rfl⟩
    · have := ihl hq; simp [depthOf]; omega
    · have := ihr hq; simp [depthOf]; omega

/-- No code is the beginning of another one: no leaf is an ancestor of another (42_codemap R135). -/
theorem codeIn_no_extension {t : Tree} {u v : Byte} {p q : List Bool} (hp : codeIn t u = some p)
    (hq : codeIn t v = some q) (h : p <+: q) : u = v := by
  induction t generalizing p q with
  | leaf w =>
    rw [codeIn_leaf] at hp hq
    split at hp <;> split at hq <;> simp_all
  | node l r ihl ihr =>
    rw [codeIn_node, Option.or_eq_some_iff] at hp hq
    simp only [Option.map_eq_some_iff] at hp hq
    rcases hp with ⟨p', hp', rfl⟩ | ⟨-, p', hp', rfl⟩ <;>
      rcases hq with ⟨q', hq', rfl⟩ | ⟨-, q', hq', rfl⟩ <;>
      rw [List.cons_prefix_cons] at h
    · exact ihl hp' hq' h.2
    · exact absurd h.1.symm rightBit_ne_leftBit
    · exact absurd h.1 rightBit_ne_leftBit
    · exact ihr hp' hq' h.2

/-- In a tree with an internal node at its root every code has a bit (42_codemap R135). -/
theorem codeIn_node_ne_nil {l r : Tree} {v : Byte} {p : List Bool} (h : codeIn (.node l r) v = some p) :
    p ≠ [] := by
  rw [codeIn_node, Option.or_eq_some_iff] at h
  simp only [Option.map_eq_some_iff] at h
  rcases h with ⟨q, -, rfl⟩ | ⟨-, q, -, rfl⟩ <;> simp

theorem leavesOf_pos (t : Tree) : 0 < (leavesOf t).length := by
  induction t with
  | leaf v => simp [leavesOf]
  | node l r ihl ihr => simp [leavesOf]; omega

/-- A tree has more leaves than branches on its longest path (00_scope R9). -/
theorem depthOf_lt (t : Tree) : depthOf t < (leavesOf t).length := by
  induction t with
  | leaf v => simp [leavesOf, depthOf]
  | node l r ihl ihr =>
    have := leavesOf_pos l
    have := leavesOf_pos r
    simp [leavesOf, depthOf]; omega

theorem leaves_nodup_le (l : List Byte) (h : l.Nodup) : l.length ≤ 256 := by
  have h1 : (l.map BitVec.toNat).Nodup := h.map fun a b => BitVec.eq_of_toNat_eq
  have h2 : l.map BitVec.toNat ⊆ List.range 256 := fun x hx => by
    obtain ⟨b, -, rfl⟩ := List.mem_map.1 hx
    exact List.mem_range.2 b.isLt
  simpa only [List.length_map, List.length_range] using (h1.subperm h2).length_le

/-! ## Codes as CODE stores them -/

theorem packPath_bit (path : List Bool) (k i : Nat) (hk : k + path.length ≤ 255) (hi : i < 255) :
    (packPath k path).getLsbD (254 - i) = (decide (k ≤ i) && path.getD (i - k) false) := by
  induction path generalizing k with
  | nil => simp [packPath]
  | cons c cs ih =>
    rw [List.length_cons] at hk
    rw [packPath, BitVec.getLsbD_or, ih (k + 1) (by omega)]
    by_cases e : i = k
    · subst e
      have h1 : 254 - i < 255 := by omega
      cases c <;> simp [h1]
    · by_cases hlt : i < k
      · have h1 : ¬ k ≤ i := by omega
        have h2 : ¬ k + 1 ≤ i := by omega
        have h3 : ¬ 254 - k = 254 - i := by omega
        cases c <;> simp [h1, h2, BitVec.getLsbD_twoPow, h3]
      · have h1 : k ≤ i := by omega
        have h2 : k + 1 ≤ i := by omega
        have h3 : ¬ 254 - k = 254 - i := by omega
        have h4 : i - k = (i - (k + 1)) + 1 := by omega
        cases c <;> simp [h1, h2, BitVec.getLsbD_twoPow, h3, h4]

/-- CODE gives back the path it recorded (10_state R23). -/
theorem path_ofPath {path : List Bool} (h : path.length ≤ 255) : (CodeEntry.ofPath path).path = path := by
  have hl : (CodeEntry.ofPath path).len.toNat = path.length := by
    simp only [CodeEntry.ofPath, BitVec.toNat_ofNat]; omega
  rw [CodeEntry.path, hl]
  refine List.ext_getElem (by simp) fun i h1 h2 => ?_
  simp only [List.getElem_map, List.getElem_range, CodeEntry.ofPath]
  rw [packPath_bit path 0 i (by omega) (by omega)]
  simp [h2]

/-- What the walk of `Derive()` leaves in CODE (42_codemap R131). -/
theorem codeAt_walkCodes {t : Tree} (hn : (leavesOf t).Nodup) (path : List Bool) (tab : CodeTable) (b : Byte) :
    codeAt (walkCodes t path tab) b =
      match codeIn t b with
      | some p => CodeEntry.ofPath (path ++ p)
      | none => codeAt tab b := by
  induction t generalizing path tab with
  | leaf v =>
    rw [walkCodes, codeIn_leaf]
    by_cases h : b = v
    · subst h; simp [codeAt_set_same]
    · simp [h, codeAt_set_other _ (Ne.symm h)]
  | node l r ihl ihr =>
    rw [leavesOf, List.nodup_append] at hn
    rw [walkCodes, ihr hn.2.1, ihl hn.1, codeIn_node]
    cases hl : codeIn l b with
    | some p =>
      have hb : b ∉ leavesOf r := fun hb =>
        hn.2.2 b ((codeIn_isSome l b).1 (by simp [hl])) b hb rfl
      rw [codeIn_eq_none.2 hb]; simp
    | none => cases codeIn r b <;> simp

/-- The code map of a tree: the path of each leaf, no code for any other byte (42_codemap R130, R131). -/
theorem codeAt_codesOf {t : Tree} (hn : (leavesOf t).Nodup) (b : Byte) :
    codeAt (codesOf t) b =
      match codeIn t b with
      | some p => CodeEntry.ofPath p
      | none => CodeEntry.absent := by
  rw [codesOf, codeAt_walkCodes hn]
  cases codeIn t b with
  | some p => simp
  | none => exact tableGet_fill _ b.isLt _

theorem present_codesOf {t : Tree} (hn : (leavesOf t).Nodup) (b : Byte) :
    (codeAt (codesOf t) b).present = decide (b ∈ leavesOf t) := by
  rw [codeAt_codesOf hn]
  cases h : codeIn t b with
  | some p => simp [CodeEntry.ofPath, (codeIn_isSome t b).1 (by simp [h])]
  | none => simp [CodeEntry.absent, codeIn_eq_none.1 h]

theorem path_codesOf {t : Tree} (hn : (leavesOf t).Nodup) (b : Byte) :
    (codeAt (codesOf t) b).path = (codeIn t b).getD [] := by
  rw [codeAt_codesOf hn]
  cases h : codeIn t b with
  | some p =>
    have h1 := codeIn_length_le h
    have h2 := depthOf_lt t
    have h3 := leaves_nodup_le _ hn
    exact path_ofPath (by omega)
  | none => simp [CodeEntry.absent, CodeEntry.path]

/-! ## Reading symbols -/

/-- The code of a leaf, read from the root, gives the leaf (44_bitstream R173). -/
theorem readSymbol_code {t : Tree} {v : Byte} {p : List Bool} (h : codeIn t v = some p) (rest : List Bool) :
    readSymbol t (p ++ rest) = some (v, rest) := by
  induction t generalizing p with
  | leaf u => rw [codeIn_leaf] at h; split at h <;> simp_all [readSymbol]
  | node l r ihl ihr =>
    rw [codeIn_node, Option.or_eq_some_iff] at h
    simp only [Option.map_eq_some_iff] at h
    rcases h with ⟨q, hq, rfl⟩ | ⟨-, q, hq, rfl⟩
    · simpa [readSymbol_node] using ihl hq
    · simpa [readSymbol_node, rightBit_ne_leftBit] using ihr hq

theorem readSymbols_bitsOf {t : Tree} (vs : List Byte) (h : ∀ v ∈ vs, v ∈ leavesOf t) (rest : List Bool) :
    readSymbols t vs.length (bitsOf t vs ++ rest) = some (vs, rest) := by
  induction vs with
  | nil => simp [readSymbols, bitsOf]
  | cons v vs ih =>
    obtain ⟨p, hp⟩ := Option.isSome_iff_exists.1 ((codeIn_isSome t v).2 (h v List.mem_cons_self))
    have ih := ih fun w hw => h w (List.mem_cons_of_mem _ hw)
    rw [bitsOf] at ih
    simp [readSymbols, bitsOf, hp, List.append_assoc, readSymbol_code hp, ih]

/-- The bits left after a symbol are an end of the bits there were. -/
theorem readSymbol_suffix {t : Tree} {bits rest : List Bool} {v : Byte}
    (h : readSymbol t bits = some (v, rest)) : ∃ p, bits = p ++ rest ∧ v ∈ leavesOf t := by
  induction t generalizing bits with
  | leaf u => rw [readSymbol] at h; cases h; exact ⟨[], rfl, by simp [leavesOf]⟩
  | node l r ihl ihr =>
    cases bits with
    | nil => simp [readSymbol] at h
    | cons b bits =>
      rw [readSymbol_node] at h
      split at h
      · obtain ⟨p, rfl, hv⟩ := ihl h; exact ⟨b :: p, rfl, by simp [leavesOf, hv]⟩
      · obtain ⟨p, rfl, hv⟩ := ihr h; exact ⟨b :: p, rfl, by simp [leavesOf, hv]⟩

/-! ## The arena -/

theorem treeAt_leaf {t : NodeTable} {d i : Nat} {v : Byte} (h : treeAt t d i = some (.leaf v)) :
    (nodeAt t i).kind = .leaf ∧ (nodeAt t i).sym = v := by
  cases d with
  | zero => simp [treeAt] at h
  | succ d =>
    rw [treeAt] at h
    split at h
    · split at h
      · next hk => cases h; exact ⟨hk, rfl⟩
      · split at h <;> simp at h
    · simp at h

theorem treeAt_node {t : NodeTable} {d i : Nat} {l r : Tree} (h : treeAt t d i = some (.node l r)) :
    ∃ d', d = d' + 1 ∧ (nodeAt t i).kind = .internal ∧
      treeAt t d' (nodeAt t i).left.toNat = some l ∧ treeAt t d' (nodeAt t i).right.toNat = some r := by
  cases d with
  | zero => simp [treeAt] at h
  | succ d =>
    rw [treeAt] at h
    split at h
    · split at h
      · cases h
      · next hk =>
        split at h
        · next hl hr => cases h; exact ⟨d, rfl, hk, hl, hr⟩
        · cases h
        · cases h
    · simp at h

/-- The decoder's walk in the arena is the reading of a symbol from the abstract tree (44_bitstream R166). -/
theorem walkDown_eq {t : NodeTable} {out : List Byte} {tr : Tree} {d : Nat} {cur : Index}
    (h : treeAt t d cur.toNat = some tr) (bits : List Bool) (pos : BitPos) :
    match readSymbol tr bits with
    | none => ∃ c q, walkDown t out bits cur pos = ⟨c, [], q, out, false⟩ ∧
        (nodeAt t c.toNat).kind = .internal
    | some (v, rest) =>
      ∃ c q p, walkDown t out bits cur pos = ⟨c, rest, q, out, true⟩ ∧ (nodeAt t c.toNat).sym = v ∧
        bits = p ++ rest ∧ q = BitPos.advance^[p.length] pos := by
  induction tr generalizing d cur bits pos with
  | leaf v =>
    obtain ⟨hk, hs⟩ := treeAt_leaf h
    rw [readSymbol]
    refine ⟨cur, pos, [], ?_, hs, rfl, rfl⟩
    cases bits <;> rw [walkDown, hk]
  | node l r ihl ihr =>
    obtain ⟨d', rfl, hk, hl, hr⟩ := treeAt_node h
    cases bits with
    | nil => exact ⟨cur, pos, by rw [walkDown, hk], hk⟩
    | cons b bits =>
      rw [readSymbol_node, walkDown, hk]
      rcases bit_cases b with rfl | rfl
      · rw [if_pos rfl]
        have := ihl (d := d') (cur := (nodeAt t cur.toNat).child leftBit)
          (by simpa [NodeEntry.child] using hl) bits pos.advance
        cases hrs : readSymbol l bits with
        | none => simpa only [hrs] using this
        | some x =>
          simp only [hrs] at this
          obtain ⟨c, q, p, h1, h2, h3, h4⟩ := this
          exact ⟨c, q, leftBit :: p, h1, h2, by rw [h3]; rfl, h4⟩
      · rw [if_neg rightBit_ne_leftBit]
        have := ihr (d := d') (cur := (nodeAt t cur.toNat).child rightBit)
          (by simpa [NodeEntry.child, rightBit_ne_leftBit] using hr) bits pos.advance
        cases hrs : readSymbol r bits with
        | none => simpa only [hrs] using this
        | some x =>
          simp only [hrs] at this
          obtain ⟨c, q, p, h1, h2, h3, h4⟩ := this
          exact ⟨c, q, rightBit :: p, h1, h2, by rw [h3]; rfl, h4⟩

end Sys2Proof.Machine
end

