-- ==== Sys2Proof/Laws/TreeCodec.lean ====
section
/-! SUPPORT. The tree codec: the records of a tree, and what the parser makes of records. -/

namespace Sys2Proof.Machine

/-! ## Sizes -/

/-- Arena entries of a tree. -/
def sizeOf' : Tree → Nat
  | .leaf _ => 1
  | .node l r => sizeOf' l + sizeOf' r + 1

theorem sizeOf'_pos (t : Tree) : 0 < sizeOf' t := by cases t <;> simp [sizeOf']

/-- A tree with n leaves has 2n - 1 nodes (10_state R38). -/
theorem sizeOf'_eq (t : Tree) : sizeOf' t + 1 = 2 * (leavesOf t).length := by
  induction t with
  | leaf v => rfl
  | node l r ihl ihr => simp only [sizeOf', leavesOf, List.length_append]; omega

theorem records_length (t : Tree) : (records t).length = sizeOf' t := by
  induction t with
  | leaf v => rfl
  | node l r ihl ihr => simp [records, sizeOf', ihl, ihr]

/-- A tree with n leaves is written in 3n - 1 bytes (30_encoding R91). -/
theorem serialize_length (t : Tree) : (serialize t).length + 1 = 3 * (leavesOf t).length := by
  unfold serialize
  induction t with
  | leaf v => rfl
  | node l r ihl ihr =>
    simp only [records, List.flatMap_cons, List.flatMap_append, encode, List.length_append, leavesOf,
      List.length_cons, List.length_nil] at *
    omega

theorem serialize_leaf (v : Byte) : serialize (.leaf v) = [leafMark, v] := rfl

theorem serialize_node (l r : Tree) : serialize (.node l r) = intMark :: (serialize l ++ serialize r) := by
  simp [serialize, records, encode]

theorem leafValues_records (t : Tree) : leafValues (records t) = leavesOf t := by
  unfold leafValues
  induction t with
  | leaf v => rfl
  | node l r ihl ihr => simp [records, leavesOf, List.filterMap_cons, Instr.leafValue?, ihl, ihr]

theorem records_space (t : Tree) : ∀ i ∈ records t, i.space = .stream := by
  induction t with
  | leaf v => simp [records, Instr.space]
  | node l r ihl ihr =>
    intro i hi
    simp only [records, List.mem_cons, List.mem_append] at hi
    rcases hi with rfl | hi | hi
    · rfl
    · exact ihl i hi
    · exact ihr i hi

/-! ## One tree in the parser -/

/-- The tree `t` stands in the arena from entry `k` on, in pre-order, with weights 0 (43_tree_codec R146). -/
def PreOrderAt (node : NodeTable) : Nat → Tree → Prop
  | k, .leaf v => nodeAt node k = ⟨.leaf, v, 0, 0, 0⟩
  | k, .node l r =>
    nodeAt node k = ⟨.internal, 0, 0, BitVec.ofNat 9 (k + 1), BitVec.ofNat 9 (k + 1 + sizeOf' l)⟩ ∧
      PreOrderAt node (k + 1) l ∧ PreOrderAt node (k + 1 + sizeOf' l) r

theorem PreOrderAt.congr {node node' : NodeTable} {t : Tree} {k : Nat} (h : PreOrderAt node k t)
    (he : ∀ j, k ≤ j → j < k + sizeOf' t → nodeAt node' j = nodeAt node j) : PreOrderAt node' k t := by
  induction t generalizing k with
  | leaf v => exact (he k (Nat.le_refl k) (by simp [sizeOf'])).trans h
  | node l r ihl ihr =>
    obtain ⟨h1, h2, h3⟩ := h
    rw [sizeOf'] at he
    exact ⟨(he k (Nat.le_refl k) (by omega)).trans h1,
      ihl h2 fun j hj hj' => he j (by omega) (by omega),
      ihr h3 fun j hj hj' => he j (by omega) (by omega)⟩

theorem PreOrderAt.treeAt {node : NodeTable} {t : Tree} {k d : Nat} (h : PreOrderAt node k t)
    (hk : k + sizeOf' t ≤ 511) (hd : depthOf t < d) : treeAt node d k = some t := by
  induction t generalizing k d with
  | leaf v =>
    obtain ⟨d, rfl⟩ := Nat.exists_eq_add_of_lt hd
    have : nodeAt node k = ⟨.leaf, v, 0, 0, 0⟩ := h
    simp only [sizeOf'] at hk
    rw [depthOf, Nat.zero_add, Machine.treeAt, if_pos (by omega), this]
  | node l r ihl ihr =>
    obtain ⟨d, rfl⟩ : ∃ e, d = e + 1 := ⟨d - 1, by omega⟩
    obtain ⟨h1, h2, h3⟩ := h
    rw [sizeOf'] at hk
    rw [depthOf] at hd
    have := sizeOf'_pos r
    rw [Machine.treeAt, if_pos (by omega), h1]
    simp only
    rw [BitVec.toNat_ofNat, BitVec.toNat_ofNat, Nat.mod_eq_of_lt (by omega), Nat.mod_eq_of_lt (by omega),
      ihl h2 (by omega) (by omega), ihr h3 (by omega) (by omega)]

theorem PreOrderAt.entriesAt {node : NodeTable} {t : Tree} {k d : Nat} (h : PreOrderAt node k t)
    (hk : k + sizeOf' t ≤ 511) (hd : depthOf t < d) :
    entriesAt node d k = some (List.range' k (sizeOf' t)) := by
  induction t generalizing k d with
  | leaf v =>
    obtain ⟨d, rfl⟩ := Nat.exists_eq_add_of_lt hd
    have : nodeAt node k = ⟨.leaf, v, 0, 0, 0⟩ := h
    simp only [sizeOf'] at hk
    rw [depthOf, Nat.zero_add, Machine.entriesAt, if_pos (by omega), this]
    rfl
  | node l r ihl ihr =>
    obtain ⟨d, rfl⟩ : ∃ e, d = e + 1 := ⟨d - 1, by omega⟩
    obtain ⟨h1, h2, h3⟩ := h
    rw [sizeOf'] at hk
    rw [depthOf] at hd
    have := sizeOf'_pos r
    rw [Machine.entriesAt, if_pos (by omega), h1]
    simp only
    rw [BitVec.toNat_ofNat, BitVec.toNat_ofNat, Nat.mod_eq_of_lt (by omega), Nat.mod_eq_of_lt (by omega),
      ihl h2 (by omega) (by omega), ihr h3 (by omega) (by omega)]
    simp only [sizeOf', Option.some.injEq]
    rw [List.range'_succ, List.range'_append_1]

/-- SEEN after the leaves of a list were read. -/
def seeLeaves (seen : BitVec 256) (vs : List Byte) : BitVec 256 :=
  vs.foldl (fun s v => s ||| BitVec.twoPow 256 v.toNat) seen

theorem seeLeaves_append (seen : BitVec 256) (vs ws : List Byte) :
    seeLeaves seen (vs ++ ws) = seeLeaves (seeLeaves seen vs) ws := by
  simp [seeLeaves, List.foldl_append]

theorem seeLeaves_bit (seen : BitVec 256) (vs : List Byte) (v : Byte) :
    (seeLeaves seen vs).getLsbD v.toNat = (seen.getLsbD v.toNat || decide (v ∈ vs)) := by
  induction vs generalizing seen with
  | nil => simp [seeLeaves]
  | cons w vs ih =>
    have hw : w.toNat < 256 := w.isLt
    have e : (w.toNat = v.toNat) = (v = w) := propext
      ⟨fun h => (BitVec.eq_of_toNat_eq h).symm, fun h => h ▸ rfl⟩
    have := ih (seen ||| BitVec.twoPow 256 w.toNat)
    simp only [seeLeaves, List.foldl_cons] at this ⊢
    rw [this, BitVec.getLsbD_or, BitVec.getLsbD_twoPow]
    simp only [hw, decide_true, Bool.true_and, e, List.mem_cons, Bool.decide_or, Bool.or_assoc]

/-- Where the parser stands after the records of a tree, but for its stack. -/
def HeaderParse.past (h : HeaderParse) (t : Tree) : HeaderParse :=
  { h with
    p := h.p + (serialize t).length, nn := h.nn + sizeOf' t, nl := h.nl + (leavesOf t).length
    ni := h.ni + ((leavesOf t).length - 1), seen := seeLeaves h.seen (leavesOf t) }

theorem deliver_stk (h : HeaderParse) (stk' : List Frame) (node : NodeTable) (k : Nat) (stk : List Frame) :
    deliver { h with stk := stk' } node k stk = deliver h node k stk := by
  induction stk generalizing node k with
  | nil => rfl
  | cons f stk ih =>
    obtain ⟨i, l⟩ := f
    cases l with
    | none => rfl
    | some l => exact ih _ _

/-- What `deliver` does with the frames that wait for their right child alone. -/
theorem deliver_waitingRight (h : HeaderParse) (node : NodeTable) (k : Nat) (fs : List (Nat × Nat))
    (stk : List Frame) :
    deliver h node k (waitingRight fs ++ stk) =
      deliver h (completed node k fs).1 (completed node k fs).2 stk := by
  induction fs generalizing node k with
  | nil => rfl
  | cons f fs ih => exact ih _ f.1

theorem takeRecords_append (is js : List Instr) (node : NodeTable) (h : HeaderParse) :
    takeRecords (is ++ js) node h =
      match takeRecords is node h with
      | .more node' h' => takeRecords js node' h'
      | .complete node' h' r => .complete node' h' r
      | .malformed node' h' => .malformed node' h' := by
  induction is generalizing node h with
  | nil => rfl
  | cons i is ih =>
    rw [List.cons_append, takeRecords, takeRecords]
    cases takeRecord i node h <;> simp [ih]

/-- The parser on the records of a tree with distinct, unseen leaves: the tree stands in the arena from the next
free entry on, in pre-order, and that entry is delivered to the waiting frames (43_tree_codec R146). -/
theorem takeRecords_records {t : Tree} {node : NodeTable} {h : HeaderParse} (js : List Instr)
    (hn : (leavesOf t).Nodup) (hs : ∀ v ∈ leavesOf t, h.seen.getLsbD v.toNat = false)
    (hk : h.nn + sizeOf' t ≤ 511) (hi : h.ni + ((leavesOf t).length - 1) ≤ 255) :
    ∃ node', PreOrderAt node' h.nn t ∧
      (∀ j, j < h.nn ∨ h.nn + sizeOf' t ≤ j → nodeAt node' j = nodeAt node j) ∧
      takeRecords (records t ++ js) node h =
        match deliver (h.past t) node' h.nn h.stk with
        | .more n2 h2 => takeRecords js n2 h2
        | .complete n2 h2 r => .complete n2 h2 r
        | .malformed n2 h2 => .malformed n2 h2 := by
  induction t generalizing node h js with
  | leaf v =>
    refine ⟨tableSet node h.nn ⟨.leaf, v, 0, 0, 0⟩, ?_, fun j hj => ?_, ?_⟩
    · exact nodeAt_set_same _ (by simp [sizeOf'] at hk; omega) _
    · refine nodeAt_set_other _ ?_ _
      simp [sizeOf'] at hj; omega
    · have h1 : h.seen.getLsbD v.toNat = false := hs v (by simp [leavesOf])
      simp only [records, List.cons_append, List.nil_append, takeRecords, takeRecord, takeLeaf, h1,
        Bool.false_eq_true, if_false]
      rfl
  | node l r ihl ihr =>
    rw [leavesOf, List.nodup_append] at hn
    have hpl := leavesOf_pos l
    have hpr := leavesOf_pos r
    have hsl := sizeOf'_pos l
    have hsr := sizeOf'_pos r
    simp only [sizeOf', leavesOf, List.length_append, List.mem_append] at hk hi hs
    -- the INTERNAL record
    let h1 : HeaderParse :=
      { h with p := h.p + 1, nn := h.nn + 1, ni := h.ni + 1, stk := ⟨h.nn, none⟩ :: h.stk }
    have e1 : takeRecord .recInternal node h = .more node h1 := by
      rw [takeRecord, takeInternal, if_pos (by omega)]
    -- the left subtree
    obtain ⟨n1, p1, f1, q1⟩ := ihl (node := node) (h := h1) (records r ++ js) hn.1
      (fun v hv => hs v (.inl hv)) (by simp only [h1]; omega) (by simp only [h1]; omega)
    -- the right subtree
    let h2 : HeaderParse := { h1.past l with stk := ⟨h.nn, some (h.nn + 1)⟩ :: h.stk }
    have s2 : ∀ v ∈ leavesOf r, h2.seen.getLsbD v.toNat = false := by
      intro v hv
      change (seeLeaves h.seen (leavesOf l)).getLsbD v.toNat = false
      rw [seeLeaves_bit, hs v (.inr hv)]
      simpa using fun hl => hn.2.2 v hl v hv rfl
    have nn2 : h2.nn = h.nn + 1 + sizeOf' l := rfl
    have ni2 : h2.ni = h.ni + 1 + ((leavesOf l).length - 1) := rfl
    obtain ⟨n2, p2, f2, q2⟩ := ihr (node := n1) (h := h2) js hn.2.1 s2 (by omega) (by omega)
    refine ⟨tableSet n2 h.nn ⟨.internal, 0, 0, BitVec.ofNat 9 (h.nn + 1), BitVec.ofNat 9 (h.nn + 1 + sizeOf' l)⟩,
      ⟨nodeAt_set_same _ (by omega) _, ?_, ?_⟩, fun j hj => ?_, ?_⟩
    · refine p1.congr fun j hj hj' => ?_
      have hj : h.nn + 1 ≤ j := hj
      have hj' : j < h.nn + 1 + sizeOf' l := hj'
      rw [nodeAt_set_other _ (by omega), f2 j (by omega)]
    · refine p2.congr fun j hj hj' => ?_
      rw [nn2] at hj
      rw [nodeAt_set_other _ (by omega)]
    · rw [sizeOf'] at hj
      rw [nodeAt_set_other _ (by omega), f2 j (by omega),
        f1 j (by change j < h.nn + 1 ∨ h.nn + 1 + sizeOf' l ≤ j; omega)]
    · rw [records, List.cons_append, List.append_assoc, takeRecords, e1]
      simp only
      rw [q1]
      have d1 : deliver (h1.past l) n1 h1.nn h1.stk = .more n1 h2 := rfl
      rw [d1]
      simp only
      rw [q2]
      have d2 : deliver (h2.past r) n2 h2.nn h2.stk =
          deliver ((h2.past r)) (tableSet n2 h.nn ⟨.internal, 0, 0, BitVec.ofNat 9 (h.nn + 1),
            BitVec.ofNat 9 h2.nn⟩) h.nn h.stk := rfl
      rw [d2, nn2]
      have e3 : h2.past r = { h.past (.node l r) with stk := h2.stk } := by
        simp only [HeaderParse.past, h2, h1, HeaderParse.mk.injEq, sizeOf', leavesOf, serialize_node,
          List.length_append, List.length_cons, seeLeaves_append, and_true, true_and]
        omega
      rw [e3, deliver_stk]

/-! ## What the parser accepts -/

/-- Trees that the waiting frames still need after the one that is being read. -/
def rightsDue : List Frame → Nat
  | [] => 0
  | ⟨_, none⟩ :: stk => rightsDue stk + 1
  | ⟨_, some _⟩ :: stk => rightsDue stk

theorem deliver_cases (h : HeaderParse) (node : NodeTable) (k : Nat) (stk : List Frame) :
    (rightsDue stk = 0 ∧ ∃ n' r, deliver h node k stk = .complete n' { h with stk := [] } r) ∨
    (∃ n' stk', deliver h node k stk = .more n' { h with stk := stk' } ∧
      rightsDue stk = rightsDue stk' + 1) := by
  induction stk generalizing node k with
  | nil => exact .inl ⟨rfl, node, k, rfl⟩
  | cons f stk ih =>
    obtain ⟨i, l⟩ := f
    cases l with
    | none => exact .inr ⟨node, ⟨i, some k⟩ :: stk, rfl, rfl⟩
    | some l => exact ih _ _

/-- Records that complete a header spell the trees that were due, with distinct, unseen leaves (43_tree_codec
R147). -/
theorem takeRecords_complete {is : List Instr} {node n' : NodeTable} {h h' : HeaderParse} {r : Nat}
    (hc : takeRecords is node h = .complete n' h' r) :
    ∃ (ts : List Tree) (js : List Instr), is = ts.flatMap records ++ js ∧ ts.length = rightsDue h.stk + 1 ∧
      (ts.flatMap leavesOf).Nodup ∧ ∀ v ∈ ts.flatMap leavesOf, h.seen.getLsbD v.toNat = false := by
  induction is generalizing node h with
  | nil => cases hc
  | cons i is ih =>
    rw [takeRecords] at hc
    cases i with
    | recLeaf v =>
      rw [takeRecord, takeLeaf] at hc
      split at hc
      · next he =>
        split at he
        · cases he
        · next hs =>
          rcases deliver_cases { h with p := h.p + 2, nn := h.nn + 1, nl := h.nl + 1,
                                        seen := h.seen ||| BitVec.twoPow 256 v.toNat }
            (tableSet node h.nn ⟨.leaf, v, 0, 0, 0⟩) h.nn h.stk with ⟨-, n2, r2, e⟩ | ⟨n2, stk', e, hr⟩
          · rw [e] at he; cases he
          · rw [e] at he
            cases he
            obtain ⟨ts, js, h1, h2, h3, h4⟩ := ih hc
            have hv : ∀ u ∈ ts.flatMap leavesOf, h.seen.getLsbD u.toNat = false ∧ u ≠ v := by
              intro u hu
              have := h4 u hu
              simp only [BitVec.getLsbD_or, Bool.or_eq_false_iff] at this
              refine ⟨this.1, fun e => ?_⟩
              subst e
              have hu : u.toNat < 256 := u.isLt
              simp [hu] at this
            refine ⟨.leaf v :: ts, js, by simp [records, h1], by simp [h2, hr], ?_, ?_⟩
            · simp only [List.flatMap_cons, leavesOf, List.singleton_append, List.nodup_cons]
              exact ⟨fun hm => (hv v hm).2 rfl, h3⟩
            · intro u hu
              simp only [List.flatMap_cons, leavesOf, List.singleton_append, List.mem_cons] at hu
              rcases hu with rfl | hu
              · simpa using hs
              · exact (hv u hu).1
      · next he =>
        split at he
        · cases he
        · next hs =>
          rcases deliver_cases { h with p := h.p + 2, nn := h.nn + 1, nl := h.nl + 1,
                                        seen := h.seen ||| BitVec.twoPow 256 v.toNat }
            (tableSet node h.nn ⟨.leaf, v, 0, 0, 0⟩) h.nn h.stk with ⟨hr, n2, r2, e⟩ | ⟨n2, stk', e, -⟩
          · refine ⟨[.leaf v], is, by simp [records], by simp [hr], by simp [leavesOf], ?_⟩
            intro u hu
            simp only [List.flatMap_cons, List.flatMap_nil, leavesOf, List.append_nil, List.mem_singleton] at hu
            subst hu
            simpa using hs
          · rw [e] at he; cases he
      · cases hc
    | recInternal =>
      rw [takeRecord, takeInternal] at hc
      split at hc
      · next he =>
        split at he
        · cases he
          obtain ⟨ts, js, h1, h2, h3, h4⟩ := ih hc
          simp only [rightsDue] at h2
          match ts, h2 with
          | l :: r :: ts, h2 =>
            refine ⟨.node l r :: ts, js, by simp [records, h1], by simpa using h2, ?_, ?_⟩
            · simpa [leavesOf] using h3
            · intro u hu
              exact h4 u (by simpa [leavesOf] using hu)
        · cases he
      · next he => split at he <;> cases he
      · cases hc
    | _ => cases hc

/-- From the start of a header: the records that complete it are those of one tree with distinct leaves, and the
tree stands in the arena from entry 0 on, in pre-order. -/
theorem takeRecords_start_complete {is : List Instr} {node n' : NodeTable} {h' : HeaderParse} {p r : Nat}
    {cnt : Word} (hc : takeRecords is node (HeaderParse.start p cnt) = .complete n' h' r) :
    ∃ t js, is = records t ++ js ∧ (leavesOf t).Nodup ∧ PreOrderAt n' 0 t ∧ r = 0 ∧
      h' = (HeaderParse.start p cnt).past t := by
  obtain ⟨ts, js, h1, h2, h3, -⟩ := takeRecords_complete hc
  match ts, h2 with
  | [t], _ =>
    simp only [List.flatMap_cons, List.flatMap_nil, List.append_nil] at h1 h3
    have hl := leaves_nodup_le _ h3
    have hsz := sizeOf'_eq t
    obtain ⟨node', ho, -, ht⟩ := takeRecords_records (node := node) (h := HeaderParse.start p cnt) js h3
      (by simp [HeaderParse.start]) (by simp only [HeaderParse.start]; omega)
      (by simp only [HeaderParse.start]; omega)
    rw [← h1, hc] at ht
    simp only [HeaderParse.start, deliver, HeaderStep.complete.injEq] at ht
    obtain ⟨rfl, e, rfl⟩ := ht
    exact ⟨t, js, h1, h3, ho, rfl, e⟩

theorem takeRecords_start {t : Tree} (node : NodeTable) (p : Nat) (cnt : Word) (js : List Instr)
    (hn : (leavesOf t).Nodup) :
    ∃ node', PreOrderAt node' 0 t ∧
      takeRecords (records t ++ js) node (HeaderParse.start p cnt) =
        .complete node' ((HeaderParse.start p cnt).past t) 0 := by
  have hl := leaves_nodup_le _ hn
  have hsz := sizeOf'_eq t
  obtain ⟨node', ho, -, ht⟩ := takeRecords_records (node := node) (h := HeaderParse.start p cnt) js hn
    (by simp [HeaderParse.start]) (by simp only [HeaderParse.start]; omega)
    (by simp only [HeaderParse.start]; omega)
  exact ⟨node', ho, ht⟩

/-! ## From records to bytes -/

theorem parseRecords_of_records {is : List Instr} (hs : ∀ i ∈ is, i.space = .stream) {fuel : Nat}
    (hf : is.length ≤ fuel) (rest : List Byte) {node n' : NodeTable} {h h' : HeaderParse} {r : Nat}
    (hc : takeRecords is node h = .complete n' h' r) :
    parseRecords fuel (is.flatMap encode ++ rest) node h = .complete n' h' r := by
  induction is generalizing node h fuel with
  | nil => cases hc
  | cons i is ih =>
    obtain ⟨fuel, rfl⟩ : ∃ f, fuel = f + 1 := ⟨fuel - 1, by simp at hf; omega⟩
    rw [parseRecords, List.flatMap_cons, List.append_assoc, decodeRecord_encode (hs i List.mem_cons_self)]
    rw [takeRecords] at hc
    simp only
    cases hi : takeRecord i node h with
    | more n1 h1 =>
      rw [hi] at hc
      exact ih (fun j hj => hs j (List.mem_cons_of_mem _ hj)) (by simpa using hf) hc
    | complete n1 h1 r1 => rw [hi] at hc; exact hc
    | malformed n1 h1 => rw [hi] at hc; cases hc

theorem parseRecords_complete {fuel : Nat} {bs : List Byte} {node n' : NodeTable} {h h' : HeaderParse} {r : Nat}
    (hc : parseRecords fuel bs node h = .complete n' h' r) :
    ∃ is rest, bs = is.flatMap encode ++ rest ∧ takeRecords is node h = .complete n' h' r := by
  induction fuel generalizing bs node h with
  | zero => cases hc
  | succ fuel ih =>
    rw [parseRecords] at hc
    cases hd : decodeRecord bs with
    | error e => rw [hd] at hc; cases hc
    | ok x =>
      obtain ⟨i, bs'⟩ := x
      rw [hd] at hc
      obtain ⟨rfl, -⟩ := decodeRecord_ok hd
      simp only at hc
      cases hi : takeRecord i node h with
      | more n1 h1 =>
        rw [hi] at hc
        obtain ⟨is, rest, rfl, ht⟩ := ih hc
        exact ⟨i :: is, rest, by simp, by rw [takeRecords, hi]; exact ht⟩
      | complete n1 h1 r1 =>
        rw [hi] at hc
        exact ⟨[i], bs', by simp, by rw [takeRecords, hi]; exact hc⟩
      | malformed n1 h1 => rw [hi] at hc; cases hc

theorem parseRecords_ne_more {fuel : Nat} {bs : List Byte} {node n' : NodeTable} {h h' : HeaderParse} :
    parseRecords fuel bs node h ≠ .more n' h' := by
  induction fuel generalizing bs node h with
  | zero => intro e; cases e
  | succ fuel ih =>
    rw [parseRecords]
    cases decodeRecord bs with
    | error e => intro e; cases e
    | ok x =>
      obtain ⟨i, bs'⟩ := x
      simp only
      cases takeRecord i node h with
      | more n1 h1 => exact ih
      | complete n1 h1 r1 => intro e; cases e
      | malformed n1 h1 => intro e; cases e

/-- What the records part of `TreeRead()` accepts, and what it leaves. -/
theorem parseRecords_start {bs : List Byte} {fuel : Nat} (hf : bs.length ≤ fuel) (node : NodeTable) (p : Nat)
    (cnt : Word) :
    (∃ t rest node', bs = serialize t ++ rest ∧ (leavesOf t).Nodup ∧ PreOrderAt node' 0 t ∧
      parseRecords fuel bs node (HeaderParse.start p cnt) =
        .complete node' ((HeaderParse.start p cnt).past t) 0) ∨
    ((¬ ∃ t rest, bs = serialize t ++ rest ∧ (leavesOf t).Nodup) ∧
      ∃ node' h', parseRecords fuel bs node (HeaderParse.start p cnt) = .malformed node' h') := by
  by_cases hx : ∃ t rest, bs = serialize t ++ rest ∧ (leavesOf t).Nodup
  · obtain ⟨t, rest, rfl, hn⟩ := hx
    obtain ⟨node', ho, ht⟩ := takeRecords_start node p cnt [] hn
    rw [List.append_nil] at ht
    refine .inl ⟨t, rest, node', rfl, hn, ho, parseRecords_of_records (records_space t) ?_ rest ht⟩
    have h1 := serialize_length t
    have h2 := sizeOf'_eq t
    have h3 := leavesOf_pos t
    rw [List.length_append] at hf
    rw [records_length]; omega
  · refine .inr ⟨hx, ?_⟩
    cases hp : parseRecords fuel bs node (HeaderParse.start p cnt) with
    | more n1 h1 => exact absurd hp parseRecords_ne_more
    | malformed n1 h1 => exact ⟨n1, h1, rfl⟩
    | complete n1 h1 r1 =>
      obtain ⟨is, rest, rfl, ht⟩ := parseRecords_complete hp
      obtain ⟨t, js, rfl, hn, -⟩ := takeRecords_start_complete ht
      exact absurd ⟨t, js.flatMap encode ++ rest, by simp [serialize], hn⟩ hx

end Sys2Proof.Machine
end

