-- ==== Sys2Proof/Laws/Arena.lean ====
section
/-! SUPPORT. The arena and the tree it holds: entries, leaves, and the well-formed tree of 10_state R41. -/

namespace Sys2Proof.Machine

/-- Entry `i` of the arena is the root of the tree `t`, and `is` are the entries of that tree, in pre-order. -/
def Spans (node : NodeTable) : Nat → Tree → List Nat → Prop
  | i, .leaf v, is => i < 511 ∧ (nodeAt node i).kind = .leaf ∧ (nodeAt node i).sym = v ∧ is = [i]
  | i, .node l r, is =>
    i < 511 ∧ (nodeAt node i).kind = .internal ∧
      ∃ ls rs, Spans node (nodeAt node i).left.toNat l ls ∧ Spans node (nodeAt node i).right.toNat r rs ∧
        is = i :: (ls ++ rs)

theorem Spans.root_mem {node : NodeTable} {i : Nat} {t : Tree} {is : List Nat} (h : Spans node i t is) :
    i ∈ is := by
  cases t with
  | leaf v => obtain ⟨-, -, -, rfl⟩ := h; simp
  | node l r => obtain ⟨-, -, ls, rs, -, -, rfl⟩ := h; simp

theorem Spans.congr {node node' : NodeTable} {i : Nat} {t : Tree} {is : List Nat} (h : Spans node i t is)
    (he : ∀ j ∈ is, nodeAt node' j = nodeAt node j) : Spans node' i t is := by
  induction t generalizing i is with
  | leaf v =>
    obtain ⟨h1, h2, h3, rfl⟩ := h
    have e := he i (by simp)
    exact ⟨h1, by rw [e]; exact h2, by rw [e]; exact h3, rfl⟩
  | node l r ihl ihr =>
    obtain ⟨h1, h2, ls, rs, hl, hr, rfl⟩ := h
    have e := he i (by simp)
    refine ⟨h1, by rw [e]; exact h2, ls, rs, ?_, ?_, rfl⟩
    · rw [e]; exact ihl hl fun j hj => he j (by simp [hj])
    · rw [e]; exact ihr hr fun j hj => he j (by simp [hj])

theorem Spans.at {node : NodeTable} {i d : Nat} {t : Tree} {is : List Nat} (h : Spans node i t is)
    (hd : depthOf t < d) : treeAt node d i = some t ∧ entriesAt node d i = some is := by
  induction t generalizing i is d with
  | leaf v =>
    obtain ⟨d, rfl⟩ : ∃ e, d = e + 1 := ⟨d - 1, by omega⟩
    obtain ⟨h1, h2, h3, rfl⟩ := h
    rw [treeAt, entriesAt, if_pos h1, if_pos h1, h2]
    simp [h3]
  | node l r ihl ihr =>
    obtain ⟨d, rfl⟩ : ∃ e, d = e + 1 := ⟨d - 1, by omega⟩
    rw [depthOf] at hd
    obtain ⟨h1, h2, ls, rs, hl, hr, rfl⟩ := h
    obtain ⟨l1, l2⟩ := ihl (d := d) hl (by omega)
    obtain ⟨r1, r2⟩ := ihr (d := d) hr (by omega)
    rw [treeAt, entriesAt, if_pos h1, if_pos h1, h2]
    simp [l1, l2, r1, r2]

theorem spans_of_treeAt {node : NodeTable} {d i : Nat} {t : Tree} (h : treeAt node d i = some t) :
    ∃ is, Spans node i t is ∧ depthOf t < d := by
  induction d generalizing i t with
  | zero => cases h
  | succ d ih =>
    rw [treeAt] at h
    split at h
    · next hi =>
      split at h
      · next hk => cases h; exact ⟨[i], ⟨hi, hk, rfl, rfl⟩, by simp [depthOf]⟩
      · next hk =>
        split at h
        · next l r hl hr =>
          cases h
          obtain ⟨ls, l1, l2⟩ := ih hl
          obtain ⟨rs, r1, r2⟩ := ih hr
          exact ⟨i :: (ls ++ rs), ⟨hi, hk, ls, rs, l1, r1, rfl⟩, by rw [depthOf]; omega⟩
        · cases h
        · cases h
    · cases h

theorem treeAt_of_entriesAt {node : NodeTable} {d i : Nat} {is : List Nat}
    (h : entriesAt node d i = some is) : ∃ t, treeAt node d i = some t := by
  induction d generalizing i is with
  | zero => cases h
  | succ d ih =>
    rw [entriesAt] at h
    rw [treeAt]
    split at h
    · next hi =>
      rw [if_pos hi]
      cases hk : (nodeAt node i).kind with
      | leaf => simp only; exact ⟨_, rfl⟩
      | internal =>
        simp only [hk] at h
        simp only
        split at h
        · next ls rs hl hr =>
          obtain ⟨l, hl⟩ := ih hl
          obtain ⟨r, hr⟩ := ih hr
          exact ⟨.node l r, by simp only [hl, hr]⟩
        · cases h
        · cases h
    · cases h

/-- The leaves of a tree are the leaf entries of its span, in order. -/
theorem Spans.leaves {node : NodeTable} {i : Nat} {t : Tree} {is : List Nat} (h : Spans node i t is) :
    (is.filter (fun j => (nodeAt node j).kind == .leaf)).map (fun j => (nodeAt node j).sym) = leavesOf t := by
  induction t generalizing i is with
  | leaf v => obtain ⟨-, h2, h3, rfl⟩ := h; simp [h2, h3, leavesOf]
  | node l r ihl ihr =>
    obtain ⟨-, h2, ls, rs, hl, hr, rfl⟩ := h
    rw [List.filter_cons_of_neg (by rw [h2]; decide), List.filter_append, List.map_append, ihl hl, ihr hr,
      leavesOf]

theorem Spans.length {node : NodeTable} {i : Nat} {t : Tree} {is : List Nat} (h : Spans node i t is) :
    is.length = sizeOf' t := by
  induction t generalizing i is with
  | leaf v => obtain ⟨-, -, -, rfl⟩ := h; rfl
  | node l r ihl ihr =>
    obtain ⟨-, -, ls, rs, hl, hr, rfl⟩ := h
    simp [sizeOf', ihl hl, ihr hr]

/-- A tree that spans exactly the entries in use, with distinct leaves, is well formed (10_state R41). -/
theorem wellFormedTree_of_spans {s : State} {t : Tree} {is : List Nat} (h : Spans s.node s.root.toNat t is)
    (hp : is.Perm (List.range s.nnodes.toNat)) (hn : (leavesOf t).Nodup)
    (hl : s.nleaf.toNat = (leavesOf t).length) : WellFormedTree s ∧ s.tree? = some t := by
  have hlen := leaves_nodup_le _ hn
  have hd := depthOf_lt t
  have hsz := sizeOf'_eq t
  have hpos := leavesOf_pos t
  have hns : s.nnodes.toNat = sizeOf' t := by rw [← h.length, hp.length_eq, List.length_range]
  obtain ⟨h1, h2⟩ := h.at (d := maxFrames) (show depthOf t < 256 by omega)
  have hf : (s.leafEntries.map (fun i => (nodeAt s.node i).sym)).Perm (leavesOf t) := by
    rw [← h.leaves]
    exact ((hp.filter _).map _).symm
  refine ⟨⟨by omega, by omega, ?_, ⟨is, h2, hp⟩, ?_, hf.nodup_iff.2 hn⟩, h1⟩
  · exact List.mem_range.1 (hp.mem_iff.1 h.root_mem)
  · rw [hl, ← hf.length_eq, List.length_map]

/-- The tree of a well-formed arena (10_state R41, R42). -/
theorem WellFormedTree.spans {s : State} (w : WellFormedTree s) :
    ∃ t is, Spans s.node s.root.toNat t is ∧ is.Perm (List.range s.nnodes.toNat) ∧ s.tree? = some t ∧
      (leavesOf t).Nodup ∧ (leavesOf t).length = s.nleaf.toNat := by
  obtain ⟨is, he, hp⟩ := w.reached
  obtain ⟨t, ht⟩ := treeAt_of_entriesAt he
  obtain ⟨is', hs, hd⟩ := spans_of_treeAt ht
  obtain ⟨-, he'⟩ := hs.at hd
  rw [he] at he'
  cases he'
  have hf : (s.leafEntries.map (fun i => (nodeAt s.node i).sym)).Perm (leavesOf t) := by
    rw [← hs.leaves]
    exact ((hp.filter _).map _).symm
  refine ⟨t, is, hs, hp, ht, hf.nodup_iff.1 w.leaves.2, ?_⟩
  rw [← hf.length_eq, List.length_map, w.leaves.1]

theorem WellFormedTree.tree {s : State} (w : WellFormedTree s) :
    ∃ t, s.tree? = some t ∧ (leavesOf t).Nodup ∧ (leavesOf t).length = s.nleaf.toNat := by
  obtain ⟨t, -, -, -, h⟩ := w.spans
  exact ⟨t, h⟩

/-- Well-formedness looks at the arena and its registers alone. -/
theorem WellFormedTree.congr {s u : State} (w : WellFormedTree s) (h1 : u.node = s.node)
    (h2 : u.root = s.root) (h3 : u.nnodes = s.nnodes) (h4 : u.nleaf = s.nleaf) : WellFormedTree u := by
  have e : u.leafEntries = s.leafEntries := by simp [State.leafEntries, h1, h3]
  obtain ⟨w1, w2, w3, w4, w5⟩ := w
  exact ⟨by rwa [h4], by rwa [h3, h4], by rwa [h2, h3], by rwa [h1, h2, h3], by rw [e, h1, h4]; exact w5⟩

theorem tree?_congr {s u : State} (h1 : u.node = s.node) (h2 : u.root = s.root) : u.tree? = s.tree? := by
  rw [State.tree?, State.tree?, h1, h2]

/-! ## The pre-order arena of `TreeRead()` -/

theorem PreOrderAt.spans {node : NodeTable} {t : Tree} {k : Nat} (h : PreOrderAt node k t)
    (hk : k + sizeOf' t ≤ 511) : Spans node k t (List.range' k (sizeOf' t)) := by
  induction t generalizing k with
  | leaf v =>
    have h : nodeAt node k = ⟨.leaf, v, 0, 0, 0⟩ := h
    simp only [sizeOf'] at hk
    exact ⟨by omega, by rw [h], by rw [h], rfl⟩
  | node l r ihl ihr =>
    obtain ⟨h1, h2, h3⟩ := h
    rw [sizeOf'] at hk
    have := sizeOf'_pos r
    refine ⟨by omega, by rw [h1], List.range' (k + 1) (sizeOf' l),
      List.range' (k + 1 + sizeOf' l) (sizeOf' r), ?_, ?_, ?_⟩
    · rw [h1, BitVec.toNat_ofNat, Nat.mod_eq_of_lt (by omega)]; exact ihl h2 (by omega)
    · rw [h1, BitVec.toNat_ofNat, Nat.mod_eq_of_lt (by omega)]; exact ihr h3 (by omega)
    · simp only [sizeOf']
      rw [List.range'_succ, List.range'_append_1]

/-- The weights of a tree that was read are 0 (10_state R22). -/
theorem PreOrderAt.weights {node : NodeTable} {t : Tree} {k : Nat} (h : PreOrderAt node k t) :
    ∀ j, k ≤ j → j < k + sizeOf' t → (nodeAt node j).weight = 0 := by
  induction t generalizing k with
  | leaf v =>
    intro j h1 h2
    have h : nodeAt node k = ⟨.leaf, v, 0, 0, 0⟩ := h
    rw [sizeOf'] at h2
    rw [show j = k by omega, h]
  | node l r ihl ihr =>
    intro j h1 h2
    obtain ⟨e, hl, hr⟩ := h
    rw [sizeOf'] at h2
    by_cases c : j = k
    · rw [c, e]
    by_cases c' : j < k + 1 + sizeOf' l
    · exact ihl hl j (by omega) c'
    · exact ihr hr j (by omega) (by omega)

/-- What `TreeRead()` commits is a well-formed tree (10_state R41, 43_tree_codec R146). -/
theorem wellFormedTree_commitHeader {node : NodeTable} {t : Tree} {p : Nat} {cnt : Word} (s : State)
    (h : PreOrderAt node 0 t) (hn : (leavesOf t).Nodup) :
    WellFormedTree (commitHeader node ((HeaderParse.start p cnt).past t) 0 s) ∧
      (commitHeader node ((HeaderParse.start p cnt).past t) 0 s).tree? = some t := by
  have hlen := leaves_nodup_le _ hn
  have hsz := sizeOf'_eq t
  have hnn : ((HeaderParse.start p cnt).past t).nn = sizeOf' t := by simp [HeaderParse.past, HeaderParse.start]
  have hnl : ((HeaderParse.start p cnt).past t).nl = (leavesOf t).length := by
    simp [HeaderParse.past, HeaderParse.start]
  refine wellFormedTree_of_spans (is := List.range' 0 (sizeOf' t)) ?_ ?_ hn ?_
  · rw [commitHeader_node, commitHeader_root]
    exact h.spans (by omega)
  · rw [commitHeader_nnodes, hnn, BitVec.toNat_ofNat, Nat.mod_eq_of_lt (by omega), List.range_eq_range']
  · rw [commitHeader_nleaf, hnl, BitVec.toNat_ofNat, Nat.mod_eq_of_lt (by omega)]

/-- `TreeRead()` from the start of IN: it succeeds exactly on a header, and then commits its count and its tree
(43_tree_codec R146, R147). -/
theorem treeReadFromStart_cases (s : State) :
    (∃ cnt t rest node, s.inputBytes = headerBytes cnt t ++ rest ∧ (leavesOf t).Nodup ∧ PreOrderAt node 0 t ∧
      treeReadFromStart s = .ok (commitHeader node ((HeaderParse.start 4 cnt).past t) 0
        { s with
          iptr := 0, treeValid := false, codeValid := false, parsing := true
          parser := HeaderParse.start 4 cnt })) ∨
    ((¬ ∃ cnt t rest, s.inputBytes = headerBytes cnt t ++ rest ∧ (leavesOf t).Nodup) ∧
      ∃ node parser parsing, treeReadFromStart s = .raised .malformedTree
        { s with
          iptr := 0, treeValid := false, codeValid := false, node := node, parser := parser
          parsing := parsing }) := by
  have hin : ({ s with iptr := 0 } : State).inputBytes = s.inputBytes := inputBytes_congr rfl rfl rfl
  have hz : BitVec.toNat (0 : Word) = 0 := rfl
  rw [treeReadFromStart, treeRead, beginHeader]
  simp only [hin, hz, List.drop_zero, Nat.zero_add]
  split
  · -- fewer than 4 bytes
    next hb =>
    split at hb
    · cases hb
    · next hne =>
      refine .inr ⟨?_, s.node, s.parser, s.parsing, rfl⟩
      rintro ⟨cnt, t, rest, e, -⟩
      rw [headerBytes, be32] at e
      exact hne _ _ _ _ _ e
  · next s1 hb =>
    split at hb
    · next b0 b1 b2 b3 bs e =>
      cases hb
      rw [runHeader]
      have hr : ({ s with
          iptr := 0, treeValid := false, codeValid := false, parsing := true
          parser := HeaderParse.start 4 (unBE32 b0 b1 b2 b3) } : State).streamRest = bs := by
        have hi : ∀ u : State, u.inMem = s.inMem → u.inLen = s.inLen → u.freeIdx = s.freeIdx →
            u.inputBytes = b0 :: b1 :: b2 :: b3 :: bs := fun u h1 h2 h3 => (inputBytes_congr h1 h2 h3).trans e
        exact congrArg (List.drop 4) (hi _ rfl rfl rfl)
      rw [hr]
      simp only
      rcases parseRecords_start (Nat.le_succ bs.length) s.node 4 (unBE32 b0 b1 b2 b3) with
        ⟨t, rest, node', h1, h2, h3, h4⟩ | ⟨h1, node', h', h2⟩
      · rw [h4]
        refine .inl ⟨unBE32 b0 b1 b2 b3, t, rest, node', ?_, h2, h3, rfl⟩
        rw [e, headerBytes, be32_unBE32, h1]; rfl
      · rw [h2]
        refine .inr ⟨?_, node', h', true, rfl⟩
        rintro ⟨cnt, t, rest, e', hn⟩
        refine h1 ⟨t, rest, ?_, hn⟩
        rw [e, headerBytes, be32] at e'
        simp only [List.cons_append, List.nil_append, List.cons.injEq] at e'
        exact e'.2.2.2.2
    · cases hb

end Sys2Proof.Machine
end

