-- ==== Sys2Proof/Laws/BitStream.lean ====
section
/-! SUPPORT. The bit-stream codec: what the packer emits, and what the decoder reads. -/

namespace Sys2Proof.Machine

/-! ## Bits of bytes -/

theorem byteBits_length (b : Byte) : (byteBits b).length = 8 := by simp [byteBits]

theorem flatMap_byteBits_length (bs : List Byte) : (bs.flatMap byteBits).length = 8 * bs.length := by
  induction bs with
  | nil => rfl
  | cons b bs ih => simp [byteBits_length, ih]; omega

/-- Bit `k` of a byte sequence stands in byte `k / 8` at bit `7 - k % 8` (20_memory R68). -/
theorem flatMap_byteBits_getElem? (bs : List Byte) (k : Nat) :
    (bs.flatMap byteBits)[k]? = (bs[k / 8]?).map (fun b => b.getLsbD (7 - k % 8)) := by
  induction bs generalizing k with
  | nil => simp
  | cons b bs ih =>
    rw [List.flatMap_cons, List.getElem?_append, byteBits_length]
    by_cases h : k < 8
    · rw [if_pos h, Nat.div_eq_of_lt h, Nat.mod_eq_of_lt h]
      simp [byteBits, h]
    · rw [if_neg h, ih, show k / 8 = (k - 8) / 8 + 1 by omega, List.getElem?_cons_succ,
        show k % 8 = (k - 8) % 8 by omega]

/-! ## The packer -/

/-- The low `n` bits of a byte, the highest of them first. -/
def lowBits (n : Nat) (a : Byte) : List Bool := (List.range n).map (fun k => a.getLsbD (n - 1 - k))

theorem lowBits_concat {n : Nat} (hn : n < 8) (a : Byte) (c : Bool) :
    lowBits (n + 1) ((a.setWidth 7).concat c) = lowBits n a ++ [c] := by
  rw [lowBits, List.range_succ, List.map_append, lowBits]
  congr 1
  · refine List.map_congr_left fun k hk => ?_
    have hk := List.mem_range.1 hk
    rw [show n + 1 - 1 - k = (n - 1 - k) + 1 by omega, BitVec.getLsbD_concat_succ, BitVec.getLsbD_setWidth]
    simp [show n - 1 - k < 7 by omega]
  · simp [BitVec.getLsbD_concat]

/-- The packer holds exactly the bits it was given. -/
structure Packer.Holds (p : Packer) (bits : List Bool) : Prop where
  content : p.out.flatMap byteBits ++ lowBits p.nb p.acc = bits
  nbSmall : p.nb < 8
  total : p.total = bits.length

theorem Packer.start_holds : Packer.start.Holds [] := ⟨rfl, by decide, rfl⟩

theorem Packer.push_holds {p : Packer} {bits : List Bool} (h : p.Holds bits) (c : Bool) :
    (p.push c).Holds (bits ++ [c]) := by
  obtain ⟨hc, hn, ht⟩ := h
  have key := lowBits_concat hn p.acc c
  rw [Packer.push]
  by_cases e : p.nb + 1 = 8
  · rw [if_pos e]
    refine ⟨?_, Nat.zero_lt_succ 7, by simp [ht]⟩
    have : byteBits ((p.acc.setWidth 7).concat c) = lowBits p.nb p.acc ++ [c] := by
      rw [← key, e]; rfl
    simp [lowBits, this, ← hc]
  · rw [if_neg e]
    exact ⟨by simp only [key, ← hc, List.append_assoc], by simpa using by omega, by simp [ht]⟩

theorem Packer.pushAll_holds {p : Packer} {bits : List Bool} (h : p.Holds bits) (cs : List Bool) :
    (p.pushAll cs).Holds (bits ++ cs) := by
  induction cs generalizing p bits with
  | nil => simpa [Packer.pushAll] using h
  | cons c cs ih =>
    have := ih (Packer.push_holds h c)
    simpa [Packer.pushAll] using this

theorem Packer.pushAll_append (p : Packer) (cs ds : List Bool) :
    p.pushAll (cs ++ ds) = (p.pushAll cs).pushAll ds := by
  simp [Packer.pushAll, List.foldl_append]

/-- The emitted bytes: the bits in order, then zeros up to a byte boundary (30_encoding R93, R94). -/
theorem Packer.flush_bits {p : Packer} {bits : List Bool} (h : p.Holds bits) :
    p.flush.flatMap byteBits = bits ++ List.replicate ((8 - bits.length % 8) % 8) false := by
  obtain ⟨hc, hn, -⟩ := h
  have hl : bits.length % 8 = p.nb := by
    rw [← hc, List.length_append, flatMap_byteBits_length]; simp [lowBits]; omega
  rw [Packer.flush, hl]
  by_cases e : p.nb = 0
  · rw [if_neg (by simpa using e), e, ← hc, e]; simp [lowBits]
  · rw [if_pos e, List.flatMap_append, ← hc, List.append_assoc]
    congr 1
    simp only [List.flatMap_cons, List.flatMap_nil, List.append_nil]
    refine List.ext_getElem (by simp [byteBits, lowBits]; omega) fun i h1 h2 => ?_
    rw [byteBits_length] at h1
    simp only [byteBits, List.getElem_map, List.getElem_range, List.getElem_append, lowBits, List.length_map,
      List.length_range, BitVec.getLsbD_shiftLeft, List.getElem_replicate]
    by_cases hi : i < p.nb
    · rw [dif_pos hi]
      simp [show 7 - i < 8 by omega, show ¬ 7 - i < 8 - p.nb by omega,
        show 7 - i - (8 - p.nb) = p.nb - 1 - i by omega]
    · rw [dif_neg hi]
      simp [show 7 - i < 8 - p.nb by omega]

theorem Packer.flush_length {p : Packer} {bits : List Bool} (h : p.Holds bits) :
    p.flush.length = (bits.length + 7) / 8 := by
  have := congrArg List.length (Packer.flush_bits h)
  rw [flatMap_byteBits_length, List.length_append, List.length_replicate] at this
  omega

theorem packBytes_of_present {code : CodeTable} (single : Bool) (vs : List Byte) (p : Packer)
    (h : ∀ v ∈ vs, (codeAt code v).present = true) :
    packBytes code single vs p =
      (true, if single then p else p.pushAll (vs.flatMap (fun v => (codeAt code v).path))) := by
  induction vs generalizing p with
  | nil => cases single <;> simp [packBytes, Packer.pushAll]
  | cons v vs ih =>
    rw [packBytes, if_pos (h v List.mem_cons_self), ih _ fun w hw => h w (List.mem_cons_of_mem _ hw)]
    cases single
    · simp [Packer.pushAll_append]
    · simp

theorem packBytes_ends_iff {code : CodeTable} (single : Bool) (vs : List Byte) (p : Packer) :
    (packBytes code single vs p).1 = true ↔ ∀ v ∈ vs, (codeAt code v).present = true := by
  induction vs generalizing p with
  | nil => simp [packBytes]
  | cons v vs ih =>
    rw [packBytes]
    split
    · next h => simp [ih, h]
    · next h => simp [h]

/-! ## The decoder -/

theorem advance_iterate (n p u : Nat) :
    BitPos.advance^[n] ⟨p, 0, u⟩ = ⟨p + n / 8, n % 8, u + n⟩ := by
  induction n with
  | zero => rfl
  | succ n ih =>
    rw [Function.iterate_succ_apply', ih]
    change (if n % 8 + 1 = 8 then BitPos.mk (p + n / 8 + 1) 0 (u + n + 1)
      else BitPos.mk (p + n / 8) (n % 8 + 1) (u + n + 1)) = _
    split
    · simp only [BitPos.mk.injEq]; omega
    · simp only [BitPos.mk.injEq]; omega

theorem byteEnd_iterate (n p u : Nat) :
    (BitPos.advance^[n] ⟨p, 0, u⟩).byteEnd = p + (n + 7) / 8 := by
  rw [advance_iterate]
  change (if n % 8 ≠ 0 then p + n / 8 + 1 else p + n / 8) = _
  split <;> omega

/-- The symbol loop in the arena is the reading of symbols from the abstract tree (44_bitstream R166). -/
theorem decodeSymbols_eq {t : NodeTable} {tr : Tree} {d : Nat} {root : Index}
    (h : treeAt t d root.toNat = some tr) (n : Nat) (r : DecodeRun) (he : r.enough = true) :
    match readSymbols tr n r.bits with
    | none => ∃ r', decodeSymbols t root n r = r' ∧ r'.enough = false ∧ r'.bits = []
    | some (vs, rest) =>
      ∃ c q p, decodeSymbols t root n r = ⟨c, rest, q, r.out ++ vs, true⟩ ∧ r.bits = p ++ rest ∧
        q = BitPos.advance^[p.length] r.pos := by
  induction n generalizing r with
  | zero =>
    obtain ⟨c, b, q, o, e⟩ := r
    exact ⟨c, q, [], by simp_all [decodeSymbols], rfl, rfl⟩
  | succ n ih =>
    rw [readSymbols, decodeSymbols]
    have hw := walkDown_eq (out := r.out) h r.bits r.pos
    cases hs : readSymbol tr r.bits with
    | none =>
      simp only [hs] at hw
      obtain ⟨c, q, hw, -⟩ := hw
      exact ⟨_, rfl, by simp [hw], by simp [hw]⟩
    | some x =>
      obtain ⟨v, rest⟩ := x
      simp only [hs] at hw
      obtain ⟨c, q, p, hw, hv, hp, hq⟩ := hw
      simp only [hw, if_true, DecodeRun.emitSymbol, hv]
      have := ih ⟨c, rest, q, r.out ++ [v], true⟩ rfl
      simp only at this
      cases hss : readSymbols tr n rest with
      | none => simpa only [hss] using this
      | some y =>
        obtain ⟨vs, rest'⟩ := y
        simp only [hss] at this
        obtain ⟨c', q', p', h1, h2, h3⟩ := this
        refine ⟨c', q', p ++ p', by simp [h1], by rw [hp, h2, List.append_assoc], ?_⟩
        rw [h3, hq, List.length_append, Nat.add_comm, Function.iterate_add_apply]

/-- `BitDecode()` over an arena that holds a tree: the symbols read from the payload bits, or
TruncatedStreamError (44_bitstream R165, R166). -/
theorem bitDecode_eq {s : State} {tr : Tree} (h : s.tree? = some tr) :
    match readSymbols tr s.symcount.toNat s.payloadBits with
    | none => ∃ s', bitDecode s = .raised .truncatedStream s' ∧
        ∃ c b vs, s' = emitAll { s with bitcount := 0, cur := c, bp := b } vs
    | some (vs, rest) =>
      ∃ c b used, bitDecode s = .ok { emitAll { s with bitcount := 0, cur := c, bp := b } vs with
          iptr := BitVec.ofNat 32 (s.iptr.toNat + (used + 7) / 8), bitcount := BitVec.ofNat 64 used } ∧
        used + rest.length = s.payloadBits.length ∧ rest = s.payloadBits.drop used := by
  have hd := decodeSymbols_eq h s.symcount.toNat ⟨s.cur, s.payloadBits, ⟨s.iptr.toNat, 0, 0⟩, [], true⟩ rfl
  simp only at hd
  cases hr : readSymbols tr s.symcount.toNat s.payloadBits with
  | none =>
    simp only [hr] at hd
    obtain ⟨r', h1, h2, -⟩ := hd
    exact ⟨_, by rw [bitDecode, State.decodeRun, h1]; simp only [h2]; rfl, _, _, _, rfl⟩
  | some x =>
    obtain ⟨vs, rest⟩ := x
    simp only [hr] at hd
    obtain ⟨c, q, p, h1, h2, h3⟩ := hd
    refine ⟨c, BitVec.ofNat 3 (p.length % 8), p.length, ?_, by rw [h2, List.length_append], by rw [h2]; simp⟩
    rw [bitDecode, State.decodeRun, h1]
    simp only [if_true, h3, byteEnd_iterate, List.nil_append]
    simp only [advance_iterate, Nat.zero_add]

end Sys2Proof.Machine
end

