-- ==== Sys2Proof/Laws/TreeBuilder.lean ====
section
/-! SUPPORT. The tree builder: what the queue, the leaf loop and the merge loop do (41_tree_builder R110 to
R121). A forest is a list of (root entry, its tree, the entries it takes up). -/

namespace Sys2Proof.Machine

/-! ## The queue -/

theorem mem_queue {w : BuildWork} {i : Nat} : i ∈ w.queue ↔ w.inq.getLsbD i = true := by
  rw [BuildWork.queue, List.mem_filter, List.mem_range]
  constructor
  · exact fun h => h.2
  · intro h
    refine ⟨?_, h⟩
    by_contra hi
    rw [BitVec.getLsbD_of_ge _ _ (by omega)] at h
    cases h

theorem queue_nodup (w : BuildWork) : w.queue.Nodup := List.nodup_range.filter _

theorem queue_insert {w : BuildWork} {i : Nat} (hi : i < 511) (hn : i ∉ w.queue) :
    (w.insert i).queue.Perm (i :: w.queue) := by
  rw [List.perm_ext_iff_of_nodup (queue_nodup _) (List.nodup_cons.2 ⟨hn, queue_nodup _⟩)]
  intro j
  rw [mem_queue, List.mem_cons, mem_queue, BuildWork.insert]
  simp only [BitVec.getLsbD_or, BitVec.getLsbD_twoPow, Bool.or_eq_true, Bool.and_eq_true,
    decide_eq_true_eq]
  constructor
  · rintro (h | ⟨-, h⟩)
    · exact .inr h
    · exact .inl h.symm
  · rintro (h | h)
    · exact .inr ⟨hi, h.symm⟩
    · exact .inl h

theorem keyLt_iff (a b : Nat × Nat) : keyLt a b = true ↔ a.1 < b.1 ∨ (a.1 = b.1 ∧ a.2 < b.2) := by
  simp [keyLt]

theorem keyLt_total {a b : Nat × Nat} (h : a.2 ≠ b.2) : keyLt a b = true ∨ keyLt b a = true := by
  rw [keyLt_iff, keyLt_iff]; omega

theorem keyLt_trans {a b c : Nat × Nat} (h1 : keyLt a b = true) (h2 : keyLt b c = true) :
    keyLt a c = true := by
  rw [keyLt_iff] at *; omega

theorem keyLt_irrefl (a : Nat × Nat) : keyLt a a = false := by
  simp [keyLt]

/-- The fold of `ExtractMin()` gives one of its indices, of a key not above any other's. -/
theorem lesser_fold (w : BuildWork) (is : List Nat) (i : Nat) :
    is.foldl w.lesser i ∈ i :: is ∧
      ∀ j ∈ i :: is, j = is.foldl w.lesser i ∨ keyLt (w.key (is.foldl w.lesser i)) (w.key j) = true := by
  induction is generalizing i with
  | nil => simp
  | cons k is ih =>
    rw [List.foldl_cons]
    obtain ⟨h1, h2⟩ := ih (w.lesser i k)
    generalize is.foldl w.lesser (w.lesser i k) = m at h1 h2 ⊢
    by_cases hk : keyLt (w.key k) (w.key i) = true
    · rw [BuildWork.lesser, if_pos hk] at h1 h2
      refine ⟨List.mem_cons_of_mem _ h1, fun j hj => ?_⟩
      rcases List.mem_cons.1 hj with rfl | hj
      · rcases h2 k (by simp) with rfl | h
        · exact .inr hk
        · exact .inr (keyLt_trans h hk)
      · exact h2 j hj
    · rw [BuildWork.lesser, if_neg hk] at h1 h2
      refine ⟨?_, fun j hj => ?_⟩
      · rcases List.mem_cons.1 h1 with rfl | h1
        · simp
        · exact List.mem_cons_of_mem _ (List.mem_cons_of_mem _ h1)
      · rcases List.mem_cons.1 hj with rfl | hj
        · exact h2 _ (by simp)
        · rcases List.mem_cons.1 hj with rfl | hj
          · by_cases hji : j = i
            · subst hji; exact h2 _ (by simp)
            · have hik : keyLt (w.key i) (w.key j) = true := by
                rcases keyLt_total (a := w.key i) (b := w.key j) (fun h => hji h.symm) with h | h
                · exact h
                · exact absurd h hk
              rcases h2 i (by simp) with rfl | h
              · exact .inr hik
              · exact .inr (keyLt_trans h hik)
          · exact h2 j (List.mem_cons_of_mem _ hj)

/-- `ExtractMin()` (41_tree_builder R114) on a queue that is not empty. -/
theorem extractMin_spec {w : BuildWork} (h : w.queue ≠ []) :
    ∃ m w', w.extractMin = some (m, w') ∧ m ∈ w.queue ∧
      (∀ j ∈ w.queue, j ≠ m → keyLt (w.key m) (w.key j) = true) ∧
      w'.node = w.node ∧ w'.n = w.n ∧ w'.last = w.last ∧ w.queue.Perm (m :: w'.queue) := by
  cases hq : w.queue with
  | nil => exact absurd hq h
  | cons i is =>
    obtain ⟨h1, h2⟩ := lesser_fold w is i
    refine ⟨is.foldl w.lesser i, { w with inq := w.inq &&& ~~~ (BitVec.twoPow 511 (is.foldl w.lesser i)) },
      ?_, h1, fun j hj hne => ?_, rfl, rfl, rfl, ?_⟩
    · unfold BuildWork.extractMin
      rw [hq]
    · exact (h2 j hj).resolve_left hne
    · rw [← hq] at h1 ⊢
      generalize is.foldl w.lesser i = m at h1 ⊢
      have hm := mem_queue.1 h1
      have hlt : m < 511 := by
        by_contra hc
        rw [BitVec.getLsbD_of_ge _ _ (by omega)] at hm
        cases hm
      have hmem : ∀ j, j ∈ BuildWork.queue { w with inq := w.inq &&& ~~~ (BitVec.twoPow 511 m) } ↔
          j ∈ w.queue ∧ j ≠ m := by
        intro j
        rw [mem_queue, mem_queue]
        simp only [BitVec.getLsbD_and, BitVec.getLsbD_not, BitVec.getLsbD_twoPow, Bool.and_eq_true,
          Bool.not_eq_true', Bool.and_eq_false_iff, decide_eq_true_eq, decide_eq_false_iff_not]
        constructor
        · rintro ⟨a, -, b | b⟩
          · exact absurd hlt b
          · exact ⟨a, fun e => b e.symm⟩
        · rintro ⟨a, b⟩
          refine ⟨a, ?_, .inr fun e => b e.symm⟩
          by_contra hc
          rw [BitVec.getLsbD_of_ge _ _ (by omega)] at a
          cases a
      rw [List.perm_ext_iff_of_nodup (queue_nodup _)
        (List.nodup_cons.2 ⟨fun hc => ((hmem _).1 hc).2 rfl, queue_nodup _⟩)]
      intro j
      rw [List.mem_cons, hmem]
      constructor
      · intro hj
        by_cases e : j = m
        · exact .inl e
        · exact .inr ⟨hj, e⟩
      · rintro (rfl | ⟨hj, -⟩)
        · exact h1
        · exact hj

/-! ## The forest -/

/-- What the arena and the queue hold while `Build()` runs. -/
structure BuildWork.Forest (w : BuildWork) (f : List (Nat × Tree × List Nat)) : Prop where
  roots : w.queue.Perm (f.map (fun x => x.1))
  spans : ∀ x ∈ f, Spans w.node x.1 x.2.1 x.2.2
  entries : (f.flatMap (fun x => x.2.2)).Perm (List.range w.n)
  small : w.n + f.length ≤ 512
  weights : ∀ i < w.n,
    ((nodeAt w.node i).kind = .leaf → (nodeAt w.node i).weight ≠ 0) ∧
    ((nodeAt w.node i).kind = .internal →
      (nodeAt w.node i).left.toNat < w.n ∧ (nodeAt w.node i).right.toNat < w.n ∧
      (nodeAt w.node i).weight =
        (nodeAt w.node (nodeAt w.node i).left.toNat).weight +
          (nodeAt w.node (nodeAt w.node i).right.toNat).weight)

/-- The leaf values of a forest. -/
def forestLeaves (f : List (Nat × Tree × List Nat)) : List Byte := f.flatMap (fun x => leavesOf x.2.1)

/-- The sum of the weights of the roots. -/
def forestWeight (node : NodeTable) (f : List (Nat × Tree × List Nat)) : Word :=
  (f.map (fun x => (nodeAt node x.1).weight)).sum

theorem BuildWork.Forest.perm {w : BuildWork} {f g : List (Nat × Tree × List Nat)} (h : w.Forest f)
    (p : f.Perm g) : w.Forest g where
  roots := h.roots.trans (p.map _)
  spans x hx := h.spans x (p.mem_iff.2 hx)
  entries := (p.flatMap_right _).symm.trans h.entries
  small := by rw [← p.length_eq]; exact h.small
  weights := h.weights

theorem BuildWork.Forest.entry_lt {w : BuildWork} {f : List (Nat × Tree × List Nat)} (h : w.Forest f)
    {x : Nat × Tree × List Nat} (hx : x ∈ f) {i : Nat} (hi : i ∈ x.2.2) : i < w.n :=
  List.mem_range.1 (h.entries.mem_iff.1 (List.mem_flatMap.2 ⟨x, hx, hi⟩))

/-- One turn of the merge loop takes two trees out of a forest of two or more and puts one back. -/
theorem turn_forest {w : BuildWork} {f : List (Nat × Tree × List Nat)} (h : w.Forest f)
    (hl : 2 ≤ f.length) :
    ∃ g, w.turn.Forest g ∧ g.length + 1 = f.length ∧ w.turn.n = w.n + 1 ∧ w.turn.last = w.n ∧
      w.n ∈ w.turn.queue ∧ (forestLeaves g).Perm (forestLeaves f) ∧
      forestWeight w.turn.node g = forestWeight w.node f ∧
      ∀ i < w.n, nodeAt w.turn.node i = nodeAt w.node i := by
  have hq0 : w.queue ≠ [] := by
    intro e
    have := h.roots.length_eq
    rw [e] at this
    simp at this
    omega
  obtain ⟨a, w1, e1, ma, -, n1, c1, l1, p1⟩ := extractMin_spec hq0
  have hq1 : w1.queue ≠ [] := by
    intro e
    have h1 := p1.length_eq
    have h2 := h.roots.length_eq
    rw [e] at h1
    simp at h1 h2
    omega
  obtain ⟨b, w2, e2, mb, -, n2, c2, l2, p2⟩ := extractMin_spec hq1
  have ht : w.turn = w2.merge a b := by
    unfold BuildWork.turn
    rw [e1]; dsimp only; rw [e2]
  -- the two trees
  obtain ⟨x, hx, rfl⟩ := List.mem_map.1 (h.roots.mem_iff.1 ma)
  have pf : f.Perm (x :: f.erase x) := List.perm_cons_erase hx
  generalize f.erase x = f1 at pf
  have hr1 : w1.queue.Perm (f1.map (fun x => x.1)) :=
    (List.perm_cons x.1).1 (p1.symm.trans (h.roots.trans (pf.map _)))
  obtain ⟨y, hy, rfl⟩ := List.mem_map.1 (hr1.mem_iff.1 mb)
  have pf1 : f1.Perm (y :: f1.erase y) := List.perm_cons_erase hy
  generalize f1.erase y = f2 at pf1
  have hr2 : w2.queue.Perm (f2.map (fun x => x.1)) :=
    (List.perm_cons y.1).1 (p2.symm.trans (hr1.trans (pf1.map _)))
  have hF : w.Forest (x :: y :: f2) := h.perm (pf.trans (pf1.cons x))
  have hlen : f.length = f2.length + 2 := by rw [pf.length_eq, List.length_cons, pf1.length_eq]; rfl
  have hn : w2.n = w.n := c2.trans c1
  have hnode : w2.node = w.node := n2.trans n1
  have hsm := hF.small
  have hlt : w.n < 511 := by simp only [List.length_cons] at hsm; omega
  have hx1 : x.1 < w.n := hF.entry_lt (by simp) (hF.spans x (by simp)).root_mem
  have hy1 : y.1 < w.n := hF.entry_lt (by simp) (hF.spans y (by simp)).root_mem
  have hbx : (BitVec.ofNat 9 x.1).toNat = x.1 := by
    rw [BitVec.toNat_ofNat]; exact Nat.mod_eq_of_lt (by omega)
  have hby : (BitVec.ofNat 9 y.1).toNat = y.1 := by
    rw [BitVec.toNat_ofNat]; exact Nat.mod_eq_of_lt (by omega)
  have hold : ∀ i < w.n, nodeAt w.turn.node i = nodeAt w.node i := by
    intro i hi
    rw [ht, BuildWork.merge, BuildWork.insert]
    simp only
    rw [nodeAt_set_other _ (by omega), hnode]
  have hnew : nodeAt w.turn.node w.n = mergedEntry w.node x.1 y.1 := by
    rw [ht, BuildWork.merge, BuildWork.insert]
    simp only
    rw [hn, nodeAt_set_same _ hlt, hnode]
  have hcnt : w.turn.n = w.n + 1 := by rw [ht, BuildWork.merge, BuildWork.insert]; simp only; rw [hn]
  have hlast : w.turn.last = w.n := by rw [ht, BuildWork.merge, BuildWork.insert]; simp only; rw [hn]
  have hnot : w.n ∉ w2.queue := by
    intro hc
    obtain ⟨z, hz, e⟩ := List.mem_map.1 (hr2.mem_iff.1 hc)
    have := hF.entry_lt (x := z) (by simp [hz]) (hF.spans z (by simp [hz])).root_mem
    omega
  have hqt : w.turn.queue.Perm (w.n :: w2.queue) := by
    rw [ht, BuildWork.merge, hn]
    exact queue_insert (w := { w2 with
      node := tableSet w2.node w.n (mergedEntry w2.node x.1 y.1), n := w.n + 1, last := w.n }) hlt hnot
  have hwt : (nodeAt w.turn.node w.n).weight = (nodeAt w.node x.1).weight + (nodeAt w.node y.1).weight := by
    rw [hnew]; rfl
  have hmem : ∀ z ∈ x :: y :: f2, Spans w.turn.node z.1 z.2.1 z.2.2 := fun z hz =>
    (hF.spans z hz).congr fun j hj => hold j (hF.entry_lt hz hj)
  refine ⟨(w.n, .node x.2.1 y.2.1, w.n :: (x.2.2 ++ y.2.2)) :: f2, ⟨?_, ?_, ?_, ?_, ?_⟩, ?_, hcnt, hlast,
    ?_, ?_, ?_, hold⟩
  · exact hqt.trans (hr2.cons w.n)
  · intro z hz
    rcases List.mem_cons.1 hz with rfl | hz
    · refine ⟨hlt, by rw [hnew]; rfl, x.2.2, y.2.2, ?_, ?_, rfl⟩
      · rw [hnew]
        change Spans _ (BitVec.ofNat 9 x.1).toNat _ _
        rw [hbx]
        exact hmem x (by simp)
      · rw [hnew]
        change Spans _ (BitVec.ofNat 9 y.1).toNat _ _
        rw [hby]
        exact hmem y (by simp)
    · exact hmem z (by simp [hz])
  · rw [hcnt, List.range_succ]
    have := hF.entries
    simp only [List.flatMap_cons, List.cons_append] at this ⊢
    rw [List.append_assoc]
    exact (this.cons w.n).trans (List.perm_append_singleton _ _).symm
  · rw [hcnt]; simp only [List.length_cons] at hsm ⊢; omega
  · intro i hi
    rw [hcnt] at hi ⊢
    rcases Nat.lt_succ_iff_lt_or_eq.1 hi with hi | rfl
    · rw [hold i hi]
      refine ⟨(hF.weights i hi).1, fun hk => ?_⟩
      obtain ⟨h1, h2, h3⟩ := (hF.weights i hi).2 hk
      exact ⟨by omega, by omega, by rw [hold _ h1, hold _ h2]; exact h3⟩
    · rw [hnew]
      refine ⟨fun hk => (by cases hk), fun _ => ?_⟩
      change (BitVec.ofNat 9 x.1).toNat < _ ∧ (BitVec.ofNat 9 y.1).toNat < _ ∧
        (nodeAt w.node x.1).weight + (nodeAt w.node y.1).weight =
          (nodeAt w.turn.node (BitVec.ofNat 9 x.1).toNat).weight +
            (nodeAt w.turn.node (BitVec.ofNat 9 y.1).toNat).weight
      rw [hbx, hby, hold _ hx1, hold _ hy1]
      exact ⟨by omega, by omega, rfl⟩
  · simp only [List.length_cons]; omega
  · exact hqt.mem_iff.2 (by simp)
  · refine List.Perm.trans ?_ ((pf.trans (pf1.cons x)).flatMap_right _).symm
    simp only [forestLeaves, List.flatMap_cons, leavesOf, List.append_assoc]
    exact List.Perm.refl _
  · have hp := (pf.trans (pf1.cons x)).map (fun x => (nodeAt w.node x.1).weight)
    have hm : f2.map (fun z => (nodeAt w.turn.node z.1).weight) = f2.map (fun z => (nodeAt w.node z.1).weight) :=
      List.map_congr_left fun z hz => by
        rw [hold _ (hF.entry_lt (x := z) (by simp [hz]) (hF.spans z (by simp [hz])).root_mem)]
    unfold forestWeight
    rw [hp.sum_eq, List.map_cons, List.sum_cons, hm, hwt, List.map_cons, List.map_cons, List.sum_cons,
      List.sum_cons, add_assoc]

/-- The merge loop, once for each leaf but one, leaves one tree. -/
theorem turns_forest {k : Nat} {w : BuildWork} {f : List (Nat × Tree × List Nat)} (h : w.Forest f)
    (hl : f.length = k + 1) (h0 : k = 0 → w.last ∈ w.queue ∧ w.last + 1 = w.n) :
    ∃ t is, (BuildWork.turns k w).Forest [((BuildWork.turns k w).last, t, is)] ∧
      (BuildWork.turns k w).n = w.n + k ∧
      (BuildWork.turns k w).last + 1 = (BuildWork.turns k w).n ∧ (leavesOf t).Perm (forestLeaves f) ∧
      (nodeAt (BuildWork.turns k w).node (BuildWork.turns k w).last).weight = forestWeight w.node f ∧
      ∀ i < w.n, nodeAt (BuildWork.turns k w).node i = nodeAt w.node i := by
  induction k generalizing w f with
  | zero =>
    obtain ⟨x, rfl⟩ := List.length_eq_one_iff.1 hl
    obtain ⟨h1, h2⟩ := h0 rfl
    have he : w.last = x.1 := by simpa using h.roots.mem_iff.1 h1
    refine ⟨x.2.1, x.2.2, ?_, rfl, h2, ?_, ?_, fun _ _ => rfl⟩
    · rw [BuildWork.turns, he]; exact h
    · simp [forestLeaves]
    · simp [forestWeight, BuildWork.turns, he]
  | succ k ih =>
    obtain ⟨g, hg, hgl, hn, hlast, hq, hv, hw, ho⟩ := turn_forest h (by omega)
    obtain ⟨t, is, a1, a2, a3, a4, a5, a6⟩ := ih hg (by omega) (fun _ => ⟨by rw [hlast]; exact hq, by omega⟩)
    refine ⟨t, is, a1, ?_, a3, a4.trans hv, a5.trans hw, fun i hi => ?_⟩
    · rw [BuildWork.turns, a2, hn]; omega
    · rw [BuildWork.turns, a6 i (by omega), ho i hi]

/-! ## The leaf loop -/

/-- The leaf of a byte value (41_tree_builder R111). -/
def leafFor (freq : FreqTable) (b : Byte) : NodeEntry := ⟨.leaf, b, freqAt freq b, 0, 0⟩

/-- What the leaf loop has done after the byte values `bs` (41_tree_builder R111). -/
theorem addLeaves (freq : FreqTable) (bs : List Nat) (w : BuildWork) (hq : w.queue.Perm (List.range w.n))
    (hs : w.n + bs.length ≤ 511) :
    let ls := (bs.map (BitVec.ofNat 8)).filter (fun b => freqAt freq b != 0)
    let w' := bs.foldl (BuildWork.addLeaf freq) w
    w'.queue.Perm (List.range w'.n) ∧ w'.n = w.n + ls.length ∧ w'.last = w.last ∧
      (∀ i < w.n, nodeAt w'.node i = nodeAt w.node i) ∧
      (∀ i (h : i < ls.length), nodeAt w'.node (w.n + i) = leafFor freq ls[i]) ∧
      ∀ i, w.n + ls.length ≤ i → nodeAt w'.node i = nodeAt w.node i := by
  induction bs generalizing w with
  | nil => exact ⟨hq, rfl, rfl, fun _ _ => rfl, fun i h => absurd h (by simp), fun _ _ => rfl⟩
  | cons b bs ih =>
    simp only [List.length_cons] at hs
    rw [List.map_cons, List.foldl_cons]
    by_cases hb : freqAt freq (BitVec.ofNat 8 b) = 0
    · rw [List.filter_cons_of_neg (by simp [hb]),
        show BuildWork.addLeaf freq w b = w by rw [BuildWork.addLeaf, if_pos hb]]
      exact ih w hq (by omega)
    · rw [List.filter_cons_of_pos (by simpa using hb)]
      have hnot : w.n ∉ w.queue := fun hc => by have := List.mem_range.1 (hq.mem_iff.1 hc); omega
      set w1 := BuildWork.addLeaf freq w b with hw1
      rw [BuildWork.addLeaf, if_neg hb] at hw1
      have hn1 : w1.n = w.n + 1 := by rw [hw1]; rfl
      have hl1 : w1.last = w.last := by rw [hw1]; rfl
      have hd1 : w1.node = tableSet w.node w.n (leafFor freq (BitVec.ofNat 8 b)) := by rw [hw1]; rfl
      have hq1 : w1.queue.Perm (List.range w1.n) := by
        rw [hn1, List.range_succ]
        refine List.Perm.trans ?_ ((hq.cons w.n).trans (List.perm_append_singleton _ _).symm)
        rw [hw1]
        exact queue_insert (w := { w with node := _, n := w.n + 1 }) (by omega) hnot
      obtain ⟨a1, a2, a3, a4, a5, a6⟩ := ih w1 hq1 (by omega)
      refine ⟨a1, ?_, a3.trans hl1, fun i hi => ?_, fun i hi => ?_, fun i hi => ?_⟩
      · rw [a2, hn1, List.length_cons]; omega
      · rw [a4 i (by omega), hd1, nodeAt_set_other _ (by omega)]
      · cases i with
        | zero =>
          rw [Nat.add_zero, a4 w.n (by omega), hd1, nodeAt_set_same _ (by omega)]; rfl
        | succ i =>
          have hi' := hi
          rw [List.length_cons] at hi'
          have := a5 i (by omega)
          rw [hn1] at this
          rw [show w.n + (i + 1) = w.n + 1 + i by omega, this, List.getElem_cons_succ]
      · rw [List.length_cons] at hi
        rw [a6 i (by omega), hd1, nodeAt_set_other _ (by omega)]

/-- The arena and the queue when the merge loop begins (41_tree_builder R111). -/
theorem loadLeaves_spec (freq : FreqTable) (node : NodeTable) :
    let w := loadLeaves freq ⟨node, 0, 0, 0⟩
    w.queue.Perm (List.range w.n) ∧ w.n = (presentBytes freq).length ∧ w.last = 0 ∧
      (∀ i (h : i < (presentBytes freq).length), nodeAt w.node i = leafFor freq (presentBytes freq)[i]) ∧
      ∀ i, (presentBytes freq).length ≤ i → nodeAt w.node i = nodeAt node i := by
  have hq : BuildWork.queue ⟨node, 0, 0, 0⟩ = [] := by
    rw [List.eq_nil_iff_forall_not_mem]
    intro j hj
    have := mem_queue.1 hj
    simp at this
  obtain ⟨a1, a2, a3, -, a5, a6⟩ := addLeaves freq (List.range 256) ⟨node, 0, 0, 0⟩ (by rw [hq]; rfl)
    (by simp)
  refine ⟨a1, ?_, a3, fun i h => ?_, fun i h => ?_⟩
  · rw [loadLeaves, a2]; exact Nat.zero_add _
  · have := a5 i h
    rw [Nat.zero_add] at this
    exact this
  · exact a6 i (by rw [Nat.zero_add]; exact h)

theorem presentBytes_nodup (freq : FreqTable) : (presentBytes freq).Nodup := by
  refine List.Nodup.filter _ ?_
  rw [List.nodup_map_iff_inj_on List.nodup_range]
  intro a ha b hb e
  have := congrArg BitVec.toNat e
  rw [List.mem_range] at ha hb
  simpa [Nat.mod_eq_of_lt ha, Nat.mod_eq_of_lt hb] using this

theorem mem_presentBytes {freq : FreqTable} {b : Byte} : b ∈ presentBytes freq ↔ freqAt freq b ≠ 0 := by
  rw [presentBytes, List.mem_filter]
  constructor
  · intro h; simpa using h.2
  · intro h
    refine ⟨List.mem_map.2 ⟨b.toNat, List.mem_range.2 b.isLt, by simp⟩, by simpa using h⟩

theorem presentBytes_le (freq : FreqTable) : (presentBytes freq).length ≤ 256 :=
  leaves_nodup_le _ (presentBytes_nodup freq)

/-- The sum of the counts of the present bytes is the sum of all counts. -/
theorem sum_presentBytes (freq : FreqTable) :
    ((presentBytes freq).map (freqAt freq)).sum = BitVec.ofNat 32 (totalCount freq) := by
  rw [presentBytes, totalCount]
  generalize (List.range 256).map (BitVec.ofNat 8) = bs
  induction bs with
  | nil => rfl
  | cons b bs ih =>
    rw [List.map_cons, List.sum_cons, BitVec.ofNat_add, BitVec.ofNat_toNat, BitVec.setWidth_eq, ← ih]
    by_cases hb : freqAt freq b = 0
    · rw [List.filter_cons_of_neg (by simp [hb]), hb]
      exact (zero_add _).symm
    · rw [List.filter_cons_of_pos (by simpa using hb), List.map_cons, List.sum_cons]

/-- `Build()` on a table with a count other than 0 (41_tree_builder R117, R121). -/
theorem build_spec (s : State) (h : presentBytes s.freq ≠ []) :
    ∃ node inq root t, build s = .ok
        { s with
          treeValid := true, codeValid := false, inq := inq, node := node
          nleaf := BitVec.ofNat 9 (presentBytes s.freq).length
          nnodes := BitVec.ofNat 10 (2 * (presentBytes s.freq).length - 1), root := root } ∧
      root.toNat + 1 = 2 * (presentBytes s.freq).length - 1 ∧
      (∃ is, Spans node root.toNat t is ∧
        is.Perm (List.range (2 * (presentBytes s.freq).length - 1))) ∧
      (leavesOf t).Perm (presentBytes s.freq) ∧
      (∀ i (h : i < (presentBytes s.freq).length),
        nodeAt node i = leafFor s.freq (presentBytes s.freq)[i]) ∧
      (nodeAt node root.toNat).weight = BitVec.ofNat 32 (totalCount s.freq) ∧
      ∀ i < 2 * (presentBytes s.freq).length - 1,
        ((nodeAt node i).kind = .leaf → (nodeAt node i).weight ≠ 0) ∧
        ((nodeAt node i).kind = .internal →
          (nodeAt node i).weight =
            (nodeAt node (nodeAt node i).left.toNat).weight +
              (nodeAt node (nodeAt node i).right.toNat).weight) := by
  obtain ⟨hq, hn, hl, hlv, -⟩ := loadLeaves_spec s.freq s.node
  set w := loadLeaves s.freq ⟨s.node, 0, 0, 0⟩ with hw
  have hpos : 0 < (presentBytes s.freq).length := List.length_pos_iff.2 h
  have hle := presentBytes_le s.freq
  -- the forest of single leaves
  let f : List (Nat × Tree × List Nat) :=
    (List.range w.n).map (fun i => (i, .leaf ((presentBytes s.freq).getD i 0), [i]))
  have hf : w.Forest f := by
    refine ⟨?_, ?_, ?_, ?_, ?_⟩
    · rw [show f.map (fun x => x.1) = List.range w.n by simp [f, Function.comp_def]]
      exact hq
    · intro x hx
      obtain ⟨i, hi, rfl⟩ := List.mem_map.1 hx
      rw [List.mem_range] at hi
      refine ⟨by omega, ?_, ?_, rfl⟩
      · rw [hlv i (by omega)]; rfl
      · rw [hlv i (by omega), List.getD_eq_getElem _ _ (by omega)]; rfl
    · rw [show f.flatMap (fun x => x.2.2) = List.range w.n by
        simp [f, List.flatMap_map, List.flatMap_singleton']]
    · simp [f]; omega
    · intro i hi
      rw [hlv i (by omega)]
      refine ⟨fun _ => ?_, fun hk => by cases hk⟩
      exact mem_presentBytes.1 (List.getElem_mem _)
  have hfl : f.length = (w.n - 1) + 1 := by simp [f]; omega
  obtain ⟨t, is, b1, b2, b3, b4, b5, b6⟩ := turns_forest hf hfl (fun h0 => by
    refine ⟨?_, by omega⟩
    rw [hq.mem_iff, hl, List.mem_range]; omega)
  set w' := BuildWork.turns (w.n - 1) w with hw'
  have hn' : w'.n = 2 * (presentBytes s.freq).length - 1 := by omega
  have hroot : (BitVec.ofNat 9 w'.last).toNat = w'.last := by
    rw [BitVec.toNat_ofNat]; exact Nat.mod_eq_of_lt (by omega)
  refine ⟨w'.node, w'.inq, BitVec.ofNat 9 w'.last, t, ?_, by omega, ⟨is, ?_, ?_⟩, ?_, ?_, ?_, ?_⟩
  · rw [build]
    simp only [← hw, ← hw']
    rw [if_neg (by omega), hn, hn']
  · rw [hroot]; exact b1.spans (w'.last, t, is) (List.mem_singleton.2 rfl)
  · rw [← hn']; simpa using b1.entries
  · refine b4.trans (List.Perm.of_eq ?_)
    rw [forestLeaves, List.flatMap_map]
    simp only [leavesOf]
    rw [← List.map_eq_flatMap]
    refine List.ext_getElem (by simp [hn]) fun i h1 h2 => ?_
    rw [List.getElem_map, List.getElem_range, List.getD_eq_getElem _ _ h2]
  · intro i hi
    rw [b6 i (by omega), hlv i hi]
  · have hm : f.map (fun x => (nodeAt w.node x.1).weight) = (presentBytes s.freq).map (freqAt s.freq) := by
      refine List.ext_getElem (by rw [List.length_map, List.length_map, List.length_range, List.length_map, hn]) fun i h1 h2 => ?_
      rw [List.length_map] at h2
      rw [List.getElem_map, List.getElem_map, List.getElem_map, List.getElem_range, hlv i h2]
      rfl
    rw [hroot, b5, ← sum_presentBytes, ← hm]
    rfl
  · intro i hi
    rw [← hn'] at hi
    exact ⟨(b1.weights i hi).1, fun hk => ((b1.weights i hi).2 hk).2.2⟩

/-- `Build()` on a table of zeros (41_tree_builder R119). -/
theorem build_empty (s : State) (h : presentBytes s.freq = []) :
    build s = .raised .emptyNodeSet { s with treeValid := false, codeValid := false, inq := 0 } := by
  obtain ⟨-, hn, -⟩ := loadLeaves_spec s.freq s.node
  rw [h] at hn
  rw [build]
  simp only
  rw [if_pos (show (loadLeaves s.freq ⟨s.node, 0, 0, 0⟩).n = 0 from hn)]

/-! ## What was in the arena before does not matter (41_tree_builder R122) -/

/-- The same work over two arenas that agree on the entries in use. -/
structure BuildWork.Agrees (w v : BuildWork) : Prop where
  inq : w.inq = v.inq
  n : w.n = v.n
  last : w.last = v.last
  node : ∀ i < w.n, nodeAt w.node i = nodeAt v.node i
  inUse : ∀ i ∈ w.queue, i < w.n
  small : w.n ≤ 511

theorem BuildWork.Agrees.queue {w v : BuildWork} (h : w.Agrees v) : w.queue = v.queue := by
  unfold BuildWork.queue
  rw [h.inq]

theorem lesser_agrees {w v : BuildWork} (h : w.Agrees v) {i j : Nat} (hi : i < w.n) (hj : j < w.n) :
    w.lesser i j = v.lesser i j := by
  unfold BuildWork.lesser BuildWork.key
  rw [h.node i hi, h.node j hj]

theorem lesser_lt {w : BuildWork} {i j : Nat} (hi : i < w.n) (hj : j < w.n) : w.lesser i j < w.n := by
  unfold BuildWork.lesser
  split
  · exact hj
  · exact hi

theorem lesser_fold_agrees {w v : BuildWork} (h : w.Agrees v) (is : List Nat) (i : Nat) (hi : i < w.n)
    (his : ∀ j ∈ is, j < w.n) : is.foldl w.lesser i = is.foldl v.lesser i := by
  induction is generalizing i with
  | nil => rfl
  | cons k is ih =>
    have hk := his k (by simp)
    rw [List.foldl_cons, List.foldl_cons, ← lesser_agrees h hi hk]
    exact ih _ (lesser_lt hi hk) fun j hj => his j (by simp [hj])

theorem extractMin_nil {w : BuildWork} (h : w.queue = []) : w.extractMin = none := by
  unfold BuildWork.extractMin
  rw [h]

theorem extractMin_cons {w : BuildWork} {i : Nat} {is : List Nat} (h : w.queue = i :: is) :
    w.extractMin = some (is.foldl w.lesser i,
      { w with inq := w.inq &&& ~~~ (BitVec.twoPow 511 (is.foldl w.lesser i)) }) := by
  unfold BuildWork.extractMin
  rw [h]

theorem extractMin_agrees {w v : BuildWork} (h : w.Agrees v) :
    (w.extractMin = none ∧ v.extractMin = none) ∨
      ∃ m w' v', w.extractMin = some (m, w') ∧ v.extractMin = some (m, v') ∧ w'.Agrees v' ∧ m < w.n ∧
        w'.n = w.n := by
  cases hq : w.queue with
  | nil => exact .inl ⟨extractMin_nil hq, extractMin_nil (h.queue ▸ hq)⟩
  | cons i is =>
    have hlt : ∀ j ∈ i :: is, j < w.n := fun j hj => h.inUse j (hq ▸ hj)
    have e := lesser_fold_agrees h is i (hlt i (by simp)) fun j hj => hlt j (by simp [hj])
    refine .inr ⟨is.foldl w.lesser i, _,
      { v with inq := v.inq &&& ~~~ (BitVec.twoPow 511 (is.foldl v.lesser i)) }, extractMin_cons hq, ?_, ?_,
      hlt _ (lesser_fold w is i).1, rfl⟩
    · rw [e]; exact extractMin_cons (h.queue ▸ hq)
    · refine ⟨?_, h.n, h.last, h.node, ?_, h.small⟩
      · change w.inq &&& _ = v.inq &&& _
        rw [h.inq, e]
      · intro j hj
        refine h.inUse j (mem_queue.2 ?_)
        have := mem_queue.1 hj
        simp only [BitVec.getLsbD_and, Bool.and_eq_true] at this
        exact this.1

theorem turn_agrees {w v : BuildWork} (h : w.Agrees v) (hn : w.n < 511) :
    w.turn.Agrees v.turn ∧ w.turn.n ≤ w.n + 1 := by
  unfold BuildWork.turn
  rcases extractMin_agrees h with ⟨a, b⟩ | ⟨m, w1, v1, a, b, h1, m1, n1⟩
  · rw [a, b]; exact ⟨h, Nat.le_succ w.n⟩
  · rw [a, b]
    dsimp only
    rcases extractMin_agrees h1 with ⟨a, b⟩ | ⟨k, w2, v2, a, b, h2, m2, n2⟩
    · rw [a, b]; exact ⟨h, Nat.le_succ w.n⟩
    · rw [a, b]
      dsimp only
      have e1 := h2.node m (by omega)
      have e2 := h2.node k (by omega)
      refine ⟨⟨?_, ?_, ?_, ?_, ?_, ?_⟩, ?_⟩
      · change w2.inq ||| BitVec.twoPow 511 w2.n = v2.inq ||| BitVec.twoPow 511 v2.n
        rw [h2.inq, h2.n]
      · exact congrArg (· + 1) h2.n
      · exact h2.n
      · intro i hi
        change nodeAt (tableSet w2.node w2.n _) i = nodeAt (tableSet v2.node v2.n _) i
        rw [← h2.n]
        by_cases hi' : w2.n = i
        · subst hi'
          rw [nodeAt_set_same _ (by omega), nodeAt_set_same _ (by omega), mergedEntry, mergedEntry, e1, e2]
        · rw [nodeAt_set_other _ hi', nodeAt_set_other _ hi']
          refine h2.node i ?_
          have : i < w2.n + 1 := hi
          omega
      · intro j hj
        have := mem_queue.1 hj
        change (w2.inq ||| BitVec.twoPow 511 w2.n).getLsbD j = true at this
        simp only [BitVec.getLsbD_or, BitVec.getLsbD_twoPow, Bool.or_eq_true, Bool.and_eq_true,
          decide_eq_true_eq] at this
        change j < w2.n + 1
        rcases this with this | ⟨-, this⟩
        · exact Nat.lt_succ_of_lt (h2.inUse j (mem_queue.2 this))
        · omega
      · change w2.n + 1 ≤ 511; omega
      · change w2.n + 1 ≤ w.n + 1; omega

theorem turns_agree {k : Nat} {w v : BuildWork} (h : w.Agrees v) (hn : w.n + k ≤ 511) :
    (BuildWork.turns k w).Agrees (BuildWork.turns k v) := by
  induction k generalizing w v with
  | zero => exact h
  | succ k ih =>
    obtain ⟨h1, h2⟩ := turn_agrees h (by omega)
    exact ih h1 (by omega)

theorem addLeaves_same (freq : FreqTable) (bs : List Nat) (w v : BuildWork) (h1 : w.inq = v.inq)
    (h2 : w.n = v.n) (h3 : w.last = v.last) :
    (bs.foldl (BuildWork.addLeaf freq) w).inq = (bs.foldl (BuildWork.addLeaf freq) v).inq ∧
      (bs.foldl (BuildWork.addLeaf freq) w).n = (bs.foldl (BuildWork.addLeaf freq) v).n ∧
      (bs.foldl (BuildWork.addLeaf freq) w).last = (bs.foldl (BuildWork.addLeaf freq) v).last := by
  induction bs generalizing w v with
  | nil => exact ⟨h1, h2, h3⟩
  | cons b bs ih =>
    rw [List.foldl_cons, List.foldl_cons]
    refine ih _ _ ?_ ?_ ?_ <;> unfold BuildWork.addLeaf <;> split
    · exact h1
    · change w.inq ||| BitVec.twoPow 511 w.n = v.inq ||| BitVec.twoPow 511 v.n
      rw [h1, h2]
    · exact h2
    · exact congrArg (· + 1) h2
    · exact h3
    · exact h3

/-- The loops of `Build()` over two arenas: they agree on all entries in use. -/
theorem build_loops_agree (freq : FreqTable) (node node' : NodeTable) :
    let w := loadLeaves freq ⟨node, 0, 0, 0⟩
    let v := loadLeaves freq ⟨node', 0, 0, 0⟩
    (BuildWork.turns (w.n - 1) w).Agrees (BuildWork.turns (v.n - 1) v) ∧ w.n = v.n := by
  obtain ⟨q, n, -, lv, -⟩ := loadLeaves_spec freq node
  obtain ⟨-, n', -, lv', -⟩ := loadLeaves_spec freq node'
  obtain ⟨e1, e2, e3⟩ := addLeaves_same freq (List.range 256) ⟨node, 0, 0, 0⟩ ⟨node', 0, 0, 0⟩ rfl rfl rfl
  have hle := presentBytes_le freq
  refine ⟨?_, e2⟩
  rw [← show (loadLeaves freq ⟨node, 0, 0, 0⟩).n = (loadLeaves freq ⟨node', 0, 0, 0⟩).n from e2]
  refine turns_agree ⟨e1, e2, e3, fun i hi => ?_, fun i hi => List.mem_range.1 (q.mem_iff.1 hi), ?_⟩ ?_
  · rw [lv i (by omega), lv' i (by omega)]
  · omega
  · omega

/-! ## What the merge loop merges -/

theorem keyBelow_of_keyLt {w : BuildWork} {i j : Nat} (h : keyLt (w.key i) (w.key j) = true) :
    KeyBelow w.node i j := by
  rw [keyLt_iff] at h
  exact h.imp BitVec.lt_def.2 (fun e => ⟨BitVec.eq_of_toNat_eq e.1, e.2⟩)

/-- A merge is the same one in an arena that agrees with its own up to the entry it makes. -/
theorem MergesTheLeast.congr {t t' : NodeTable} {k : Nat} (h : MergesTheLeast t k)
    (e : ∀ i ≤ k, nodeAt t' i = nodeAt t i) : MergesTheLeast t' k := by
  have hk := e k (Nat.le_refl k)
  have hw : ∀ i, WaitsAt t' k i ↔ WaitsAt t k i := fun i => and_congr_right fun _ =>
    forall₂_congr fun j hj => by rw [e j (Nat.le_of_lt hj)]
  have hb : ∀ i j, WaitsAt t k i → WaitsAt t k j → KeyBelow t i j → KeyBelow t' i j := fun i j hi hj h => by
    rw [KeyBelow, e i (Nat.le_of_lt hi.1), e j (Nat.le_of_lt hj.1)]; exact h
  obtain ⟨h1, h2, h3, h4, h5, h6⟩ := h
  refine ⟨?_, ?_, ?_, ?_, ?_, ?_⟩ <;> rw [hk]
  · rw [e _ (Nat.le_of_lt h2.1), e _ (Nat.le_of_lt h3.1)]; exact h1
  · exact (hw _).2 h2
  · exact (hw _).2 h3
  · exact fun j hj hne => hb _ _ h2 ((hw _).1 hj) (h4 j ((hw _).1 hj) hne)
  · exact h5
  · exact fun j hj h1 h2 => hb _ _ h3 ((hw _).1 hj) (h6 j ((hw _).1 hj) h1 h2)

/-- The queue holds the waiting entries, and links lead to entries that are made. -/
structure BuildWork.QueueWaits (w : BuildWork) : Prop where
  queued : ∀ i, i ∈ w.queue ↔ WaitsAt w.node w.n i
  links : ∀ j < w.n, (nodeAt w.node j).kind = .internal →
    (nodeAt w.node j).left.toNat < w.n ∧ (nodeAt w.node j).right.toNat < w.n

/-- One turn of the merge loop on a queue of two entries or more. -/
theorem turn_merges {w : BuildWork} (h : w.QueueWaits) (hn : w.n < 511) (hl : 2 ≤ w.queue.length) :
    w.turn.n = w.n + 1 ∧ (∀ i, i ≠ w.n → nodeAt w.turn.node i = nodeAt w.node i) ∧
      MergesTheLeast w.turn.node w.n ∧ w.turn.QueueWaits ∧ w.turn.queue.length + 1 = w.queue.length := by
  obtain ⟨hq, hc⟩ := h
  obtain ⟨a, w1, e1, ma, la, n1, c1, -, p1⟩ :=
    extractMin_spec (w := w) (List.length_pos_iff.1 (by omega))
  have hp1 := p1.length_eq
  rw [List.length_cons] at hp1
  obtain ⟨b, w2, e2, mb, lb, n2, c2, -, p2⟩ :=
    extractMin_spec (w := w1) (List.length_pos_iff.1 (by omega))
  have hp2 := p2.length_eq
  rw [List.length_cons] at hp2
  have ht : w.turn = w2.merge a b := by
    unfold BuildWork.turn; rw [e1]; dsimp only; rw [e2]
  have hcn : w2.n = w.n := c2.trans c1
  have hnode : w2.node = w.node := n2.trans n1
  have hd1 : (a :: w1.queue).Nodup := p1.nodup_iff.1 (queue_nodup w)
  have hd2 : (b :: w2.queue).Nodup := p2.nodup_iff.1 (queue_nodup w1)
  have hab : b ≠ a := fun e => (List.nodup_cons.1 hd1).1 (e ▸ mb)
  have m1 : ∀ j, j ∈ w1.queue ↔ j ∈ w.queue ∧ j ≠ a := fun j => by
    rw [p1.mem_iff, List.mem_cons]
    exact ⟨fun h => ⟨.inr h, fun e => (List.nodup_cons.1 hd1).1 (e ▸ h)⟩, fun h => h.1.resolve_left h.2⟩
  have m2 : ∀ j, j ∈ w2.queue ↔ j ∈ w.queue ∧ j ≠ a ∧ j ≠ b := fun j => by
    rw [← and_assoc, ← m1, p2.mem_iff, List.mem_cons]
    exact ⟨fun h => ⟨.inr h, fun e => (List.nodup_cons.1 hd2).1 (e ▸ h)⟩, fun h => h.1.resolve_left h.2⟩
  have wa := (hq a).1 ma
  have hbq := ((m1 b).1 mb).1
  have wb := (hq b).1 hbq
  have hta : (BitVec.ofNat 9 a).toNat = a := by
    rw [BitVec.toNat_ofNat]; exact Nat.mod_eq_of_lt (by have := wa.1; omega)
  have htb : (BitVec.ofNat 9 b).toNat = b := by
    rw [BitVec.toNat_ofNat]; exact Nat.mod_eq_of_lt (by have := wb.1; omega)
  have hold : ∀ i, i ≠ w.n → nodeAt w.turn.node i = nodeAt w.node i := fun i hi => by
    rw [ht, BuildWork.merge, BuildWork.insert]
    dsimp only
    rw [hcn, nodeAt_set_other _ hi.symm, hnode]
  have hnew : nodeAt w.turn.node w.n = mergedEntry w.node a b := by
    rw [ht, BuildWork.merge, BuildWork.insert]
    dsimp only
    rw [hcn, nodeAt_set_same _ hn, hnode]
  have hcnt : w.turn.n = w.n + 1 := by rw [ht, BuildWork.merge, BuildWork.insert]; dsimp only; rw [hcn]
  have hnl : (nodeAt w.turn.node w.n).left.toNat = a := by rw [hnew]; exact hta
  have hnr : (nodeAt w.turn.node w.n).right.toNat = b := by rw [hnew]; exact htb
  have hnot : w.n ∉ w2.queue := fun hc => by
    have := ((hq _).1 ((m2 _).1 hc).1).1; omega
  have hqt : w.turn.queue.Perm (w.n :: w2.queue) := by
    rw [ht, BuildWork.merge, hcn]
    exact queue_insert (w := { w2 with
      node := tableSet w2.node w.n (mergedEntry w2.node a b), n := w.n + 1, last := w.n }) hn hnot
  have hw : ∀ i, WaitsAt w.turn.node w.n i ↔ WaitsAt w.node w.n i := fun i => and_congr_right fun _ =>
    forall₂_congr fun j hj => by rw [hold j (by omega)]
  have hb : ∀ i j, i < w.n → j < w.n → KeyBelow w.node i j → KeyBelow w.turn.node i j := fun i j hi hj h => by
    rw [KeyBelow, hold i (by omega), hold j (by omega)]; exact h
  refine ⟨hcnt, hold, ⟨?_, ?_, ?_, ?_, ?_, ?_⟩, ⟨fun i => ?_, ?_⟩, ?_⟩
  · rw [hnl, hnr, hold a (by have := wa.1; omega), hold b (by have := wb.1; omega), hnew]; rfl
  · rw [hnl]; exact (hw _).2 wa
  · rw [hnr]; exact (hw _).2 wb
  · rw [hnl]
    exact fun j hj hne => hb _ _ wa.1 hj.1 (keyBelow_of_keyLt (la j ((hq j).2 ((hw j).1 hj)) hne))
  · intro e
    have := congrArg BitVec.toNat e
    rw [hnl, hnr] at this
    exact hab this
  · rw [hnl, hnr]
    intro j hj h1 h2
    have := lb j ((m1 j).2 ⟨(hq j).2 ((hw j).1 hj), h1⟩) h2
    refine hb _ _ wb.1 hj.1 ?_
    rw [← n1]; exact keyBelow_of_keyLt this
  · rw [hqt.mem_iff, List.mem_cons, m2, hq, hcnt]
    constructor
    · rintro (rfl | ⟨h, ha, hb⟩)
      · refine ⟨by omega, fun j hj hk => ?_⟩
        by_cases e : j = w.n
        · subst e; rw [hnl, hnr]; have := wa.1; have := wb.1; omega
        · rw [hold j e] at hk ⊢
          have := hc j (by omega) hk
          omega
      · refine ⟨by have := h.1; omega, fun j hj hk => ?_⟩
        by_cases e : j = w.n
        · subst e; rw [hnl, hnr]; exact ⟨fun e => ha e.symm, fun e => hb e.symm⟩
        · exact ((hw i).2 h).2 j (by omega) hk
    · rintro ⟨h1, h2⟩
      by_cases e : i = w.n
      · exact .inl e
      · have hx := h2 w.n (by omega) (by rw [hnew]; rfl)
        rw [hnl, hnr] at hx
        exact .inr ⟨(hw i).1 ⟨by omega, fun j hj hk => h2 j (by omega) hk⟩,
          fun e => hx.1 e.symm, fun e => hx.2 e.symm⟩
  · intro j hj hk
    rw [hcnt] at hj ⊢
    by_cases e : j = w.n
    · subst e; rw [hnl, hnr]; have := wa.1; have := wb.1; omega
    · rw [hold j e] at hk ⊢
      have := hc j (by omega) hk
      omega
  · rw [hqt.length_eq, List.length_cons]; omega

/-- The merge loop: each entry it makes merges the two waiting entries of least keys. -/
theorem turns_merges {k : Nat} {w : BuildWork} (h : w.QueueWaits) (hn : w.n + k ≤ 511)
    (hl : w.queue.length = k + 1) :
    (∀ i < w.n, nodeAt (BuildWork.turns k w).node i = nodeAt w.node i) ∧
      ∀ m < k, MergesTheLeast (BuildWork.turns k w).node (w.n + m) := by
  induction k generalizing w with
  | zero => exact ⟨fun _ _ => rfl, fun _ h => absurd h (by omega)⟩
  | succ k ih =>
    obtain ⟨h1, h2, h3, h4, h5⟩ := turn_merges h (by omega) (by omega)
    obtain ⟨i1, i2⟩ := ih h4 (by omega) (by omega)
    refine ⟨fun i hi => ?_, fun m hm => ?_⟩
    · rw [BuildWork.turns, i1 i (by omega), h2 i (by omega)]
    · rw [BuildWork.turns]
      cases m with
      | zero => exact h3.congr fun i hi => i1 i (by omega)
      | succ m =>
        have := i2 m (by omega)
        rw [h1] at this
        rwa [show w.n + (m + 1) = w.n + 1 + m by omega]

/-- The merges of `Build()` (41_tree_builder R112, R114, R115, R117). -/
theorem build_merges {s s' : State} (h : build s = .ok s') :
    ∀ m < (presentBytes s.freq).length - 1, MergesTheLeast s'.node ((presentBytes s.freq).length + m) := by
  obtain ⟨hq, hn, -, hlv, -⟩ := loadLeaves_spec s.freq s.node
  have hle := presentBytes_le s.freq
  have hlen := hq.length_eq
  rw [List.length_range] at hlen
  unfold build at h
  dsimp only at h
  split at h
  · cases h
  · next hne =>
    cases h
    intro m hm
    have hw : (loadLeaves s.freq ⟨s.node, 0, 0, 0⟩).QueueWaits := by
      have hleaf : ∀ j < (loadLeaves s.freq ⟨s.node, 0, 0, 0⟩).n,
          (nodeAt (loadLeaves s.freq ⟨s.node, 0, 0, 0⟩).node j).kind ≠ .internal := fun j hj => by
        rw [hlv j (by omega)]; exact fun e => by cases e
      exact ⟨fun i => by
        rw [hq.mem_iff, List.mem_range]
        exact ⟨fun hi => ⟨hi, fun j hj hk => absurd hk (hleaf j hj)⟩, fun hi => hi.1⟩,
        fun j hj hk => absurd hk (hleaf j hj)⟩
    have := (turns_merges (k := (loadLeaves s.freq ⟨s.node, 0, 0, 0⟩).n - 1) hw (by omega) (by omega)).2 m
      (by omega)
    rwa [hn] at this ⊢

end Sys2Proof.Machine
end

