-- ==== Sys2Proof/Laws/Procedures.lean ====
section
/-! SUPPORT. How a command ends, and what each procedure may write: `P_ok` says it where `P` returns, `P_raised`
where it raises (10_state R56). -/

namespace Sys2Proof.Machine

/-- A command that leaves a next state ended by its precondition, its epilogue or a raise. -/
theorem runCommand_next {pre : State → Bool} {body : State → ProcResult} {s t : State}
    (h : runCommand pre body s = .next t) :
    (pre (prologue s) = false ∧ t = raise .illegalCommand (prologue s)) ∨
      (pre (prologue s) = true ∧
        ((∃ u, body (prologue s) = .ok u ∧ t = epilogue u) ∨
          ∃ e u, body (prologue s) = .raised e u ∧ t = raise e u)) := by
  unfold runCommand at h
  split at h
  · next hp =>
    refine .inr ⟨hp, ?_⟩
    unfold endCommand at h
    split at h
    · next u hu => cases h; exact .inl ⟨u, hu, rfl⟩
    · next e u hu => cases h; exact .inr ⟨e, u, hu, rfl⟩
    · cases h
  · next hp => cases h; exact .inl ⟨by simpa using hp, rfl⟩

theorem runCommand_ok {pre : State → Bool} {body : State → ProcResult} {s u : State}
    (hp : pre (prologue s) = true) (hb : body (prologue s) = .ok u) :
    runCommand pre body s = .next (epilogue u) := by
  rw [runCommand, if_pos hp, hb]; rfl

theorem runCommand_raised {pre : State → Bool} {body : State → ProcResult} {s u : State} {e : ErrorKind}
    (hp : pre (prologue s) = true) (hb : body (prologue s) = .raised e u) :
    runCommand pre body s = .next (raise e u) := by
  rw [runCommand, if_pos hp, hb]; rfl

theorem andThen_ok {r : ProcResult} {f : State → ProcResult} {u : State} (h : r.andThen f = .ok u) :
    ∃ v, r = .ok v ∧ f v = .ok u := by
  cases r with
  | ok v => exact ⟨v, rfl, h⟩
  | raised _ _ => cases h
  | stuck _ => cases h

theorem andThen_raised {r : ProcResult} {f : State → ProcResult} {u : State} {e : ErrorKind}
    (h : r.andThen f = .raised e u) : r = .raised e u ∨ ∃ v, r = .ok v ∧ f v = .raised e u := by
  cases r with
  | ok v => exact .inr ⟨v, rfl, h⟩
  | raised _ _ => exact .inl h
  | stuck _ => cases h

/-! ## One procedure at a time -/

theorem count_ok {s u : State} (h : count s = .ok u) :
    s.inLen ≠ 0 ∧ u = { s with
      freq := countBytes (Table.fill Word 256 0) s.inputBytes, symcount := s.inLen, iptr := s.inLen } := by
  unfold count at h
  dsimp only at h
  split at h
  · cases h
  · next hn => cases h; exact ⟨hn, rfl⟩

theorem count_raised {s u : State} {e : ErrorKind} (h : count s = .raised e u) :
    s.inLen = 0 ∧ e = .emptyInput ∧ u = { s with freq := Table.fill Word 256 0, symcount := s.inLen } := by
  unfold count at h
  dsimp only at h
  split at h
  · next hn => cases h; exact ⟨hn, rfl, rfl⟩
  · cases h

theorem build_ok {s u : State} (h : build s = .ok u) :
    presentBytes s.freq ≠ [] ∧ u = { s with
      node := u.node, inq := u.inq, nleaf := u.nleaf, nnodes := u.nnodes, root := u.root
      treeValid := true, codeValid := false } := by
  by_cases hp : presentBytes s.freq = []
  · rw [build_empty s hp] at h; cases h
  · refine ⟨hp, ?_⟩
    obtain ⟨_, _, _, _, e, -⟩ := build_spec s hp
    rw [e] at h
    cases h; rfl

theorem build_raised {s u : State} {e : ErrorKind} (h : build s = .raised e u) :
    presentBytes s.freq = [] ∧ e = .emptyNodeSet ∧
      u = { s with treeValid := false, codeValid := false, inq := 0 } := by
  by_cases hp : presentBytes s.freq = []
  · rw [build_empty s hp] at h; cases h; exact ⟨hp, rfl, rfl⟩
  · obtain ⟨_, _, _, _, e, -⟩ := build_spec s hp
    rw [e] at h
    cases h

theorem derive_ok {s u : State} (h : derive s = .ok u) :
    ∃ t, s.tree? = some t ∧ u = { s with code := codesOf t, codeValid := true } := by
  unfold derive at h
  split at h
  · cases h
  · next t ht => cases h; exact ⟨t, ht, rfl⟩

theorem derive_raised {s u : State} {e : ErrorKind} : derive s ≠ .raised e u := by
  unfold derive
  split <;> exact fun h => by cases h

theorem derive_of_tree {s : State} {t : Tree} (h : s.tree? = some t) :
    derive s = .ok { s with code := codesOf t, codeValid := true } := by
  rw [derive, h]

theorem treeWrite_ok {s u : State} (h : treeWrite s = .ok u) :
    ∃ t, s.tree? = some t ∧ u = emitAll s (headerBytes s.symcount t) := by
  unfold treeWrite at h
  split at h
  · cases h
  · next t ht => cases h; exact ⟨t, ht, rfl⟩

theorem treeWrite_raised {s u : State} {e : ErrorKind} : treeWrite s ≠ .raised e u := by
  unfold treeWrite
  split <;> exact fun h => by cases h

theorem treeWrite_of_tree {s : State} {t : Tree} (h : s.tree? = some t) :
    treeWrite s = .ok (emitAll s (headerBytes s.symcount t)) := by
  rw [treeWrite, h]

theorem treeRead_ok {s u : State} (h : treeReadFromStart s = .ok u) :
    ∃ cnt t rest node, s.inputBytes = headerBytes cnt t ++ rest ∧ (leavesOf t).Nodup ∧
      PreOrderAt node 0 t ∧ u = commitHeader node ((HeaderParse.start 4 cnt).past t) 0
        { s with
          iptr := 0, treeValid := false, codeValid := false, parsing := true
          parser := HeaderParse.start 4 cnt } := by
  rcases treeReadFromStart_cases s with ⟨cnt, t, rest, node, h1, h2, h3, h4⟩ | ⟨-, node, p, q, h4⟩
  · rw [h4] at h; cases h; exact ⟨cnt, t, rest, node, h1, h2, h3, rfl⟩
  · rw [h4] at h; cases h

theorem treeRead_raised {s u : State} {e : ErrorKind} (h : treeReadFromStart s = .raised e u) :
    e = .malformedTree ∧
      (¬ ∃ cnt t rest, s.inputBytes = headerBytes cnt t ++ rest ∧ (leavesOf t).Nodup) ∧
      u = { s with
        iptr := 0, treeValid := false, codeValid := false, node := u.node, parser := u.parser
        parsing := u.parsing } := by
  rcases treeReadFromStart_cases s with ⟨cnt, t, rest, node, h1, h2, h3, h4⟩ | ⟨hn, node, p, q, h4⟩
  · rw [h4] at h; cases h
  · rw [h4] at h; cases h; exact ⟨rfl, hn, rfl⟩

theorem bitEncode_ok {s u : State} (h : bitEncode s = .ok u) :
    (∀ v ∈ s.inputBytes, (codeAt s.code v).present = true) ∧
      u = { s with
        outMem := u.outMem, outLen := u.outLen, bitcount := u.bitcount, iptr := s.inLen, acc := u.acc
        nb := u.nb } := by
  unfold bitEncode at h
  dsimp only at h
  split at h
  · next hp =>
    rw [emitAll_eq] at h
    cases h
    exact ⟨(packBytes_ends_iff _ _ _).1 hp, rfl⟩
  · cases h

theorem bitEncode_raised {s u : State} {e : ErrorKind} (h : bitEncode s = .raised e u) :
    e = .illegalCommand ∧ (¬ ∀ v ∈ s.inputBytes, (codeAt s.code v).present = true) ∧
      u = { s with
        outMem := u.outMem, outLen := u.outLen, bitcount := 0, acc := u.acc, nb := u.nb } := by
  unfold bitEncode at h
  dsimp only at h
  split at h
  · cases h
  · next hp =>
    rw [emitAll_eq] at h
    cases h
    exact ⟨rfl, fun hc => hp ((packBytes_ends_iff _ _ _).2 hc), rfl⟩

theorem bitEncode_not_stuck {s : State} {f : Fault} : bitEncode s ≠ .stuck f := by
  unfold bitEncode
  dsimp only
  split <;> exact fun h => by cases h

theorem bitDecode_ok {s u : State} (h : bitDecode s = .ok u) :
    s.decodeRun.enough = true ∧ u = { s with
      outMem := u.outMem, outLen := u.outLen, bitcount := BitVec.ofNat 64 s.decodeRun.pos.used
      iptr := BitVec.ofNat 32 s.decodeRun.pos.byteEnd, cur := u.cur, bp := u.bp } := by
  unfold bitDecode at h
  dsimp only at h
  split at h
  · next he => rw [emitAll_eq] at h; cases h; exact ⟨he, rfl⟩
  · cases h

theorem bitDecode_raised {s u : State} {e : ErrorKind} (h : bitDecode s = .raised e u) :
    e = .truncatedStream ∧ s.decodeRun.enough = false ∧ u = { s with
      outMem := u.outMem, outLen := u.outLen, bitcount := 0, cur := u.cur, bp := u.bp } := by
  unfold bitDecode at h
  dsimp only at h
  split at h
  · cases h
  · next he => rw [emitAll_eq] at h; cases h; exact ⟨rfl, by simpa using he, rfl⟩

theorem bitDecode_not_stuck {s : State} {f : Fault} : bitDecode s ≠ .stuck f := by
  unfold bitDecode
  dsimp only
  split <;> exact fun h => by cases h

/-! ## The command behind each instruction -/

theorem exec_encode (s : State) : exec .encode s = runCommand needsNothing encodeBody s := rfl
theorem exec_decode (s : State) : exec .decode s = runCommand needsNothing decodeBody s := rfl
theorem exec_count (s : State) : exec .count s = runCommand needsNothing count s := rfl
theorem exec_build (s : State) : exec .build s = runCommand needsNothing build s := rfl
theorem exec_derive (s : State) : exec .derive s = runCommand needsTree derive s := rfl
theorem exec_twrite (s : State) : exec .twrite s = runCommand needsTree treeWrite s := rfl
theorem exec_tread (s : State) : exec .tread s = runCommand needsNothing treeReadFromStart s := rfl
theorem exec_benc (s : State) : exec .benc s = runCommand needsCode bitEncode s := rfl
theorem exec_bdec (s : State) : exec .bdec s = runCommand needsTreeAndPayload bitDecode s := rfl

/-! ## ENCODE in its parts -/

theorem encodeBody_ok {s u : State} (h : encodeBody s = .ok u) :
    ∃ s1 s2 s3 s4, count s = .ok s1 ∧ build s1 = .ok s2
      ∧ derive s2 = .ok s3 ∧ treeWrite s3 = .ok s4 ∧ bitEncode s4 = .ok u := by
  unfold encodeBody at h
  obtain ⟨s4, h, h5⟩ := andThen_ok h
  obtain ⟨s3, h, h4⟩ := andThen_ok h
  obtain ⟨s2, h, h3⟩ := andThen_ok h
  obtain ⟨s1, h, h2⟩ := andThen_ok h
  exact ⟨s1, s2, s3, s4, h, h2, h3, h4, h5⟩

theorem encodeBody_raised {s u : State} {e : ErrorKind} (h : encodeBody s = .raised e u) :
    count s = .raised e u ∨ (∃ s1, count s = .ok s1 ∧ build s1 = .raised e u) ∨
    ∃ s1 s2 s3 s4, count s = .ok s1 ∧ build s1 = .ok s2
      ∧ derive s2 = .ok s3 ∧ treeWrite s3 = .ok s4 ∧ bitEncode s4 = .raised e u := by
  unfold encodeBody at h
  rcases andThen_raised h with h | ⟨s4, h, h5⟩
  · rcases andThen_raised h with h | ⟨s3, h, h4⟩
    · rcases andThen_raised h with h | ⟨s2, h, h3⟩
      · rcases andThen_raised h with h | ⟨s1, h, h2⟩
        · exact .inl h
        · exact .inr (.inl ⟨s1, h, h2⟩)
      · exact absurd h3 derive_raised
    · exact absurd h4 treeWrite_raised
  · obtain ⟨s3, h, h4⟩ := andThen_ok h
    obtain ⟨s2, h, h3⟩ := andThen_ok h
    obtain ⟨s1, h, h2⟩ := andThen_ok h
    exact .inr (.inr ⟨s1, s2, s3, s4, h, h2, h3, h4, h5⟩)

/-! ## What no body writes -/

/-- The fields that no procedure writes: the flags the prologue set, the input, and the host's own. -/
structure KeepsHostSide (s u : State) : Prop where
  busy : u.busy = s.busy
  done : u.done = s.done
  error : u.error = s.error
  inMem : u.inMem = s.inMem
  inLen : u.inLen = s.inLen
  cmd : u.cmd = s.cmd
  host : u.host = s.host
  rdata : u.rdata = s.rdata
  freeIdx : u.freeIdx = s.freeIdx

theorem KeepsHostSide.trans {s t u : State} (a : KeepsHostSide s t) (b : KeepsHostSide t u) : KeepsHostSide s u :=
  ⟨b.1.trans a.1, b.2.trans a.2, b.3.trans a.3, b.4.trans a.4, b.5.trans a.5, b.6.trans a.6, b.7.trans a.7,
    b.8.trans a.8, b.9.trans a.9⟩

theorem count_ok_keeps {s u : State} (h : count s = .ok u) : KeepsHostSide s u := by
  obtain ⟨-, rfl⟩ := count_ok h
  constructor <;> rfl

theorem count_raised_keeps {s u : State} {e : ErrorKind} (h : count s = .raised e u) : KeepsHostSide s u := by
  obtain ⟨-, -, rfl⟩ := count_raised h
  constructor <;> rfl

theorem build_ok_keeps {s u : State} (h : build s = .ok u) : KeepsHostSide s u := by
  obtain ⟨-, h⟩ := build_ok h; rw [h]
  constructor <;> rfl

theorem build_raised_keeps {s u : State} {e : ErrorKind} (h : build s = .raised e u) : KeepsHostSide s u := by
  obtain ⟨-, -, rfl⟩ := build_raised h
  constructor <;> rfl

theorem derive_ok_keeps {s u : State} (h : derive s = .ok u) : KeepsHostSide s u := by
  obtain ⟨_, -, rfl⟩ := derive_ok h
  constructor <;> rfl

theorem treeWrite_ok_keeps {s u : State} (h : treeWrite s = .ok u) : KeepsHostSide s u := by
  obtain ⟨_, -, h⟩ := treeWrite_ok h; rw [h, emitAll_eq]
  constructor <;> rfl

theorem treeRead_ok_keeps {s u : State} (h : treeReadFromStart s = .ok u) : KeepsHostSide s u := by
  obtain ⟨_, _, _, _, -, -, -, rfl⟩ := treeRead_ok h
  constructor <;> rfl

theorem treeRead_raised_keeps {s u : State} {e : ErrorKind} (h : treeReadFromStart s = .raised e u) : KeepsHostSide s u := by
  obtain ⟨-, -, h⟩ := treeRead_raised h; rw [h]
  constructor <;> rfl

theorem bitEncode_ok_keeps {s u : State} (h : bitEncode s = .ok u) : KeepsHostSide s u := by
  obtain ⟨-, h⟩ := bitEncode_ok h; rw [h]
  constructor <;> rfl

theorem bitEncode_raised_keeps {s u : State} {e : ErrorKind} (h : bitEncode s = .raised e u) : KeepsHostSide s u := by
  obtain ⟨-, -, h⟩ := bitEncode_raised h; rw [h]
  constructor <;> rfl

theorem bitDecode_ok_keeps {s u : State} (h : bitDecode s = .ok u) : KeepsHostSide s u := by
  obtain ⟨-, h⟩ := bitDecode_ok h; rw [h]
  constructor <;> rfl

theorem bitDecode_raised_keeps {s u : State} {e : ErrorKind} (h : bitDecode s = .raised e u) : KeepsHostSide s u := by
  obtain ⟨-, -, h⟩ := bitDecode_raised h; rw [h]
  constructor <;> rfl

theorem encodeBody_ok_keeps {s u : State} (h : encodeBody s = .ok u) : KeepsHostSide s u := by
  obtain ⟨_, _, _, _, a, b, c, d, e⟩ := encodeBody_ok h
  exact ((((count_ok_keeps a).trans (build_ok_keeps b)).trans (derive_ok_keeps c)).trans (treeWrite_ok_keeps d)).trans (bitEncode_ok_keeps e)

theorem encodeBody_raised_keeps {s u : State} {e : ErrorKind} (h : encodeBody s = .raised e u) : KeepsHostSide s u := by
  rcases encodeBody_raised h with a | ⟨_, a, b⟩ | ⟨_, _, _, _, a, b, c, d, e⟩
  · exact count_raised_keeps a
  · exact (count_ok_keeps a).trans (build_raised_keeps b)
  · exact ((((count_ok_keeps a).trans (build_ok_keeps b)).trans (derive_ok_keeps c)).trans (treeWrite_ok_keeps d)).trans (bitEncode_raised_keeps e)

theorem decodeBody_ok_keeps {s u : State} (h : decodeBody s = .ok u) : KeepsHostSide s u := by
  obtain ⟨v, a, b⟩ := andThen_ok h
  exact (treeRead_ok_keeps a).trans (bitDecode_ok_keeps b)

theorem decodeBody_raised_keeps {s u : State} {e : ErrorKind} (h : decodeBody s = .raised e u) : KeepsHostSide s u := by
  rcases andThen_raised h with h | ⟨v, a, b⟩
  · exact treeRead_raised_keeps h
  · exact (treeRead_ok_keeps a).trans (bitDecode_raised_keeps b)

/-- Where a command ends: its epilogue or a raise, from a state its body left. -/

theorem exec_next {i : Instr} {s t : State} (hi : i.space = .command) (h : exec i s = .next t) :
   (∃ u, KeepsHostSide (prologue s) u ∧ t = epilogue u) ∨ ∃ e u, KeepsHostSide (prologue s) u ∧ t = raise e u := by
  have hk : KeepsHostSide (prologue s) (prologue s) := by constructor <;> rfl
  cases i <;> try (cases hi; done)
  all_goals
    simp only [exec_encode, exec_decode, exec_count, exec_build, exec_derive, exec_twrite, exec_tread,
      exec_benc, exec_bdec] at h
    rcases runCommand_next h with ⟨-, rfl⟩ | ⟨-, ⟨u, hu, rfl⟩ | ⟨e, u, hu, rfl⟩⟩
    · exact .inr ⟨_, _, hk, rfl⟩
    · refine .inl ⟨u, ?_, rfl⟩
      first
      | exact encodeBody_ok_keeps hu | exact decodeBody_ok_keeps hu | exact count_ok_keeps hu
      | exact build_ok_keeps hu | exact derive_ok_keeps hu | exact treeWrite_ok_keeps hu
      | exact treeRead_ok_keeps hu | exact bitEncode_ok_keeps hu | exact bitDecode_ok_keeps hu
    · refine .inr ⟨e, u, ?_, rfl⟩
      first
      | exact encodeBody_raised_keeps hu | exact decodeBody_raised_keeps hu | exact count_raised_keeps hu
      | exact build_raised_keeps hu | exact absurd hu derive_raised | exact absurd hu treeWrite_raised
      | exact treeRead_raised_keeps hu | exact bitEncode_raised_keeps hu
      | exact bitDecode_raised_keeps hu


end Sys2Proof.Machine
end

