-- ==== Sys2Proof/Laws/Frequency.lean ====
section
/-! SUPPORT. The frequency counter counts (40_frequency R101). -/

namespace Sys2Proof.Machine

theorem freqAt_fill (b : Byte) : freqAt (Table.fill Word 256 0) b = 0 := tableGet_fill _ b.isLt _

theorem freqAt_countByte (t : FreqTable) (v b : Byte) :
    freqAt (countByte t v) b = freqAt t b + (if v = b then 1 else 0) := by
  unfold countByte
  by_cases h : v = b
  · subst h; rw [freqAt_set_same, if_pos rfl]
  · rw [freqAt_set_other _ h, if_neg h]; exact (add_zero _).symm

theorem freqAt_countBytes (t : FreqTable) (vs : List Byte) (b : Byte) :
    freqAt (countBytes t vs) b = freqAt t b + BitVec.ofNat 32 (vs.count b) := by
  induction vs generalizing t with
  | nil => exact (add_zero _).symm
  | cons v vs ih =>
    change freqAt (countBytes (countByte t v) vs) b = _
    rw [ih, freqAt_countByte, List.count_cons, BitVec.ofNat_add, add_assoc]
    congr 1
    rw [add_comm]
    congr 1
    by_cases h : v = b <;> simp [h]

/-- FREQ[b] after `Count()` is the number of input bytes equal to b. -/
theorem freqAt_counted (vs : List Byte) (h : vs.length < 2 ^ 32) (b : Byte) :
    (freqAt (countBytes (Table.fill Word 256 0) vs) b).toNat = vs.count b := by
  rw [freqAt_countBytes, freqAt_fill]
  have := List.count_le_length (a := b) (l := vs)
  rw [show (0 : Word) + BitVec.ofNat 32 (vs.count b) = BitVec.ofNat 32 (vs.count b) from zero_add _,
    BitVec.toNat_ofNat, Nat.mod_eq_of_lt (by omega)]

theorem sum_counts (bs vs : List Byte) (hn : bs.Nodup) (h : ∀ v ∈ vs, v ∈ bs) :
    (bs.map (fun b => vs.count b)).sum = vs.length := by
  induction vs with
  | nil => simp
  | cons v vs ih =>
    simp only [List.count_cons, List.sum_map_add, List.length_cons]
    rw [ih fun u hu => h u (by simp [hu])]
    congr 1
    have hv := h v (by simp)
    clear ih h
    induction bs with
    | nil => cases hv
    | cons b bs ihb =>
      rw [List.map_cons, List.sum_cons]
      obtain ⟨h1, h2⟩ := List.nodup_cons.1 hn
      by_cases hb : v = b
      · subst hb
        have : (bs.map (fun b => if (v == b) = true then 1 else 0)).sum = 0 := by
          rw [List.sum_eq_zero]
          intro x hx
          obtain ⟨c, hc, rfl⟩ := List.mem_map.1 hx
          rw [if_neg]
          rw [beq_iff_eq]
          rintro rfl
          exact h1 hc
        rw [this]; simp
      · rw [ihb h2 ((List.mem_cons.1 hv).resolve_left hb)]
        simp [hb]

theorem allBytes_nodup : ((List.range 256).map (BitVec.ofNat 8)).Nodup := by
  rw [List.nodup_map_iff_inj_on List.nodup_range]
  intro a ha b hb e
  have := congrArg BitVec.toNat e
  rw [List.mem_range] at ha hb
  simpa [Nat.mod_eq_of_lt ha, Nat.mod_eq_of_lt hb] using this

theorem mem_allBytes (b : Byte) : b ∈ (List.range 256).map (BitVec.ofNat 8) :=
  List.mem_map.2 ⟨b.toNat, List.mem_range.2 b.isLt, by simp⟩

theorem totalCount_counted (vs : List Byte) (h : vs.length < 2 ^ 32) :
    totalCount (countBytes (Table.fill Word 256 0) vs) = vs.length := by
  unfold totalCount
  simp only [freqAt_counted vs h]
  exact sum_counts _ _ allBytes_nodup fun v _ => mem_allBytes v

/-- The present bytes after `Count()` are those of the input. -/
theorem mem_presentBytes_counted (vs : List Byte) (h : vs.length < 2 ^ 32) (b : Byte) :
    b ∈ presentBytes (countBytes (Table.fill Word 256 0) vs) ↔ b ∈ vs := by
  rw [mem_presentBytes, ← List.count_pos_iff, ← freqAt_counted vs h]
  constructor
  · intro hb
    by_contra hc
    exact hb (BitVec.eq_of_toNat_eq (by simpa using hc))
  · intro hb hc
    rw [hc] at hb
    simp at hb

theorem inputBytes_lt (s : State) : s.inputBytes.length < 2 ^ 32 := by
  rw [inputBytes_length]; exact s.inLen.isLt

theorem presentBytes_counted_ne_nil {s : State} (h : s.inLen ≠ 0) :
    presentBytes (countBytes (Table.fill Word 256 0) s.inputBytes) ≠ [] := by
  intro hc
  have hne : s.inputBytes ≠ [] := fun h0 => h (inputBytes_eq_nil.1 h0)
  obtain ⟨v, hv⟩ := List.exists_mem_of_ne_nil _ hne
  have := (mem_presentBytes_counted _ (inputBytes_lt s) v).2 hv
  rw [hc] at this
  cases this

theorem count_of_input {s : State} (h : s.inLen ≠ 0) : count s = .ok { s with
    freq := countBytes (Table.fill Word 256 0) s.inputBytes, symcount := s.inLen, iptr := s.inLen } := by
  unfold count
  dsimp only
  rw [if_neg h]

theorem count_of_empty {s : State} (h : s.inLen = 0) : count s = .raised .emptyInput { s with
    freq := Table.fill Word 256 0, symcount := s.inLen } := by
  unfold count
  dsimp only
  rw [if_pos h]

end Sys2Proof.Machine
end

