-- ==== Sys2Proof/Laws/Codec.lean ====
section
/-! SUPPORT. What the bit-stream codec does where a tree is there, as one lemma per outcome (44_bitstream R161 to
R168), and what OUT then holds. -/

namespace Sys2Proof.Machine

/-! ## OUT -/

theorem emitAll_congr {s s' : State} (h1 : s.outMem = s'.outMem) (h2 : s.outLen = s'.outLen) (vs : List Byte) :
    (emitAll s vs).outMem = (emitAll s' vs).outMem ∧ (emitAll s vs).outLen = (emitAll s' vs).outLen := by
  induction vs generalizing s s' with
  | nil => exact ⟨h1, h2⟩
  | cons v vs ih =>
    rw [emitAll_cons, emitAll_cons]
    refine ih ?_ ?_
    · rw [emit, emit, h1, h2]
    · rw [emit, emit, h2]

theorem emitAll_with {s s0 : State} (h1 : s0.outMem = s.outMem) (h2 : s0.outLen = s.outLen) (vs : List Byte) :
    emitAll s0 vs =
      { s0 with outMem := (emitAll s vs).outMem, outLen := (emitAll s vs).outLen } := by
  obtain ⟨e1, e2⟩ := emitAll_congr h1 h2 vs
  rw [emitAll_eq s0 vs, e1, e2]

theorem emitAll_wrote {s : State} {vs : List Byte} (h0 : s.outLen = 0) (h : vs.length < 2 ^ 64) :
    WroteOut s.outMem (emitAll s vs).outMem vs := by
  intro a
  have hz : s.outLen.toNat = 0 := by rw [h0]; rfl
  rw [emitAll_load (by omega), hz]
  simp

theorem WroteOut.outBytes {m : Memory} {s : State} {bs : List Byte} (h : WroteOut m s.outMem bs)
    (hl : s.outLen.toNat = bs.length) : s.outBytes = bs := by
  unfold State.outBytes
  rw [hl]
  refine List.ext_getElem (by simp) fun i h1 h2 => ?_
  rw [List.getElem_map, List.getElem_range, State.readOut, h i, if_pos h2, List.getElem?_eq_getElem h2]
  rfl

/-! ## The encoder -/

theorem bitsOf_append (t : Tree) (vs ws : List Byte) : bitsOf t (vs ++ ws) = bitsOf t vs ++ bitsOf t ws :=
  List.flatMap_append

theorem bitsOf_leaf (v : Byte) (vs : List Byte) : bitsOf (.leaf v) vs = [] := by
  unfold bitsOf
  rw [List.flatMap_eq_nil_iff]
  intro u _
  rw [codeIn_leaf]
  split <;> rfl

theorem single_iff_leaf (t : Tree) : (leavesOf t).length = 1 ↔ ∃ v, t = .leaf v := by
  cases t with
  | leaf v => simp [leavesOf]
  | node l r =>
    have h1 := leavesOf_pos l
    have h2 := leavesOf_pos r
    simp [leavesOf]; omega

theorem code_length_le {t : Tree} (hn : (leavesOf t).Nodup) (v : Byte) :
    ((codeIn t v).getD []).length ≤ 255 := by
  cases h : codeIn t v with
  | none => simp
  | some p =>
    have h1 := codeIn_length_le h
    have h2 := depthOf_lt t
    have h3 := leaves_nodup_le _ hn
    simp; omega

theorem bitsOf_length_le {t : Tree} (hn : (leavesOf t).Nodup) (vs : List Byte) :
    (bitsOf t vs).length ≤ 255 * vs.length := by
  induction vs with
  | nil => simp [bitsOf]
  | cons v vs ih =>
    have h1 := code_length_le hn v
    unfold bitsOf at ih ⊢
    rw [List.flatMap_cons, List.length_append, List.length_cons]
    omega

theorem codes_flatMap {t : Tree} (hn : (leavesOf t).Nodup) (vs : List Byte) :
    vs.flatMap (fun v => (codeAt (codesOf t) v).path) = bitsOf t vs := by
  unfold bitsOf
  simp only [path_codesOf hn]

/-- What `packBytes` has done after bytes that all have codes, on the code map of a tree. -/
theorem packBytes_codes {t : Tree} (hn : (leavesOf t).Nodup) {single : Bool}
    (hs : single = true ↔ (leavesOf t).length = 1) (vs ws : List Byte) (h : ∀ v ∈ vs, v ∈ leavesOf t)
    (p : Packer) :
    packBytes (codesOf t) single (vs ++ ws) p = packBytes (codesOf t) single ws (p.pushAll (bitsOf t vs)) := by
  induction vs generalizing p with
  | nil => rfl
  | cons v vs ih =>
    have hv := h v (by simp)
    rw [List.cons_append, packBytes, if_pos (by rw [present_codesOf hn, decide_eq_true hv]),
      ih (fun u hu => h u (by simp [hu]))]
    have hb : bitsOf t (v :: vs) = (codeIn t v).getD [] ++ bitsOf t vs := by
      unfold bitsOf; rw [List.flatMap_cons]
    rw [hb, Packer.pushAll_append]
    by_cases h1 : single = true
    · obtain ⟨u, rfl⟩ := (single_iff_leaf t).1 (hs.1 h1)
      have hu : v = u := by simpa [leavesOf] using hv
      rw [if_pos h1, codeIn_leaf, if_pos hu]
      rfl
    · rw [if_neg h1, path_codesOf hn]

/-- `BitEncode()` where every input byte has a code (44_bitstream R161, R162). -/
theorem bitEncode_spec {s : State} {t : Tree} (hc : s.code = codesOf t) (hn : (leavesOf t).Nodup)
    (hl : s.nleaf.toNat = (leavesOf t).length) (hv : ∀ v ∈ s.inputBytes, v ∈ leavesOf t) :
    ∃ acc nb bs, bitEncode s = .ok { s with
        outMem := (emitAll s bs).outMem, outLen := (emitAll s bs).outLen, acc := acc, nb := nb
        bitcount := BitVec.ofNat 64 (bitsOf t s.inputBytes).length, iptr := s.inLen } ∧
      bs.flatMap byteBits = bitsOf t s.inputBytes ++
        List.replicate ((8 - (bitsOf t s.inputBytes).length % 8) % 8) false ∧
      bs.length = ((bitsOf t s.inputBytes).length + 7) / 8 := by
  have hs : (s.nleaf == 1) = true ↔ (leavesOf t).length = 1 := by
    rw [beq_iff_eq, ← hl]
    constructor
    · intro h; rw [h]; rfl
    · intro h; exact BitVec.eq_of_toNat_eq h
  have hp := packBytes_codes hn hs s.inputBytes [] hv Packer.start
  rw [List.append_nil] at hp
  have hh := Packer.pushAll_holds Packer.start_holds (bitsOf t s.inputBytes)
  rw [List.nil_append] at hh
  refine ⟨(Packer.start.pushAll (bitsOf t s.inputBytes)).acc,
    BitVec.ofNat 3 (Packer.start.pushAll (bitsOf t s.inputBytes)).nb,
    (Packer.start.pushAll (bitsOf t s.inputBytes)).flush, ?_, Packer.flush_bits hh, Packer.flush_length hh⟩
  rw [← hc] at hp
  rw [bitEncode, hp, packBytes]
  dsimp only
  rw [if_pos rfl, emitAll_with (s := s) (by rfl) (by rfl), hh.total]

theorem take_whole_bytes {out : List Byte} {bits low : List Bool} (h : out.flatMap byteBits ++ low = bits)
    (hl : low.length < 8) : out.flatMap byteBits = bits.take (8 * (bits.length / 8)) := by
  have h1 := flatMap_byteBits_length out
  have h2 : bits.length = 8 * out.length + low.length := by rw [← h, List.length_append, h1]
  rw [show 8 * (bits.length / 8) = (out.flatMap byteBits).length by omega, ← h, List.take_left]

/-- `BitEncode()` at the first input byte without a code (44_bitstream R163). -/
theorem bitEncode_stops {s : State} {t : Tree} {vs ws : List Byte} {v : Byte} (hc : s.code = codesOf t)
    (hn : (leavesOf t).Nodup) (hl : s.nleaf.toNat = (leavesOf t).length)
    (hi : s.inputBytes = vs ++ v :: ws) (hv : ∀ u ∈ vs, u ∈ leavesOf t) (hno : v ∉ leavesOf t) :
    ∃ acc nb bs, bitEncode s = .raised .illegalCommand { s with
        outMem := (emitAll s bs).outMem, outLen := (emitAll s bs).outLen, acc := acc, nb := nb
        bitcount := 0 } ∧
      bs.flatMap byteBits = (bitsOf t vs).take (8 * ((bitsOf t vs).length / 8)) := by
  have hs : (s.nleaf == 1) = true ↔ (leavesOf t).length = 1 := by
    rw [beq_iff_eq, ← hl]
    constructor
    · intro h; rw [h]; rfl
    · intro h; exact BitVec.eq_of_toNat_eq h
  have hp := packBytes_codes hn hs vs (v :: ws) hv Packer.start
  rw [← hi] at hp
  have hh := Packer.pushAll_holds Packer.start_holds (bitsOf t vs)
  rw [List.nil_append] at hh
  refine ⟨(Packer.start.pushAll (bitsOf t vs)).acc, BitVec.ofNat 3 (Packer.start.pushAll (bitsOf t vs)).nb,
    (Packer.start.pushAll (bitsOf t vs)).out, ?_, take_whole_bytes hh.content ?_⟩
  · rw [packBytes, if_neg (by rw [present_codesOf hn, decide_eq_false hno]; exact Bool.false_ne_true), ← hc] at hp
    rw [bitEncode, hp]
    dsimp only
    rw [if_neg (by exact Bool.false_ne_true), emitAll_with (s := s) (by rfl) (by rfl)]
  · unfold lowBits
    rw [List.length_map, List.length_range]
    exact hh.nbSmall

/-! ## The decoder -/

theorem readSymbols_length {t : Tree} {n : Nat} {bits rest : List Bool} {vs : List Byte}
    (h : readSymbols t n bits = some (vs, rest)) : vs.length = n := by
  induction n generalizing bits vs with
  | zero => rw [readSymbols] at h; cases h; rfl
  | succ n ih =>
    rw [readSymbols] at h
    split at h
    · cases h
    · split at h
      · cases h
      · next e => cases h; rw [List.length_cons, ih e]

/-- Where the bits run out, some symbols were read and the next walk ends on an internal node. -/
theorem decodeSymbols_runs_out {t : NodeTable} {tr : Tree} {d : Nat} {root : Index}
    (h : treeAt t d root.toNat = some tr) (n : Nat) (r : DecodeRun) (he : r.enough = true)
    (hr : readSymbols tr n r.bits = none) :
    ∃ k vs rest, k < n ∧ readSymbols tr k r.bits = some (vs, rest) ∧ readSymbol tr rest = none ∧
      (decodeSymbols t root n r).out = r.out ++ vs ∧ (decodeSymbols t root n r).enough = false := by
  induction n generalizing r with
  | zero => rw [readSymbols] at hr; cases hr
  | succ n ih =>
    rw [readSymbols] at hr
    rw [decodeSymbols]
    have hw := walkDown_eq (out := r.out) h r.bits r.pos
    cases hs : readSymbol tr r.bits with
    | none =>
      simp only [hs] at hw
      obtain ⟨c, q, hw, -⟩ := hw
      refine ⟨0, [], r.bits, Nat.succ_pos n, rfl, hs, ?_, ?_⟩
      · simp [hw]
      · simp [hw]
    | some x =>
      obtain ⟨v, rest⟩ := x
      simp only [hs] at hw hr
      obtain ⟨c, q, p, hw, hv, hp, hq⟩ := hw
      have hr' : readSymbols tr n rest = none := by
        cases hx : readSymbols tr n rest with
        | none => rfl
        | some y => rw [hx] at hr; cases hr
      obtain ⟨k, vs, rest', h1, h2, h3, h4, h5⟩ := ih ⟨c, rest, q, r.out ++ [v], true⟩ rfl hr'
      refine ⟨k + 1, v :: vs, rest', Nat.succ_lt_succ h1, ?_, h3, ?_, ?_⟩
      · rw [readSymbols, hs]; simp only; simp only at h2; rw [h2]
      · simp only [hw, if_true, DecodeRun.emitSymbol, hv, h4, List.append_assoc, List.singleton_append]
      · simp only [hw, if_true, DecodeRun.emitSymbol, hv, h5]

/-- A reading that has failed fails for good. -/
theorem readSymbols_none {t : Tree} {n k : Nat} {bits rest : List Bool} {vs : List Byte} (hk : k < n)
    (h1 : readSymbols t k bits = some (vs, rest)) (h2 : readSymbol t rest = none) :
    readSymbols t n bits = none := by
  induction k generalizing n bits vs with
  | zero =>
    rw [readSymbols] at h1; cases h1
    obtain ⟨m, rfl⟩ : ∃ m, n = m + 1 := ⟨n - 1, by omega⟩
    rw [readSymbols, h2]
  | succ k ih =>
    obtain ⟨m, rfl⟩ : ∃ m, n = m + 1 := ⟨n - 1, by omega⟩
    rw [readSymbols] at h1 ⊢
    split at h1
    · cases h1
    · next v bits' e =>
      split at h1
      · cases h1
      · next ws rest' e' => cases h1; rw [ih (by omega) e']

/-- `BitDecode()` where the bits suffice (44_bitstream R166). -/
theorem bitDecode_spec {s : State} {t : Tree} {vs : List Byte} {rest : List Bool} (h : s.tree? = some t)
    (hr : readSymbols t s.symcount.toNat s.payloadBits = some (vs, rest)) :
    ∃ cur bp, bitDecode s = .ok { s with
        outMem := (emitAll s vs).outMem, outLen := (emitAll s vs).outLen, cur := cur, bp := bp
        bitcount := BitVec.ofNat 64 (s.payloadBits.length - rest.length)
        iptr := BitVec.ofNat 32 (s.iptr.toNat + (s.payloadBits.length - rest.length + 7) / 8) } := by
  have := bitDecode_eq h
  rw [hr] at this
  obtain ⟨c, b, used, h1, h2, -⟩ := this
  refine ⟨c, b, ?_⟩
  rw [h1, show s.payloadBits.length - rest.length = used by omega, emitAll_with (s := s) (by rfl) (by rfl)]

/-- `BitDecode()` where they do not (44_bitstream R168). -/
theorem bitDecode_runs_out {s : State} {t : Tree} (h : s.tree? = some t)
    (hr : readSymbols t s.symcount.toNat s.payloadBits = none) :
    ∃ cur bp k vs rest, bitDecode s = .raised .truncatedStream { s with
        outMem := (emitAll s vs).outMem, outLen := (emitAll s vs).outLen, cur := cur, bp := bp
        bitcount := 0 } ∧
      k < s.symcount.toNat ∧ readSymbols t k s.payloadBits = some (vs, rest) ∧
      readSymbol t rest = none := by
  obtain ⟨k, vs, rest, h1, h2, h3, h4, h5⟩ :=
    decodeSymbols_runs_out h s.symcount.toNat ⟨s.cur, s.payloadBits, ⟨s.iptr.toNat, 0, 0⟩, [], true⟩ rfl hr
  refine ⟨s.decodeRun.cur, BitVec.ofNat 3 s.decodeRun.pos.bp, k, vs, rest, ?_, h1, h2, h3⟩
  have h4' : s.decodeRun.out = vs := by rw [← List.nil_append vs]; exact h4
  have h5' : s.decodeRun.enough = false := h5
  rw [bitDecode]
  dsimp only
  rw [h5', if_neg (by exact Bool.false_ne_true), h4', emitAll_with (s := s) (by rfl) (by rfl)]

/-! ## Positions, over any arena -/

/-- However a walk ends, it has moved by the bits it took. -/
theorem walkDown_pos (node : NodeTable) (out : List Byte) (bits : List Bool) (cur : Index) (pos : BitPos) :
    ∃ p, bits = p ++ (walkDown node out bits cur pos).bits ∧
      (walkDown node out bits cur pos).pos = BitPos.advance^[p.length] pos := by
  induction bits generalizing cur pos with
  | nil => rw [walkDown]; cases (nodeAt node cur.toNat).kind <;> exact ⟨[], rfl, rfl⟩
  | cons b bits ih =>
    rw [walkDown]
    cases (nodeAt node cur.toNat).kind with
    | leaf => exact ⟨[], rfl, rfl⟩
    | internal =>
      obtain ⟨p, h1, h2⟩ := ih ((nodeAt node cur.toNat).child b) pos.advance
      exact ⟨b :: p, by rw [List.cons_append, ← h1], h2⟩

theorem decodeSymbols_pos (node : NodeTable) (root : Index) (n : Nat) (r : DecodeRun) :
    ∃ p, r.bits = p ++ (decodeSymbols node root n r).bits ∧
      (decodeSymbols node root n r).pos = BitPos.advance^[p.length] r.pos := by
  induction n generalizing r with
  | zero => exact ⟨[], rfl, rfl⟩
  | succ n ih =>
    rw [decodeSymbols]
    obtain ⟨p, h1, h2⟩ := walkDown_pos node r.out r.bits root r.pos
    split
    · obtain ⟨q, h3, h4⟩ := ih ((walkDown node r.out r.bits root r.pos).emitSymbol node)
      refine ⟨p ++ q, ?_, ?_⟩
      · rw [List.append_assoc, ← h3]; exact h1
      · rw [h4, List.length_append, Nat.add_comm, Function.iterate_add_apply, ← h2]; rfl
    · exact ⟨p, h1, h2⟩

theorem payloadBits_length (s : State) : s.payloadBits.length = 8 * (s.inLen.toNat - s.iptr.toNat) := by
  unfold State.payloadBits
  rw [flatMap_byteBits_length, List.length_drop, inputBytes_length]

/-- The first byte not consumed lies within the input. -/
theorem decodeRun_byteEnd_le {s : State} (h : s.iptr ≤ s.inLen) :
    s.decodeRun.pos.byteEnd ≤ s.inLen.toNat := by
  obtain ⟨p, h1, h2⟩ := decodeSymbols_pos s.node s.root s.symcount.toNat
    ⟨s.cur, s.payloadBits, ⟨s.iptr.toNat, 0, 0⟩, [], true⟩
  have h3 : s.decodeRun.pos = BitPos.advance^[p.length] ⟨s.iptr.toNat, 0, 0⟩ := h2
  have h4 := congrArg List.length h1
  rw [List.length_append] at h4
  have h5 := payloadBits_length s
  have h6 : s.iptr.toNat ≤ s.inLen.toNat := BitVec.le_def.1 h
  rw [h3, byteEnd_iterate]
  dsimp only at h4
  omega

end Sys2Proof.Machine
end

