-- ==== Sys2Proof/Laws/HostPort.lean ====
section
/-! SUPPORT. Whose turn a step is, and where a register number leads (10_state R40, 20_memory R74). -/

namespace Sys2Proof.Machine

/-- What a turn comes to. -/
def Turn.outcome : Turn → Host.Outcome State Fault Refusal
  | .run i s => exec i s
  | .over o => o

theorem step_eq (s : State) : step s = (turn s).outcome := by
  unfold step
  cases turn s <;> rfl

theorem step_idle {s : State} (hb : s.busy = false) (hh : s.host = []) : step s = .next s := by
  unfold step turn
  rw [hh]; dsimp only
  rw [if_neg (by rw [hb]; decide)]

theorem step_host {s : State} {m : HostMove} {rest : List HostMove} (hb : s.busy = false)
    (hh : s.host = m :: rest) : step s = (hostTurn m { s with host := rest }).outcome := by
  rw [step_eq]
  unfold turn
  rw [hh]; dsimp only
  rw [if_neg (by rw [hb]; decide)]

theorem step_busy {s : State} {m : HostMove} {rest : List HostMove} (hb : s.busy = true)
    (hh : s.host = m :: rest) : step s = (busyTurn m rest s).outcome := by
  rw [step_eq]
  unfold turn
  rw [hh]; dsimp only
  rw [if_pos hb]

theorem step_engine {s : State} (hb : s.busy = true) (hh : s.host = [] ∨ ∃ rest, s.host = .waitIdle :: rest) :
    step s = (engineTurn s).outcome := by
  rcases hh with hh | ⟨rest, hh⟩
  · rw [step_eq]
    unfold turn
    rw [hh]; dsimp only
    rw [if_pos hb]
  · exact step_busy hb hh

theorem run_next (M : Host.Core) (k : Nat) {s s' : M.State} (h : M.step s = .next s') :
    M.run (k + 1) s = M.run k s' := by
  rw [Host.Core.run, h]

/-- One more step of a run. -/
theorem core_run_next (k : Nat) {s s' : State} (h : step s = .next s') :
    (Sys2Proof.core.run (k + 1) s : Host.Outcome State Fault Refusal) = Sys2Proof.core.run k s' :=
  run_next Sys2Proof.core k h

/-! ## Register numbers -/

theorem regPlace_freq {b : Nat} (h : b < 256) : regPlace (0x100 + b) = .freq b := by
  unfold regPlace
  rw [if_neg (by omega), if_neg (by omega), if_pos (by omega)]
  exact congrArg _ (by omega)

theorem regPlace_weight {i : Nat} (h : i < 511) : regPlace (0x400 + 2 * i) = .weight i := by
  unfold regPlace
  rw [if_neg (by omega), if_neg (by omega), if_neg (by omega), if_neg (by omega), if_pos (by omega),
    if_pos (by omega)]
  exact congrArg _ (by omega)

theorem regPlace_link {i : Nat} (h : i < 511) : regPlace (0x401 + 2 * i) = .link i := by
  unfold regPlace
  rw [if_neg (by omega), if_neg (by omega), if_neg (by omega), if_neg (by omega), if_pos (by omega),
    if_neg (by omega)]
  exact congrArg _ (by omega)

theorem regPlace_codeHead {b : Nat} (h : b < 256) : regPlace (0x1000 + 16 * b) = .codeHead b := by
  unfold regPlace
  rw [if_neg (by omega), if_neg (by omega), if_neg (by omega), if_neg (by omega), if_neg (by omega),
    if_neg (by omega), if_pos (by omega), if_pos (by omega)]
  exact congrArg _ (by omega)

theorem regPlace_codeBits {b j : Nat} (h : b < 256) (hj : j < 8) :
    regPlace (0x1001 + 16 * b + j) = .codeBits b j := by
  unfold regPlace
  rw [if_neg (by omega), if_neg (by omega), if_neg (by omega), if_neg (by omega), if_neg (by omega),
    if_neg (by omega), if_pos (by omega), if_neg (by omega), if_pos (by omega)]
  exact congrArg₂ _ (by omega) (by omega)

/-! ## Bits of the register words -/

theorem flagBit_getLsbD (f : Bool) (i : Nat) {j : Nat} (h : j < 32) :
    (flagBit f i).getLsbD j = (f && decide (i = j)) := by
  cases f <;> simp [flagBit, h, eq_comm]

end Sys2Proof.Machine
end

