-- ==== Sys2Proof/Laws/PerInstr.lean ====
section
/-! SUPPORT. One lemma per constructor of Instr for each family named in LAWS.json. -/

/-- The family Layout: every term is well formed, its encoding has one byte, or two for a LEAF record (30_encoding
R80, R90), and no shorter initial part of the encoding decodes. -/
def Sys2Proof.Laws.Layout.Statement (i : Sys2Proof.Instr) : Prop :=
  i.WellFormed = true ∧
  (Sys2Proof.encode i).length = (match i with
    | .recLeaf _ => 2
    | .encode | .decode | .count | .build | .derive => 1
    | .twrite | .tread | .benc | .bdec | .recInternal => 1) ∧
  ∀ n < (Sys2Proof.encode i).length, ∃ e, Sys2Proof.decode i.space ((Sys2Proof.encode i).take n) = .error e

theorem Sys2Proof.Laws.Layout.encode : Sys2Proof.Laws.Layout.Statement .encode :=
  ⟨rfl, rfl, fun n h => by
    obtain rfl : n = 0 := Nat.lt_one_iff.1 h
    exact ⟨_, rfl⟩⟩

theorem Sys2Proof.Laws.Layout.decode : Sys2Proof.Laws.Layout.Statement .decode :=
  ⟨rfl, rfl, fun n h => by
    obtain rfl : n = 0 := Nat.lt_one_iff.1 h
    exact ⟨_, rfl⟩⟩

theorem Sys2Proof.Laws.Layout.count : Sys2Proof.Laws.Layout.Statement .count :=
  ⟨rfl, rfl, fun n h => by
    obtain rfl : n = 0 := Nat.lt_one_iff.1 h
    exact ⟨_, rfl⟩⟩

theorem Sys2Proof.Laws.Layout.build : Sys2Proof.Laws.Layout.Statement .build :=
  ⟨rfl, rfl, fun n h => by
    obtain rfl : n = 0 := Nat.lt_one_iff.1 h
    exact ⟨_, rfl⟩⟩

theorem Sys2Proof.Laws.Layout.derive : Sys2Proof.Laws.Layout.Statement .derive :=
  ⟨rfl, rfl, fun n h => by
    obtain rfl : n = 0 := Nat.lt_one_iff.1 h
    exact ⟨_, rfl⟩⟩

theorem Sys2Proof.Laws.Layout.twrite : Sys2Proof.Laws.Layout.Statement .twrite :=
  ⟨rfl, rfl, fun n h => by
    obtain rfl : n = 0 := Nat.lt_one_iff.1 h
    exact ⟨_, rfl⟩⟩

theorem Sys2Proof.Laws.Layout.tread : Sys2Proof.Laws.Layout.Statement .tread :=
  ⟨rfl, rfl, fun n h => by
    obtain rfl : n = 0 := Nat.lt_one_iff.1 h
    exact ⟨_, rfl⟩⟩

theorem Sys2Proof.Laws.Layout.benc : Sys2Proof.Laws.Layout.Statement .benc :=
  ⟨rfl, rfl, fun n h => by
    obtain rfl : n = 0 := Nat.lt_one_iff.1 h
    exact ⟨_, rfl⟩⟩

theorem Sys2Proof.Laws.Layout.bdec : Sys2Proof.Laws.Layout.Statement .bdec :=
  ⟨rfl, rfl, fun n h => by
    obtain rfl : n = 0 := Nat.lt_one_iff.1 h
    exact ⟨_, rfl⟩⟩

theorem Sys2Proof.Laws.Layout.recInternal : Sys2Proof.Laws.Layout.Statement .recInternal :=
  ⟨rfl, rfl, fun n h => by
    obtain rfl : n = 0 := Nat.lt_one_iff.1 h
    exact ⟨_, rfl⟩⟩

theorem Sys2Proof.Laws.Layout.recLeaf (v : Sys2Proof.Byte) : Sys2Proof.Laws.Layout.Statement (.recLeaf v) :=
  ⟨by have := v.isLt; simp [Sys2Proof.Instr.WellFormed]; omega, rfl, fun n h => by
    have h : n < 2 := h
    match n, h with
    | 0, _ => exact ⟨_, rfl⟩
    | 1, _ => exact ⟨_, rfl⟩⟩
end

