-- ==== Sys2Proof/Laws/Pipeline.lean ====
section
/-! SUPPORT. ENCODE and DECODE as the composition of their procedures (45_pipeline R181, R183). -/

namespace Sys2Proof.Machine

theorem headerBytes_length (cnt : Word) (t : Tree) :
    (headerBytes cnt t).length = 4 + (3 * (leavesOf t).length - 1) := by
  have := serialize_length t
  rw [headerBytes, List.length_append, be32_length]
  omega

/-- The body of ENCODE on an input that is not empty (45_pipeline R181): every state on its way. -/
theorem encodeBody_spec {s : State} (h : s.inLen ≠ 0) :
    ∃ t s1 s2 s3 s4 u bs, count s = .ok s1 ∧ build s1 = .ok s2 ∧ derive s2 = .ok s3 ∧
      treeWrite s3 = .ok s4 ∧ bitEncode s4 = .ok u ∧
      s1 = { s with
        freq := countBytes (Table.fill Word 256 0) s.inputBytes, symcount := s.inLen, iptr := s.inLen } ∧
      s2 = { s1 with
        node := s2.node, inq := s2.inq, nleaf := s2.nleaf, nnodes := s2.nnodes, root := s2.root
        treeValid := true, codeValid := false } ∧
      s3 = { s2 with code := codesOf t, codeValid := true } ∧
      s4 = emitAll s3 (headerBytes s.inLen t) ∧
      u = { s4 with
        outMem := (emitAll s4 bs).outMem, outLen := (emitAll s4 bs).outLen, acc := u.acc, nb := u.nb
        bitcount := BitVec.ofNat 64 (bitsOf t s.inputBytes).length, iptr := s.inLen } ∧
      WellFormedTree s2 ∧ s2.tree? = some t ∧ (leavesOf t).Nodup ∧
      s2.nleaf.toNat = (leavesOf t).length ∧ (∀ v, v ∈ leavesOf t ↔ v ∈ s.inputBytes) ∧
      bs.flatMap byteBits = bitsOf t s.inputBytes ++
        List.replicate ((8 - (bitsOf t s.inputBytes).length % 8) % 8) false ∧
      bs.length = ((bitsOf t s.inputBytes).length + 7) / 8 := by
  have hne := presentBytes_counted_ne_nil h
  have h1 := count_of_input h
  obtain ⟨node, inq, root, t, h2, -, ⟨is, hsp, hper⟩, hlv, -, -, -⟩ := build_spec { s with
    freq := countBytes (Table.fill Word 256 0) s.inputBytes, symcount := s.inLen, iptr := s.inLen } hne
  have hle := presentBytes_le (countBytes (Table.fill Word 256 0) s.inputBytes)
  have hlen := hlv.length_eq
  have hn : (leavesOf t).Nodup := hlv.nodup_iff.2 (presentBytes_nodup _)
  obtain ⟨w, ht⟩ := wellFormedTree_of_spans (s := { s with
    freq := countBytes (Table.fill Word 256 0) s.inputBytes, symcount := s.inLen, iptr := s.inLen
    treeValid := true, codeValid := false, inq := inq, node := node
    nleaf := BitVec.ofNat 9 (presentBytes (countBytes (Table.fill Word 256 0) s.inputBytes)).length
    nnodes :=
      BitVec.ofNat 10 (2 * (presentBytes (countBytes (Table.fill Word 256 0) s.inputBytes)).length - 1)
    root := root }) hsp (by
      change is.Perm (List.range (BitVec.ofNat 10 _).toNat)
      rw [BitVec.toNat_ofNat, Nat.mod_eq_of_lt (by omega)]
      exact hper) hn (by
      change (BitVec.ofNat 9 _).toNat = _
      rw [BitVec.toNat_ofNat, Nat.mod_eq_of_lt (by omega), hlen])
  have hnl : (BitVec.ofNat 9 (presentBytes (countBytes (Table.fill Word 256 0) s.inputBytes)).length).toNat =
      (leavesOf t).length := by
    rw [BitVec.toNat_ofNat, Nat.mod_eq_of_lt (by omega), hlen]
  have hmem : ∀ v, v ∈ leavesOf t ↔ v ∈ s.inputBytes := fun v =>
    hlv.mem_iff.trans (mem_presentBytes_counted _ (inputBytes_lt s) v)
  have h3 := derive_of_tree ht
  have h4 := treeWrite_of_tree (t := t) (s := { s with
    freq := countBytes (Table.fill Word 256 0) s.inputBytes, symcount := s.inLen, iptr := s.inLen
    treeValid := true, codeValid := true, inq := inq, node := node, code := codesOf t
    nleaf := BitVec.ofNat 9 (presentBytes (countBytes (Table.fill Word 256 0) s.inputBytes)).length
    nnodes :=
      BitVec.ofNat 10 (2 * (presentBytes (countBytes (Table.fill Word 256 0) s.inputBytes)).length - 1)
    root := root }) ht
  generalize hs4 : emitAll _ _ = s4 at h4
  have hin : s4.inputBytes = s.inputBytes := by
    rw [← hs4]
    exact inputBytes_congr (by simp) (by simp) (by simp)
  obtain ⟨acc, nb, bs, h5, h6, h7⟩ := bitEncode_spec (s := s4) (t := t)
    (by rw [← hs4]; simp) hn (by rw [← hs4]; simpa using hnl) (by rw [hin]; exact fun v => (hmem v).2)
  rw [hin] at h5 h6 h7
  have hil : s4.inLen = s.inLen := by rw [← hs4]; simp
  exact ⟨t, _, _, _, _, _, bs, h1, h2, h3, h4, h5, rfl, rfl, rfl, hs4.symm, by rw [hil], w, ht, hn, hnl, hmem, h6, h7⟩

theorem encodeBody_of_parts {s s1 s2 s3 s4 u : State} (h1 : count s = .ok s1) (h2 : build s1 = .ok s2)
    (h3 : derive s2 = .ok s3) (h4 : treeWrite s3 = .ok s4) (h5 : bitEncode s4 = .ok u) :
    encodeBody s = .ok u := by
  rw [encodeBody, h1]
  change (((build s1).andThen derive).andThen treeWrite).andThen bitEncode = _
  rw [h2]
  change ((derive s2).andThen treeWrite).andThen bitEncode = _
  rw [h3]
  change (treeWrite s3).andThen bitEncode = _
  rw [h4]
  exact h5

theorem encodeBody_of_empty {s : State} (h : s.inLen = 0) : encodeBody s = .raised .emptyInput { s with
    freq := Table.fill Word 256 0, symcount := s.inLen } := by
  rw [encodeBody, count_of_empty h]
  rfl

/-! ## DECODE -/

theorem beginHeader_of {u : State} {cnt : Word} {t : Tree} {rest : List Byte} (h0 : u.iptr = 0)
    (h : u.inputBytes = headerBytes cnt t ++ rest) :
    beginHeader u = some { u with
      treeValid := false, codeValid := false, parsing := true, parser := HeaderParse.start 4 cnt } := by
  unfold beginHeader
  rw [h, h0, headerBytes, be32, show (0 : Word).toNat = 0 from rfl]
  simp only [List.cons_append, List.drop_zero, List.nil_append, Nat.zero_add, unBE32_be32]

theorem streamRest_of {u : State} {cnt : Word} {t : Tree} {rest : List Byte} (hp : u.parser.p = 4)
    (h : u.inputBytes = headerBytes cnt t ++ rest) : u.streamRest = serialize t ++ rest := by
  unfold State.streamRest
  rw [h, hp, headerBytes, be32]
  rfl

theorem runHeader_of {u : State} {cnt : Word} {t : Tree} {rest : List Byte}
    (hp : u.parser = HeaderParse.start 4 cnt) (h : u.streamRest = serialize t ++ rest)
    (hn : (leavesOf t).Nodup) :
    ∃ node, PreOrderAt node 0 t ∧
      runHeader u = .ok (commitHeader node ((HeaderParse.start 4 cnt).past t) 0 u) := by
  obtain ⟨node, ho, htk⟩ := takeRecords_start (t := t) u.node 4 cnt [] hn
  rw [List.append_nil] at htk
  refine ⟨node, ho, ?_⟩
  have hlen : (records t).length ≤ (serialize t ++ rest).length + 1 := by
    have h1 := records_length t
    have h2 := sizeOf'_eq t
    have h3 := serialize_length t
    rw [List.length_append]
    omega
  have hpar := parseRecords_of_records (records_space t) hlen rest htk
  unfold runHeader
  rw [h, hp, show parseRecords _ (serialize t ++ rest) _ _ = _ from hpar]

theorem commitHeader_eq (node : NodeTable) (cnt : Word) (t : Tree) (u : State) :
    commitHeader node ((HeaderParse.start 4 cnt).past t) 0 u = { u with
      node := node, parser := (HeaderParse.start 4 cnt).past t, symcount := cnt, root := 0
      nnodes := BitVec.ofNat 10 (2 * (leavesOf t).length - 1)
      nleaf := BitVec.ofNat 9 (leavesOf t).length
      iptr := BitVec.ofNat 32 (4 + (3 * (leavesOf t).length - 1)), treeValid := true, parsing := false } := by
  have h2 := sizeOf'_eq t
  have h3 := serialize_length t
  have e1 : ((HeaderParse.start 4 cnt).past t).nn = 2 * (leavesOf t).length - 1 := by
    change 0 + sizeOf' t = _; omega
  have e2 : ((HeaderParse.start 4 cnt).past t).p = 4 + (3 * (leavesOf t).length - 1) := by
    change 4 + (serialize t).length = _; omega
  have e3 : ((HeaderParse.start 4 cnt).past t).nl = (leavesOf t).length := by
    change 0 + (leavesOf t).length = _; omega
  unfold commitHeader
  rw [e1, e2, e3]
  rfl

/-- `TreeRead()` on a header, and where it leaves the payload (43_tree_codec R146). -/
theorem treeRead_spec {s : State} {cnt : Word} {t : Tree} {rest : List Byte}
    (h : s.inputBytes = headerBytes cnt t ++ rest) (hn : (leavesOf t).Nodup) :
    ∃ node, PreOrderAt node 0 t ∧ treeReadFromStart s = .ok { s with
        node := node, parser := (HeaderParse.start 4 cnt).past t, symcount := cnt, root := 0
        nnodes := BitVec.ofNat 10 (2 * (leavesOf t).length - 1)
        nleaf := BitVec.ofNat 9 (leavesOf t).length
        iptr := BitVec.ofNat 32 (4 + (3 * (leavesOf t).length - 1)), treeValid := true
        codeValid := false, parsing := false } := by
  have hin : ∀ u : State, u.inMem = s.inMem → u.inLen = s.inLen → u.freeIdx = s.freeIdx →
      u.inputBytes = headerBytes cnt t ++ rest := fun u h1 h2 h3 => (inputBytes_congr h1 h2 h3).trans h
  obtain ⟨node, ho, hr⟩ := runHeader_of (u := { s with
    iptr := 0, treeValid := false, codeValid := false, parsing := true
    parser := HeaderParse.start 4 cnt }) rfl (streamRest_of (cnt := cnt) rfl (hin _ rfl rfl rfl)) hn
  refine ⟨node, ho, ?_⟩
  rw [treeReadFromStart, treeRead, beginHeader_of (cnt := cnt) (t := t) (rest := rest) (by rfl) (hin _ (by rfl) (by rfl) (by rfl))]
  dsimp only
  rw [hr, commitHeader_eq]

/-- DECODE's bits are those of the bytes after the header. -/
theorem payloadBits_after_header {s : State} {cnt : Word} {t : Tree} {pay : List Byte}
    (h : s.inputBytes = headerBytes cnt t ++ pay) (hi : s.iptr.toNat = (headerBytes cnt t).length) :
    s.payloadBits = pay.flatMap byteBits := by
  unfold State.payloadBits
  rw [h, hi, List.drop_left]

end Sys2Proof.Machine
end

