-- ==== Sys2Proof/Laws/Settled.lean ====
section
/-! SUPPORT. What every procedure keeps: canonical buffers, and behind each flag the tree and the code map it
stands for (10_state R27, R28, R41, R43). -/

namespace Sys2Proof.Machine

/-- The part of the invariant that looks at neither BUSY, DONE, ERROR nor ERRCODE. -/
structure Settled (s : State) : Prop where
  inCanonical : s.inMem.wf
  outCanonical : s.outMem.wf
  codeNeedsTree : s.codeValid = true → s.treeValid = true
  tree : s.treeValid = true → WellFormedTree s
  code : s.codeValid = true → CodeMatchesTree s

theorem CodeMatchesTree.congr {s u : State} (h : CodeMatchesTree s) (h1 : u.node = s.node)
    (h2 : u.root = s.root) (h3 : u.code = s.code) : CodeMatchesTree u := by
  obtain ⟨t, ht, hc⟩ := h
  exact ⟨t, by unfold State.tree? at ht ⊢; rw [h1, h2]; exact ht, by rw [h3]; exact hc⟩

theorem Settled.congr {s u : State} (q : Settled s) (h1 : u.inMem = s.inMem) (h2 : u.outMem = s.outMem)
    (h3 : u.codeValid = s.codeValid) (h4 : u.treeValid = s.treeValid) (h5 : u.node = s.node)
    (h6 : u.root = s.root) (h7 : u.nnodes = s.nnodes) (h8 : u.nleaf = s.nleaf) (h9 : u.code = s.code) :
    Settled u :=
  ⟨by rw [h1]; exact q.inCanonical, by rw [h2]; exact q.outCanonical, by rw [h3, h4]; exact q.codeNeedsTree,
    by rw [h4]; exact fun h => (q.tree h).congr h5 h6 h7 h8,
    by rw [h3]; exact fun h => (q.code h).congr h5 h6 h9⟩

theorem Settled.of_flags_clear {s : State} (h1 : s.inMem.wf) (h2 : s.outMem.wf) (h3 : s.codeValid = false)
    (h4 : s.treeValid = false) : Settled s :=
  ⟨h1, h2, fun h => absurd (h3.symm.trans h) Bool.false_ne_true, fun h => absurd (h4.symm.trans h) Bool.false_ne_true,
    fun h => absurd (h3.symm.trans h) Bool.false_ne_true⟩

theorem reset_settled : Settled State.reset :=
  Settled.of_flags_clear List.Pairwise.nil List.Pairwise.nil rfl rfl

theorem emitAll_settled {s : State} (q : Settled s) (vs : List Byte) : Settled (emitAll s vs) := by
  refine ⟨?_, emitAll_wf q.outCanonical vs, ?_, ?_, ?_⟩
  · rw [emitAll_eq]; exact q.inCanonical
  · rw [emitAll_eq]; exact q.codeNeedsTree
  · rw [emitAll_eq]; exact fun h => (q.tree h).congr rfl rfl rfl rfl
  · rw [emitAll_eq]; exact q.code

theorem count_ok_settled {s u : State} (q : Settled s) (h : count s = .ok u) : Settled u := by
  obtain ⟨-, rfl⟩ := count_ok h
  exact q.congr rfl rfl rfl rfl rfl rfl rfl rfl rfl

theorem count_raised_settled {s u : State} {e : ErrorKind} (q : Settled s) (h : count s = .raised e u) :
    Settled u := by
  obtain ⟨-, -, rfl⟩ := count_raised h
  exact q.congr rfl rfl rfl rfl rfl rfl rfl rfl rfl

theorem build_ok_settled {s u : State} (q : Settled s) (h : build s = .ok u) : Settled u := by
  obtain ⟨hp, -⟩ := build_ok h
  obtain ⟨node, inq, root, t, h2, -, ⟨is, hsp, hper⟩, hlv, -, -, -⟩ := build_spec s hp
  rw [h2] at h
  have hle := presentBytes_le s.freq
  have hlen := hlv.length_eq
  have hn : (leavesOf t).Nodup := hlv.nodup_iff.2 (presentBytes_nodup _)
  injection h with h
  obtain ⟨w, -⟩ := wellFormedTree_of_spans (s := u) (t := t) (is := is) (by rw [← h]; exact hsp) (by
    rw [← h]
    change is.Perm (List.range (BitVec.ofNat 10 _).toNat)
    rw [BitVec.toNat_ofNat, Nat.mod_eq_of_lt (by omega)]; exact hper) hn (by
    rw [← h]
    change (BitVec.ofNat 9 _).toNat = _
    rw [BitVec.toNat_ofNat, Nat.mod_eq_of_lt (by omega), hlen])
  refine ⟨by rw [← h]; exact q.inCanonical, by rw [← h]; exact q.outCanonical, fun hc => ?_, fun _ => w,
    fun hc => ?_⟩
  · rw [← h] at hc; cases hc
  · rw [← h] at hc; cases hc

theorem build_raised_settled {s u : State} {e : ErrorKind} (q : Settled s) (h : build s = .raised e u) :
    Settled u := by
  obtain ⟨-, -, rfl⟩ := build_raised h
  exact Settled.of_flags_clear q.inCanonical q.outCanonical rfl rfl

theorem derive_ok_settled {s u : State} (q : Settled s) (hv : s.treeValid = true) (h : derive s = .ok u) :
    Settled u := by
  obtain ⟨t, ht, rfl⟩ := derive_ok h
  exact ⟨q.inCanonical, q.outCanonical, fun _ => hv, fun h => (q.tree h).congr rfl rfl rfl rfl,
    fun _ => ⟨t, ht, rfl⟩⟩

theorem treeWrite_ok_settled {s u : State} (q : Settled s) (h : treeWrite s = .ok u) : Settled u := by
  obtain ⟨t, -, rfl⟩ := treeWrite_ok h
  exact emitAll_settled q _

theorem bitEncode_ok_settled {s u : State} (q : Settled s) (h : bitEncode s = .ok u) : Settled u := by
  unfold bitEncode at h
  dsimp only at h
  split at h
  · cases h
    refine Settled.congr (emitAll_settled (s := { s with bitcount := 0, acc := _, nb := _ }) ?_ _) rfl rfl rfl
      rfl rfl rfl rfl rfl rfl
    exact q.congr rfl rfl rfl rfl rfl rfl rfl rfl rfl
  · cases h

theorem bitEncode_raised_settled {s u : State} {e : ErrorKind} (q : Settled s)
    (h : bitEncode s = .raised e u) : Settled u := by
  unfold bitEncode at h
  dsimp only at h
  split at h
  · cases h
  · cases h
    refine emitAll_settled ?_ _
    exact q.congr rfl rfl rfl rfl rfl rfl rfl rfl rfl

theorem bitDecode_ok_settled {s u : State} (q : Settled s) (h : bitDecode s = .ok u) : Settled u := by
  unfold bitDecode at h
  dsimp only at h
  split at h
  · cases h
    refine Settled.congr (emitAll_settled (s := { s with bitcount := 0, cur := _, bp := _ }) ?_ _) rfl rfl rfl
      rfl rfl rfl rfl rfl rfl
    exact q.congr rfl rfl rfl rfl rfl rfl rfl rfl rfl
  · cases h

theorem bitDecode_raised_settled {s u : State} {e : ErrorKind} (q : Settled s)
    (h : bitDecode s = .raised e u) : Settled u := by
  unfold bitDecode at h
  dsimp only at h
  split at h
  · cases h
  · cases h
    refine emitAll_settled ?_ _
    exact q.congr rfl rfl rfl rfl rfl rfl rfl rfl rfl

theorem commitHeader_settled {s : State} {node : NodeTable} {t : Tree} {p : Nat} {cnt : Word}
    (q : Settled s) (hc : s.codeValid = false) (h : PreOrderAt node 0 t) (hn : (leavesOf t).Nodup) :
    Settled (commitHeader node ((HeaderParse.start p cnt).past t) 0 s) := by
  obtain ⟨w, -⟩ := wellFormedTree_commitHeader (p := p) (cnt := cnt) s h hn
  exact ⟨q.inCanonical, q.outCanonical, fun _ => rfl, fun _ => w, fun h => by
    have h : s.codeValid = true := h
    rw [hc] at h
    cases h⟩

theorem treeRead_ok_settled {s u : State} (q : Settled s) (h : treeReadFromStart s = .ok u) : Settled u := by
  obtain ⟨cnt, t, rest, node, -, hn, ho, rfl⟩ := treeRead_ok h
  exact commitHeader_settled (Settled.of_flags_clear q.inCanonical q.outCanonical rfl rfl) rfl ho hn

theorem treeRead_raised_settled {s u : State} {e : ErrorKind} (q : Settled s)
    (h : treeReadFromStart s = .raised e u) : Settled u := by
  obtain ⟨-, -, h⟩ := treeRead_raised h
  rw [h]
  exact Settled.of_flags_clear q.inCanonical q.outCanonical rfl rfl

end Sys2Proof.Machine
end

