-- ==== Sys2Proof/Tests/Slice0.lean ====
section
/-! SUPPORT. Decode tests, the smoke of WellFormed, one or two steps of every instruction with results from
spec/95_test_vectors.md, and a witness for the hypotheses of every obligation that has any. -/

namespace Sys2Proof.Machine

set_option Elab.async false

/-! ## Helpers -/

/-- The next state, if there is one. -/
def nextOf : Host.Outcome State Fault Refusal → Option State
  | .next s => some s
  | .fault _ => none
  | .refused _ => none

/-- The state an instruction leaves. -/
def after (i : Instr) (s : State) : State := (nextOf (exec i s)).getD s

theorem exec_after {i : Instr} {s : State} (h : (nextOf (exec i s)).isSome = true) :
    exec i s = .next (after i s) := by
  unfold after
  cases hx : exec i s with
  | next t => rfl
  | fault f => rw [hx] at h; cases h
  | refused r => rw [hx] at h; cases h

theorem after_spec {α : Type} {i : Instr} {s : State} {f : State → α} {a : α}
    (h : (nextOf (exec i s)).map f = some a) : exec i s = .next (after i s) ∧ f (after i s) = a := by
  unfold after
  cases hx : exec i s with
  | next t => rw [hx] at h; exact ⟨rfl, Option.some.inj h⟩
  | fault e => rw [hx] at h; cases h
  | refused r => rw [hx] at h; cases h

/-- The bytes `bs` loaded into IN of the state `s`, as the host does it (20_memory R74). -/
def load (bs : List Byte) (s : State) : State :=
  { s with inMem := storeFrom [] 0 bs, inLen := BitVec.ofNat 32 bs.length }

/-- One step with a CMD write of `c` pending. -/
def runCmd (c : Word) (s : State) : Option State := nextOf (step { s with host := [.writeReg 0 c] })

/-- DONE, ERROR, ERRCODE, IPTR, BITCOUNT and OUT after a step. -/
structure Ended where
  done : Bool
  error : Bool
  errcode : Nat
  iptr : Nat
  bitcount : Nat
  out : List Byte
  deriving DecidableEq, Repr

def ended (s : Option State) : Option Ended :=
  s.map fun t => ⟨t.done, t.error, t.errcode.toNat, t.iptr.toNat, t.bitcount.toNat, t.outBytes⟩

def leafEntry (v : Byte) (w : Word) : NodeEntry := ⟨.leaf, v, w, 0, 0⟩
def intEntry (w : Word) (l r : Index) : NodeEntry := ⟨.internal, 0, w, l, r⟩

/-- An arena with the entries `es` from entry 0 on. -/
def arena (es : List NodeEntry) : NodeTable :=
  (es.zipIdx).foldl (fun t x => tableSet t x.2 x.1) State.reset.node

/-- The input of 95_test_vectors V1 and V70. -/
def knownInput : List Byte := [0x00, 0x00, 0x01, 0x01, 0x02, 0x02, 0x02]

/-- The stream of V70. -/
def knownStream : List Byte :=
  [0x00, 0x00, 0x00, 0x07, 0x00, 0x01, 0x02, 0x00, 0x01, 0x00, 0x01, 0x01, 0xAF, 0x00]

/-- The counts of V1. -/
def knownFreq : FreqTable :=
  tableSet (tableSet (tableSet State.reset.freq 0 2) 1 2) 2 3

/-- The arena of V10. -/
def knownArena : NodeTable :=
  arena [leafEntry 0x00 2, leafEntry 0x01 2, leafEntry 0x02 3, intEntry 4 0 1, intEntry 7 2 3]

/-- The state of V10, with the input still loaded. -/
def built : State :=
  { load knownInput State.reset with
    freq := knownFreq, symcount := 7, iptr := 7, node := knownArena, nleaf := 3, nnodes := 5, root := 4
    treeValid := true }

/-- The codes of V26: 0x00 "10", 0x01 "11", 0x02 "0"; bit 254 of BITS is `c_0` (V29a). -/
def knownCodes : CodeTable :=
  tableSet (tableSet (tableSet State.reset.code 0 ⟨true, 2, BitVec.twoPow 255 254⟩) 1
    ⟨true, 2, BitVec.twoPow 255 254 ||| BitVec.twoPow 255 253⟩) 2 ⟨true, 1, 0⟩

/-- The state of V26. -/
def derived : State := { built with code := knownCodes, codeValid := true }

/-- The state of V35. -/
def headerRead : State :=
  { load knownStream State.reset with
    symcount := 7, iptr := 12, nleaf := 3, nnodes := 5, root := 0, treeValid := true
    node := arena [intEntry 0 1 2, leafEntry 0x02 0, intEntry 0 3 4, leafEntry 0x00 0, leafEntry 0x01 0] }

/-- A TREAD that has read the count 2 of `bs` and stands before its first record. -/
def parsingState (bs : List Byte) : State :=
  { load bs State.reset with
    cmd := 0x07, busy := true, parsing := true, parser := HeaderParse.start 4 2 }

/-! ## Decoding: words written out from 30_encoding R81 and R90 -/

theorem test_decode_encode : decode .command [0b00000001] = .ok (.encode, []) := by rfl
theorem test_decode_decode : decode .command [0b00000010] = .ok (.decode, []) := by rfl
theorem test_decode_count : decode .command [0b00000011] = .ok (.count, []) := by rfl
theorem test_decode_build : decode .command [0b00000100] = .ok (.build, []) := by rfl
theorem test_decode_derive : decode .command [0b00000101] = .ok (.derive, []) := by rfl
theorem test_decode_twrite : decode .command [0b00000110] = .ok (.twrite, []) := by rfl
theorem test_decode_tread : decode .command [0b00000111] = .ok (.tread, []) := by rfl
theorem test_decode_benc : decode .command [0b00001000] = .ok (.benc, []) := by rfl
theorem test_decode_bdec : decode .command [0b00001001] = .ok (.bdec, []) := by rfl
theorem test_decode_recInternal : decode .stream [0b00000000, 0x05] = .ok (.recInternal, [0x05]) := by rfl
theorem test_decode_recLeaf : decode .stream [0b00000001, 0b01000001, 0x05] = .ok (.recLeaf 0x41, [0x05]) := by rfl

/-- 30_encoding R85, R92: what is reserved is refused by name. -/
theorem test_decode_reserved :
    decode .command [0x00] = .error (.reservedCommand 0x00) ∧
    decode .command [0x0A] = .error (.reservedCommand 0x0A) ∧
    decode .command [0xFF] = .error (.reservedCommand 0xFF) ∧
    decode .stream [0x02, 0x41] = .error (.reservedMarker 0x02) ∧
    decode .stream [0xFF] = .error (.reservedMarker 0xFF) ∧
    decode .stream [0x01] = .error .leafValueMissing ∧
    decode .stream [] = .error .markerMissing := ⟨rfl, rfl, rfl, rfl, rfl, rfl, rfl⟩

/-- The words of spec/opcode_table.json, each run as the first instruction after reset. -/
theorem test_fetch_words :
    step (State.reset.withFetchWord 8 0x03) = exec .count { State.reset with cmd := 0x03 } ∧
    step (State.reset.withFetchWord 8 0x09) = exec .bdec { State.reset with cmd := 0x09 } ∧
    step (State.reset.withFetchWord 16 0x0141) = exec (.recLeaf 0x41) (State.reset.withFetchWord 16 0x0141) ∧
    step (State.reset.withFetchWord 8 0x00) = exec .recInternal (State.reset.withFetchWord 8 0x00) := by
  refine ⟨rfl, rfl, rfl, rfl⟩

/-! ## WellFormed smoke: one ill-formed sequence for each check -/

theorem test_wellFormed_header :
    HeaderWellFormed [.recInternal, .recLeaf 0x02, .recInternal, .recLeaf 0x00, .recLeaf 0x01] = true := by decide
theorem test_wellFormed_no_record : HeaderWellFormed [] = false := by decide
theorem test_wellFormed_command_among_records :
    HeaderWellFormed [.recInternal, .count, .recLeaf 0x01] = false := by decide
theorem test_wellFormed_incomplete : HeaderWellFormed [.recInternal, .recLeaf 0x01] = false := by decide
theorem test_wellFormed_trailing : HeaderWellFormed [.recLeaf 0x01, .recLeaf 0x02] = false := by decide
theorem test_wellFormed_duplicate :
    HeaderWellFormed [.recInternal, .recLeaf 0x41, .recLeaf 0x41] = false := by decide
theorem test_wellFormed_leaf : (Instr.recLeaf 0xFF).WellFormed = true := by decide

/-! ## Steps: results from spec/95_test_vectors.md -/

/-- V1. -/
theorem test_count : (runCmd 0x03 (load knownInput State.reset)).map
    (fun t => (t.freq, t.symcount, t.iptr, t.outLen, t.treeValid)) = some (knownFreq, 7, 7, 0, false) := by
  decide +kernel

/-- V2. -/
theorem test_count_empty : ended (runCmd 0x03 State.reset) = some ⟨false, true, 1, 0, 0, []⟩ := by decide +kernel

/-- V10. -/
theorem test_build : (runCmd 0x04 { load knownInput State.reset with freq := knownFreq }).map
    (fun t => (t.node, t.nleaf, t.nnodes, t.root, t.treeValid, t.codeValid)) =
      some (knownArena, 3, 5, 4, true, false) := by decide +kernel

/-- V20: a leaf and an internal entry of equal weight. -/
theorem test_build_tie : (runCmd 0x04 { State.reset with
      freq := tableSet (tableSet (tableSet State.reset.freq 0x61 1) 0x62 1) 0x63 2 }).map
    (fun t => (t.node, t.root)) = some (arena [leafEntry 0x61 1, leafEntry 0x62 1, leafEntry 0x63 2,
      intEntry 2 0 1, intEntry 4 2 3], 4) := by decide +kernel

/-- V26. -/
theorem test_derive : (runCmd 0x05 built).map (fun t => (t.code, t.codeValid)) = some (knownCodes, true) := by
  decide +kernel

/-- V29c. -/
theorem test_derive_no_tree : ended (runCmd 0x05 State.reset) = some ⟨false, true, 5, 0, 0, []⟩ := by decide +kernel

/-- V30. -/
theorem test_twrite : ended (runCmd 0x06 built) = some ⟨true, false, 0, 7, 0,
    [0x00, 0x00, 0x00, 0x07, 0x00, 0x01, 0x02, 0x00, 0x01, 0x00, 0x01, 0x01]⟩ := by decide +kernel

/-- V32a, with the tree of V10: the byte order of the count. -/
theorem test_twrite_count : (runCmd 0x06 { built with symcount := 0x01020304 }).map (fun t => t.outBytes.take 4) =
    some [0x01, 0x02, 0x03, 0x04] := by decide +kernel

/-- V35. -/
theorem test_tread : (runCmd 0x07 (load knownStream State.reset)).map
    (fun t => (t.node, t.symcount, t.nleaf, t.nnodes, t.root, t.iptr)) =
      some (headerRead.node, 7, 3, 5, 0, 12) := by decide +kernel

/-- V40: a duplicate leaf value. -/
theorem test_tread_duplicate : ended (runCmd 0x07
    (load [0x00, 0x00, 0x00, 0x02, 0x00, 0x01, 0x41, 0x01, 0x41] State.reset)) =
      some ⟨false, true, 3, 0, 0, []⟩ := by decide +kernel

/-- V50. -/
theorem test_benc : ended (runCmd 0x08 derived) = some ⟨true, false, 0, 7, 11, [0xAF, 0x00]⟩ := by decide +kernel

/-- V54: a byte without a code. -/
theorem test_benc_no_code : ended (runCmd 0x08 (load [0x00, 0x03] derived)) = some ⟨false, true, 5, 0, 0, []⟩ := by
  decide +kernel

/-- V60. -/
theorem test_bdec : ended (runCmd 0x09 headerRead) = some ⟨true, false, 0, 14, 11, knownInput⟩ := by decide +kernel

/-- V64: no payload left. -/
theorem test_bdec_truncated : ended (runCmd 0x09 { headerRead with iptr := 14 }) =
    some ⟨false, true, 4, 0, 0, []⟩ := by decide +kernel

/-- V70. -/
theorem test_encode : ended (runCmd 0x01 (load knownInput State.reset)) =
    some ⟨true, false, 0, 7, 11, knownStream⟩ := by decide +kernel

/-- S4: the single-symbol input. -/
theorem test_encode_single : ended (runCmd 0x01 (load [0x00, 0x00, 0x00, 0x00, 0x00] State.reset)) =
    some ⟨true, false, 0, 5, 0, [0x00, 0x00, 0x00, 0x05, 0x01, 0x00]⟩ := by decide +kernel

/-- V80. -/
theorem test_decode : ended (runCmd 0x02 (load knownStream State.reset)) =
    some ⟨true, false, 0, 14, 11, knownInput⟩ := by decide +kernel

/-- V34: a tree byte removed from the middle is read as another tree. -/
theorem test_decode_inner_removal : ended (runCmd 0x02
    (load [0x00, 0x00, 0x00, 0x07, 0x00, 0x01, 0x02, 0x00, 0x01, 0x00, 0x01, 0xAF, 0x00] State.reset)) =
      some ⟨true, false, 0, 13, 7, [0x02, 0x02, 0x02, 0x02, 0x02, 0x02, 0x02]⟩ := by decide +kernel

/-- 43_tree_codec R146: an INTERNAL record opens entry 0 and waits for its children. -/
theorem test_recInternal : (nextOf (step (parsingState [0, 0, 0, 2, 0x00, 0x01, 0x41, 0x01, 0x42]))).map
    (fun t => (t.busy, t.parser.p, t.parser.nn, t.parser.ni, t.parser.stk)) =
      some (true, 5, 1, 1, [⟨0, none⟩]) := by decide +kernel

/-- 43_tree_codec R146: a LEAF record as a whole tree ends the TREAD. -/
theorem test_recLeaf : (nextOf (step (parsingState [0, 0, 0, 2, 0x01, 0x41]))).map
    (fun t => (t.done, t.symcount, t.iptr, t.nleaf, t.nnodes, nodeAt t.node 0)) =
      some (true, 2, 6, 1, 1, leafEntry 0x41 0) := by decide +kernel

/-- V29a: the storage form of a code. -/
theorem test_code_registers :
    derived.readReg 0x1000 = .value 0x00000102 ∧ derived.readReg 0x1001 = .value 0x80000000 ∧
    derived.readReg 0x1020 = .value 0x00000101 ∧ derived.readReg 0x1021 = .value 0x00000000 := by decide +kernel

/-- P1: STATUS after a DECODE. -/
theorem test_status : (runCmd 0x02 (load knownStream State.reset)).map State.status = some 0x0A := by decide +kernel

/-! ## Witnesses

`witness_X` meets every hypothesis of `Obligations.X` together, clause by clause where the clauses have hypotheses
of their own. -/

def knownTree : Tree := .node (.leaf 0x02) (.node (.leaf 0x00) (.leaf 0x01))

theorem built_tree : built.tree? = some knownTree := by decide +kernel

theorem built_wellFormed : WellFormedTree built :=
  ⟨by decide, by decide, by decide, ⟨[4, 2, 3, 0, 1], by decide +kernel, by decide⟩, by decide +kernel⟩

theorem derived_tree : derived.tree? = some knownTree := built_tree

theorem derived_wellFormed : WellFormedTree derived := built_wellFormed.congr rfl rfl rfl rfl

theorem derived_code : derived.code = codesOf knownTree := by decide +kernel

theorem headerRead_tree : headerRead.tree? = some knownTree := by decide +kernel

theorem headerRead_wellFormed : WellFormedTree headerRead :=
  ⟨by decide, by decide, by decide, ⟨[0, 1, 2, 3, 4], by decide +kernel, by decide⟩, by decide +kernel⟩

/-- The state of S4 after TREAD: a single leaf 0x00. -/
def single : State :=
  { load [0x00, 0x00, 0x00, 0x05, 0x01, 0x00] State.reset with
    symcount := 5, iptr := 6, nleaf := 1, nnodes := 1, root := 0, treeValid := true
    node := arena [leafEntry 0x00 0] }

theorem single_wellFormed : WellFormedTree single :=
  ⟨by decide, by decide, by decide, ⟨[0], by decide +kernel, by decide⟩, by decide +kernel⟩

theorem inCap_fits : built.inLen.toNat ≤ Config.inCap := by decide +kernel

theorem witness_ResetAbandonsTheCommand : ∃ (s : State) (rest : List HostMove), s.host = .reset :: rest ∧ s.busy = true :=
  ⟨{ parsingState [0, 0, 0, 2] with host := [.reset] }, [], rfl, rfl⟩

theorem witness_DecodeOfEncodeIsTheInstruction : (Instr.recLeaf 0x00).WellFormed = true := by decide

theorem witness_DecodedBytesAreTheEncoding :
    decode .stream [0x01, 0xFF, 0x00] = .ok (.recLeaf 0xFF, [0x00]) ∧ decode .command [0x09] = .ok (.bdec, []) :=
  ⟨rfl, rfl⟩

theorem witness_TreeGrammarIsSelfDelimiting : (leavesOf knownTree).Nodup ∧
    serialize knownTree ++ [0xAF] = serialize knownTree ++ [0xAF] := by decide

theorem witness_CmdWriteRunsDecodedCommand : ∃ (s : State) (rest : List HostMove) (num : BitVec 13) (w : Word) (i : Instr), s.busy = false ∧
    s.host = .writeReg num w :: rest ∧ num = 0x000 ∧ s.inLen.toNat ≤ Config.inCap ∧
    decode .command [w.setWidth 8] = .ok (i, []) :=
  ⟨{ built with host := [.writeReg 0 0x05] }, [], 0, 0x05, .derive, rfl, rfl, rfl, inCap_fits, rfl⟩

theorem leaf_due : (parsingState [0, 0, 0, 2, 0x01, 0x41]).streamRest = [0x01, 0x41] := by decide +kernel

theorem leaf_cut : ({ parsingState [0, 0, 0, 2, 0x01] with host := [.waitIdle] } : State).streamRest = [0x01] := by
  decide +kernel

theorem witness_BusyEngineRunsDecodedRecord :
    ∃ (s s' : State) (i : Instr) (rest : List Byte) (e : DecodeError), s.busy = true ∧ s.parsing = true ∧ s.host = [] ∧
    decode .stream s.streamRest = .ok (i, rest) ∧ s'.busy = true ∧ s'.parsing = true ∧
    (∃ r, s'.host = .waitIdle :: r) ∧ decode .stream s'.streamRest = .error e :=
  ⟨parsingState [0, 0, 0, 2, 0x01, 0x41], { parsingState [0, 0, 0, 2, 0x01] with host := [.waitIdle] },
    .recLeaf 0x41, [], .leafValueMissing, rfl, rfl, rfl, by rw [leaf_due]; rfl, rfl, rfl, ⟨[], rfl⟩,
    by rw [leaf_cut]; rfl⟩

theorem witness_ReservedCommandCodesRaise : ∀ w ∈ [(0x00 : Word), 0x0A, 0xFF],
    ∃ (s : State) (rest : List HostMove),
    s.busy = false ∧ s.host = .writeReg 0x000 w :: rest ∧ s.inLen.toNat ≤ Config.inCap ∧
    ((w.setWidth 8 : Byte) = 0x00 ∨ 0x0A ≤ (w.setWidth 8 : Byte).toNat) := by
  intro w hw
  refine ⟨{ built with host := [.writeReg 0 w] }, [], rfl, rfl, inCap_fits, ?_⟩
  simp only [List.mem_cons, List.not_mem_nil, or_false] at hw
  rcases hw with rfl | rfl | rfl <;> decide

theorem witness_CommandsEndByEpilogueOrAbort :
    (∃ t, needsNothing (prologue built) = true ∧ count (prologue built) = .ok t) ∧
    ∃ t, needsNothing (prologue State.reset) = true ∧
      count (prologue State.reset) = .raised .emptyInput t := by
  exact ⟨⟨_, rfl, count_of_input (s := prologue built) (by decide)⟩,
    _, rfl, count_of_empty (s := prologue State.reset) (by decide)⟩

theorem witness_PreconditionsOnState :
    State.reset.treeValid = false ∧ built.codeValid = false ∧ built.treeValid = true ∧ derived.codeValid = true ∧
    headerRead.treeValid = true ∧ headerRead.iptr ≤ headerRead.inLen ∧
    ({ headerRead with iptr := 15 } : State).inLen < ({ headerRead with iptr := 15 } : State).iptr := by decide

theorem every_command_ends : ∀ i ∈ [Instr.encode, .decode, .count, .build, .derive, .twrite, .tread, .benc, .bdec],
    i.space = .command ∧ (nextOf (exec i derived)).isSome = true := by decide +kernel

theorem witness_CommandsSucceedOrReportOneError (i : Instr)
    (h : i ∈ [Instr.encode, .decode, .count, .build, .derive, .twrite, .tread, .benc, .bdec]) :
    i.space = .command ∧ exec i derived = .next (after i derived) :=
  ⟨(every_command_ends i h).1, exec_after (every_command_ends i h).2⟩

theorem witness_ErrorsEachCommandCanReport : Instr.tread.space = .command ∧
    exec .tread derived = .next (after .tread derived) ∧ (after .tread derived).errcode = 3 :=
  ⟨rfl, exec_after (by decide +kernel), by decide +kernel⟩

theorem witness_CommandsWriteOnlyWhatIsListed (i : Instr)
    (h : i ∈ [Instr.encode, .decode, .count, .build, .derive, .twrite, .tread, .benc, .bdec]) :
    i.space = .command ∧ exec i derived = .next (after i derived) :=
  witness_CommandsSucceedOrReportOneError i h

theorem witness_IptrAfterEachCommand :
    (∀ i ∈ [Instr.encode, .count, .build, .derive, .twrite, .benc],
      i.space = .command ∧ (nextOf (exec i derived)).isSome = true ∧ (after i derived).error = false) ∧
    (∀ i ∈ [Instr.decode, .tread, .bdec], i.space = .command ∧
      (nextOf (exec i headerRead)).isSome = true ∧ (after i headerRead).error = false) ∧
    (nextOf (exec .count State.reset)).isSome = true ∧ (after .count State.reset).error = true := by decide +kernel

theorem witness_TransientsDoNotMatter : Instr.benc.space = .command ∧
    SameButTransients derived { derived with acc := 0x5A, nb := 3, cur := 7 } ∧
    exec .benc derived = .next (after .benc derived) :=
  ⟨rfl, rfl, exec_after (by decide +kernel)⟩

theorem witness_CountLeavesTheByteCounts : (load [0xFF] State.reset).inLen ≠ 0 ∧ State.reset.inLen = 0 := by decide

theorem witness_ExtractMinTakesTheLeastKey :
    (⟨built.node, 0b111, 3, 2⟩ : BuildWork).inq.getLsbD 1 = true ∧
    (⟨built.node, 0b111, 3, 2⟩ : BuildWork).inq.getLsbD 0 = true := by decide +kernel

theorem witness_MergeMakesTheNewNode :
    (⟨built.node, 0b110, 510, 509⟩ : BuildWork).n < 511 ∧ 0 < 511 ∧ 510 < 511 := by decide

theorem witness_BuildMakesLeavesInByteOrder : presentBytes built.freq ≠ [] ∧
    1 < (presentBytes built.freq).length - 1 := by decide +kernel

theorem witness_BuildRaisesOnEmptyTable : ∀ b : Byte, freqAt State.reset.freq b = 0 := by decide +kernel

theorem built_builds : exec .build built = .next (after .build built) ∧ (after .build built).error = false :=
  after_spec (by decide +kernel)

theorem witness_BuiltTreeIsWellFormed : exec .build built = .next (after .build built) ∧
    (after .build built).error = false := built_builds

theorem witness_BuiltTreeIsWellFormed_counted :
    exec .count (load knownInput State.reset) = .next (after .count (load knownInput State.reset)) ∧
    (after .count (load knownInput State.reset)).error = false ∧
    exec .build (after .count (load knownInput State.reset)) =
      .next (after .build (after .count (load knownInput State.reset))) ∧
    (after .build (after .count (load knownInput State.reset))).error = false :=
  have h := after_spec (i := .count) (s := load knownInput State.reset) (f := State.error) (a := false)
    (by decide +kernel)
  have h' := after_spec (i := .build) (s := after .count (load knownInput State.reset)) (f := State.error)
    (a := false) (by decide +kernel)
  ⟨h.1, h.2, h'.1, h'.2⟩

theorem witness_BuildDependsOnFreqAlone : ∃ s s' t t' : State, s ≠ s' ∧ s.freq = s'.freq ∧ exec .build s = .next t ∧
    exec .build s' = .next t' ∧ t.error = false :=
  ⟨built, { derived with inq := 5 }, after .build built, after .build { derived with inq := 5 },
    by decide +kernel, rfl, built_builds.1, exec_after (by decide +kernel), built_builds.2⟩

theorem witness_DeriveRecordsThePaths :
    (built.treeValid = true ∧ WellFormedTree built ∧ codeIn knownTree 0x00 = some [true, false] ∧
      codeIn knownTree 0x03 = none) ∧
    single.treeValid = true ∧ WellFormedTree single ∧ single.tree? = some (.leaf 0x00) :=
  ⟨⟨rfl, built_wellFormed, by decide, by decide⟩, rfl, single_wellFormed, by decide +kernel⟩

theorem witness_DerivedCodesArePrefixFree : WellFormedTree built ∧
    exec .derive built = .next (after .derive built) ∧ (after .derive built).error = false ∧
    2 ≤ (after .derive built).nleaf.toNat ∧ (codeAt (after .derive built).code 0x00).present = true ∧
    (codeAt (after .derive built).code 0x01).present = true :=
  ⟨built_wellFormed, exec_after (by decide +kernel), by decide +kernel, by decide +kernel, by decide +kernel,
    by decide +kernel⟩

theorem witness_TwriteEmitsTheHeader : built.treeValid = true ∧ WellFormedTree built := ⟨rfl, built_wellFormed⟩

theorem witness_TreadReadsTheHeader : (load knownStream State.reset).inputBytes =
    0x00 :: 0x00 :: 0x00 :: 0x07 :: (serialize knownTree ++ [0xAF, 0x00]) ∧ (leavesOf knownTree).Nodup := by
  decide +kernel

theorem witness_TreadRejectsExactlyMalformedHeaders : ¬ ∃ b0 b1 b2 b3 tr rest, State.reset.inputBytes =
    b0 :: b1 :: b2 :: b3 :: (serialize tr ++ rest) ∧ (leavesOf tr).Nodup := by
  rintro ⟨_, _, _, _, _, _, h, -⟩
  cases h

theorem witness_HeaderRoundTrip : built.treeValid = true ∧ WellFormedTree built ∧
    exec .twrite built = .next (after .twrite built) ∧
    (load (after .twrite built).outBytes State.reset).inputBytes = (after .twrite built).outBytes :=
  ⟨rfl, built_wellFormed, exec_after (by decide +kernel), by decide +kernel⟩

theorem witness_HeaderRoundTrip_back : exec .tread headerRead = .next (after .tread headerRead) ∧
    (after .tread headerRead).error = false := after_spec (by decide +kernel)

/-- A TREAD with the frames `stk` and the leaf values `seen` behind it. -/
def leafParse (stk : List Frame) (seen : BitVec 256) : State :=
  { parsingState [] with parser := { HeaderParse.start 4 2 with seen := seen, stk := stk } }

theorem witness_LeafRecordTurn :
    (leafParse [⟨0, none⟩] 0).busy = true ∧ (leafParse [⟨0, none⟩] 0).parsing = true ∧
    (leafParse [⟨0, none⟩] 0).parser.seen.getLsbD (0xFF : Byte).toNat = false ∧
    (leafParse [⟨0, none⟩] 0).parser.stk = waitingRight [] ++ ⟨0, none⟩ :: [] ∧
    (leafParse [⟨4, some 5⟩, ⟨2, some 3⟩, ⟨0, none⟩] 0).parser.stk = waitingRight [(4, 5), (2, 3)] ++ ⟨0, none⟩ :: [] ∧
    (leafParse [] 0).cmd = 0x07 ∧ (leafParse [] 0).parser.stk = waitingRight [] ∧
    (leafParse [⟨0, some 1⟩] 0).parser.stk = waitingRight [(0, 1)] ∧
    (leafParse [⟨2, some 3⟩, ⟨0, some 1⟩] 0).parser.stk = waitingRight [(2, 3), (0, 1)] ∧
    ({ leafParse [⟨0, some 1⟩] 0 with cmd := 0x02 } : State).cmd = 0x02 ∧
    (leafParse [] (BitVec.twoPow 256 255)).parser.seen.getLsbD (0xFF : Byte).toNat = true := by decide +kernel

theorem witness_InternalRecordTurn : ∃ s s' : State, s.busy = true ∧ s.parsing = true ∧ s.parser.ni = 254 ∧
    s'.busy = true ∧ s'.parsing = true ∧ s'.parser.ni = 255 :=
  ⟨{ parsingState [] with parser := { HeaderParse.start 4 2 with ni := 254 } },
    { parsingState [] with parser := { HeaderParse.start 4 2 with ni := 255 } }, rfl, rfl, rfl, rfl, rfl, rfl⟩

theorem witness_RecordOutsideHeaderHasNoEffect : State.reset.busy = false ∧ State.reset.parsing = false := ⟨rfl, rfl⟩

theorem witness_RecordByRecordAgrees : ∀ c ∈ [(0x07 : Byte), 0x02], ∃ s s1 : State,
    s.host = [] ∧ s.cmd = c ∧ beginHeader { prologue s with iptr := 0 } = some s1 := by
  intro c _
  exact ⟨{ load knownStream State.reset with cmd := c }, _, rfl, rfl, rfl⟩

theorem witness_BencPacksTheCodes : derived.codeValid = true ∧ WellFormedTree derived ∧
    derived.tree? = some knownTree ∧ derived.code = codesOf knownTree ∧
    ∀ v ∈ derived.inputBytes, v ∈ leavesOf knownTree :=
  ⟨rfl, derived_wellFormed, derived_tree, derived_code, by decide +kernel⟩

theorem witness_BencStopsAtByteWithoutCode : (load [0x00, 0x03] derived).codeValid = true ∧
    WellFormedTree (load [0x00, 0x03] derived) ∧ (load [0x00, 0x03] derived).tree? = some knownTree ∧
    (load [0x00, 0x03] derived).code = codesOf knownTree ∧
    (load [0x00, 0x03] derived).inputBytes = [0x00] ++ 0x03 :: [] ∧
    (∀ u ∈ [(0x00 : Byte)], u ∈ leavesOf knownTree) ∧ 0x03 ∉ leavesOf knownTree :=
  ⟨rfl, derived_wellFormed.congr rfl rfl rfl rfl, derived_tree, derived_code, by decide +kernel, by decide, by decide⟩

theorem witness_BdecWalksTheTree : headerRead.treeValid = true ∧ headerRead.iptr ≤ headerRead.inLen ∧
    WellFormedTree headerRead ∧ headerRead.tree? = some knownTree ∧
    readSymbols knownTree headerRead.symcount.toNat headerRead.payloadBits =
      some (knownInput, [false, false, false, false, false]) :=
  ⟨rfl, by decide, headerRead_wellFormed, headerRead_tree, by decide +kernel⟩

theorem witness_BdecSingleLeafAndZeroCount :
    (single.treeValid = true ∧ single.iptr ≤ single.inLen ∧ WellFormedTree single ∧
      single.tree? = some (.leaf 0x00)) ∧
    ({ headerRead with symcount := 0 } : State).symcount = 0 ∧
    WellFormedTree { headerRead with symcount := 0 } ∧
    ({ headerRead with symcount := 0 } : State).tree? = some knownTree :=
  ⟨⟨rfl, by decide, single_wellFormed, by decide +kernel⟩, rfl, headerRead_wellFormed.congr rfl rfl rfl rfl,
    headerRead_tree⟩

theorem witness_BdecTruncatedExactlyWhenBitsRunOut :
    ∃ (s : State) (n : Nat) (vs : List Byte) (rest : List Bool), s.treeValid = true ∧ s.iptr ≤ s.inLen ∧
    WellFormedTree s ∧ s.tree? = some knownTree ∧ n < s.symcount.toNat ∧
    readSymbols knownTree n s.payloadBits = some (vs, rest) ∧ readSymbol knownTree rest = none :=
  ⟨{ headerRead with iptr := 14 }, 0, [], [], rfl, by decide, headerRead_wellFormed.congr rfl rfl rfl rfl,
    headerRead_tree, by decide, by decide +kernel, rfl⟩

/-- The state that is to decode the payload of `derived`. -/
def payloadLoaded : State := { load [0xAF, 0x00] headerRead with iptr := 0 }

theorem witness_PayloadRoundTrip : derived.codeValid = true ∧ WellFormedTree derived ∧
    derived.tree? = some knownTree ∧ derived.code = codesOf knownTree ∧
    (∀ v ∈ derived.inputBytes, v ∈ leavesOf knownTree) ∧
    exec .benc derived = .next (after .benc derived) ∧ payloadLoaded.treeValid = true ∧
    WellFormedTree payloadLoaded ∧ payloadLoaded.tree? = some knownTree ∧
    payloadLoaded.symcount = derived.inLen ∧ payloadLoaded.iptr = 0 ∧
    payloadLoaded.inputBytes = (after .benc derived).outBytes :=
  ⟨rfl, derived_wellFormed, derived_tree, derived_code, by decide +kernel, exec_after (by decide +kernel), rfl,
    headerRead_wellFormed.congr rfl rfl rfl rfl, headerRead_tree, by decide, rfl, by decide +kernel⟩

theorem witness_MacroCommandsAreTheirComponents :
    exec .encode derived = .next (after .encode derived) ∧ exec .decode headerRead = .next (after .decode headerRead) :=
  ⟨(witness_CommandsSucceedOrReportOneError .encode (by decide)).2, exec_after (by decide +kernel)⟩

theorem witness_EncodeEmitsTheStream : built.inLen ≠ 0 ∧ State.reset.inLen = 0 := by decide

theorem witness_DecodeReadsAnyAcceptedStream : headerRead.inputBytes =
      be32 7 ++ serialize knownTree ++ [0xAF, 0x00] ∧ (leavesOf knownTree).Nodup ∧
    readSymbols knownTree (7 : Word).toNat ([(0xAF : Byte), 0x00].flatMap byteBits) =
      some (knownInput, [false, false, false, false, false]) := by decide +kernel

theorem witness_DecodeErrors :
    (¬ ∃ cnt tr rest, State.reset.inputBytes = be32 cnt ++ serialize tr ++ rest ∧ (leavesOf tr).Nodup) ∧
    (load (knownStream.take 12) State.reset).inputBytes = be32 7 ++ serialize knownTree ++ [] ∧
    (leavesOf knownTree).Nodup ∧
    readSymbols knownTree (7 : Word).toNat (([] : List Byte).flatMap byteBits) = none := by
  refine ⟨?_, by decide +kernel, by decide, by decide +kernel⟩
  rintro ⟨_, _, _, h, -⟩
  cases h

theorem built_encodes : exec .encode built = .next (after .encode built) ∧
    ((after .encode built).outBytes, (after .encode built).nleaf) = (knownStream, 3) :=
  after_spec (f := fun t => (t.outBytes, t.nleaf)) (by decide +kernel)

theorem built_stream : (after .encode built).outBytes = knownStream := (Prod.mk.inj built_encodes.2).1

theorem built_nleaf : (after .encode built).nleaf = 3 := (Prod.mk.inj built_encodes.2).2

theorem witness_RoundTrip : built.inLen ≠ 0 ∧ exec .encode built = .next (after .encode built) ∧
    headerRead.inputBytes = (after .encode built).outBytes :=
  ⟨by decide, built_encodes.1, by rw [built_stream]; decide +kernel⟩

theorem witness_CutTreeSectionRejected : built.inLen ≠ 0 ∧ exec .encode built = .next (after .encode built) ∧
    (load (knownStream.take 11) State.reset).inputBytes =
      (after .encode built).outBytes.take (4 + (3 * (after .encode built).nleaf.toNat - 1) - 1) :=
  ⟨by decide, built_encodes.1, by rw [built_stream, built_nleaf]; decide +kernel⟩

theorem witness_TruncatedPayloadRejected : 2 ≤ (after .encode built).nleaf.toNat ∧ built.inLen ≠ 0 ∧
    exec .encode built = .next (after .encode built) ∧
    ∀ n ∈ [12, 13], 4 + (3 * (after .encode built).nleaf.toNat - 1) ≤ n ∧
      n < (after .encode built).outBytes.length ∧
      (load (knownStream.take n) State.reset).inputBytes = (after .encode built).outBytes.take n := by
  rw [built_stream, built_nleaf]
  exact ⟨by decide, by decide, built_encodes.1, by decide +kernel⟩

/-- Each clause at the ends of its range. -/
theorem witness_RegisterReads : derived.treeValid = true ∧ derived.codeValid = true ∧
    0 < derived.nnodes.toNat ∧ 4 < derived.nnodes.toNat ∧ derived.nnodes.toNat ≤ 5 ∧
    State.reset.treeValid = false ∧ State.reset.codeValid = false ∧ built.codeValid = false ∧
    (∀ n ∈ [0x00D, 0x0FF, 0x200, 0x3FF, 0x7FE, 0xFFF, 0x1009, 0x100F, 0x1FF9, 0x1FFF],
      (0x00D ≤ n ∧ n ≤ 0x0FF) ∨ (0x200 ≤ n ∧ n ≤ 0x3FF) ∨ (0x7FE ≤ n ∧ n ≤ 0xFFF) ∨
        (0x1000 ≤ n ∧ n ≤ 0x1FFF ∧ 9 ≤ n % 16)) := by decide

theorem witness_HostReadDeliversTheWord :
    ({ built with host := [.readReg 0x007] } : State).busy = false ∧
    ({ built with host := [.readReg 0x007] } : State).host = [.readReg 0x007] ∧
    ({ built with host := [.readReg 0x007] } : State).readReg (0x007 : BitVec 13).toNat = .value 7 ∧
    ({ built with host := [.readReg 0x1000] } : State).host = [.readReg 0x1000] ∧
    ({ built with host := [.readReg 0x1000] } : State).readReg (0x1000 : BitVec 13).toNat = .unspecified 0x1FF := by
  decide +kernel

theorem witness_HostWritesTakeOrAreIgnored : ∀ num ∈ [(0x003 : BitVec 13), 0x004, 0x007, 0x001, 0x1FFF],
    ∃ (s : State) (rest : List HostMove) (w : Word), s.busy = false ∧ s.host = .writeReg num w :: rest ∧ num ≠ 0x000 := by
  intro num h
  refine ⟨{ built with host := [.writeReg num 9] }, [], 9, rfl, rfl, ?_⟩
  simp only [List.mem_cons, List.not_mem_nil, or_false] at h
  rcases h with rfl | rfl | rfl | rfl | rfl <;> decide

theorem witness_HostWriteInStoresOneByte : ∀ a ∈ [(0 : Word), 0xFFFFFFFE, 0xFFFFFFFF], ∃ (s : State) (rest : List HostMove) (v : Byte),
    s.busy = false ∧ s.host = .writeIn a v :: rest ∧ (a.toNat < Config.inCap ∨ Config.inCap ≤ a.toNat) := by
  intro a _
  exact ⟨{ built with host := [.writeIn a 5] }, [], 5, rfl, rfl, Nat.lt_or_ge _ _⟩

theorem witness_HostReadsOfBuffers_refused : ∃ s : State, s.busy = false ∧ s.host = [.readIn 0xFFFFFFFF] ∧
    Config.inCap ≤ (0xFFFFFFFF : Word).toNat :=
  ⟨{ built with host := [.readIn 0xFFFFFFFF] }, rfl, rfl, by decide⟩

theorem witness_HostReadsOfBuffers : ∃ s1 s2 s3 s4 : State,
    s1.busy = false ∧ s1.host = [.readIn 6] ∧ (6 : Word).toNat < s1.inLen.toNat ∧ s1.inMem.load 6 = some 2 ∧
    s2.busy = false ∧ s2.host = [.readIn 7] ∧ s2.inLen.toNat ≤ (7 : Word).toNat ∧
    s3.busy = false ∧ s3.host = [.readOut 1] ∧ (1 : Long).toNat < s3.outLen.toNat ∧
    s4.busy = false ∧ s4.host = [.readOut 2] ∧ s4.outLen.toNat ≤ (2 : Long).toNat :=
  ⟨{ built with host := [.readIn 6] }, { built with host := [.readIn 7] },
    { built with host := [.readOut 1], outLen := 2 }, { built with host := [.readOut 2], outLen := 2 },
    rfl, rfl, by decide, by decide, rfl, rfl, by decide, rfl, rfl, by decide, rfl, rfl, by decide⟩

theorem witness_HostAccessWhileBusy : ∀ m ∈ [HostMove.readReg 0x002, .readReg 0x001, .writeReg 0 1, .readOut 0],
    ∃ (s : State) (rest : List HostMove), s.busy = true ∧ s.host = m :: rest := by
  intro m _
  exact ⟨{ parsingState [0, 0, 0, 2] with host := [m] }, [], rfl, rfl⟩

theorem witness_IdleEngineKeepsItsState : built.busy = false ∧ built.host = [] ∧
    ({ built with host := [.waitIdle] } : State).host = [.waitIdle] := ⟨rfl, rfl, rfl⟩

/-- The invariant holds between commands, with a code map, and inside a header. -/
theorem derived_inv : Inv derived :=
  ⟨by decide +kernel, by decide, by decide, by decide, by decide, by decide, rfl, by decide,
    fun _ => derived_wellFormed, fun _ => ⟨knownTree, derived_tree, derived_code⟩, by decide, (fun h => by cases h)⟩

theorem parsing_inv : Inv (parsingState [0, 0, 0, 2, 0x01, 0x41]) :=
  ⟨by decide +kernel, by decide, by decide, by decide, by decide, by decide, rfl, by decide,
    (fun h => by cases h), (fun h => by cases h), by decide, fun _ => ⟨[], _, 4, 2, rfl⟩⟩

theorem witness_StepKeepsInvariant : ∃ s t, Inv s ∧ s.busy = true ∧ step s = .next t := by
  refine ⟨_, after (.recLeaf 0x41) (parsingState [0, 0, 0, 2, 0x01, 0x41]), parsing_inv, rfl, ?_⟩
  exact Eq.trans (by rfl) (exec_after (i := .recLeaf 0x41) (by decide +kernel))

theorem witness_NoStepFaults : Inv derived ∧ derived.host = [] ∧
    Inv (parsingState [0, 0, 0, 2, 0x01, 0x41]) := ⟨derived_inv, rfl, parsing_inv⟩

end Sys2Proof.Machine
end

namespace Sys2Proof.Machine

/-! ## Reads of the arena and the code map (10_state R40, R54) -/

theorem readReg_weight (s : State) {i : Nat} (h : i < 511) : s.readReg (0x400 + 2 * i) =
    guarded (s.treeValid && decide (i < s.nnodes.toNat)) 0xFFFFFFFF (nodeAt s.node i).weight := by
  unfold State.readReg
  rw [regPlace_weight h]

theorem readReg_link (s : State) {i : Nat} (h : i < 511) : s.readReg (0x401 + 2 * i) =
    guarded (s.treeValid && decide (i < s.nnodes.toNat)) 0x07FFFFFF (linkWord (nodeAt s.node i)) := by
  unfold State.readReg
  rw [regPlace_link h]

theorem readReg_codeHead (s : State) {b : Nat} (h : b < 256) : s.readReg (0x1000 + 16 * b) =
    guarded s.codeValid 0x1FF (codeHeadWord (tableGet s.code b CodeEntry.absent)) := by
  unfold State.readReg
  rw [regPlace_codeHead h]

theorem readReg_codeBits (s : State) {b j : Nat} (h : b < 256) (hj : j < 8) :
    s.readReg (0x1001 + 16 * b + j) = guarded s.codeValid (if j = 7 then 0xFFFFFFFE else 0xFFFFFFFF)
      (codeBitsWord (tableGet s.code b CodeEntry.absent) j) := by
  unfold State.readReg
  rw [regPlace_codeBits h hj]

/-- What a clear flag guards is unspecified (10_state R54). -/
theorem guarded_of_false {valid : Bool} (h : valid = false) (mask w : Word) :
    guarded valid mask w = .unspecified mask := by
  subst h
  rfl

/-- While TREE_VALID = 0 no entry of the arena has a value, whatever NNODES says. -/
theorem entryInUse_of_not_treeValid {s : State} (h : s.treeValid = false) (i : Nat) :
    (s.treeValid && decide (i < s.nnodes.toNat)) = false := by
  rw [h, Bool.false_and]

/-! ## SINGLE and STATUS (10_state R29, R32) -/

theorem single_iff (s : State) : s.single = true ↔ s.treeValid = true ∧ s.nleaf = 1 := by
  unfold State.single
  rw [Bool.and_eq_true, beq_iff_eq]

/-- STATUS bit by bit: the flag placed there, and no other (10_state R32). -/
theorem status_getLsbD (s : State) {i : Nat} (h : i < 32) : s.status.getLsbD i =
    (s.busy && decide (0 = i) || s.done && decide (1 = i) || s.error && decide (2 = i) ||
      s.treeValid && decide (3 = i) || s.codeValid && decide (4 = i) || s.single && decide (5 = i)) := by
  simp only [State.status, BitVec.getLsbD_or, flagBit_getLsbD _ _ h]

theorem status_getLsbD_of_six_le (s : State) {i : Nat} (h : 6 ≤ i) : s.status.getLsbD i = false := by
  by_cases hi : i < 32
  · have hne : ∀ k < 6, k ≠ i := fun k hk => by omega
    simp [status_getLsbD s hi, hne]
  · exact BitVec.getLsbD_of_ge _ _ (Nat.le_of_not_lt hi)

/-! ## The obligations -/

/-- Settles O1: the registers and tables of the reset state by its fields, the unspecified reads because both valid
flags are clear. -/
theorem resetLeavesStatedValues : Obligations.ResetLeavesStatedValues := by
  have htree : State.reset.treeValid = false := rfl
  have hcode : State.reset.codeValid = false := rfl
  refine ⟨rfl, rfl, rfl, rfl, rfl, rfl, rfl, rfl, rfl, rfl, rfl, rfl, freqAt_fill, fun _ => ⟨rfl, rfl⟩, ?control,
    ?arena, ?codeMap⟩
  case control =>
    intro n hn
    simp only [List.mem_cons, List.not_mem_nil, or_false] at hn
    obtain rfl | rfl | rfl := hn
    · exact ⟨0x1FF, rfl⟩
    · exact ⟨0x3FF, rfl⟩
    · exact ⟨0x1FF, rfl⟩
  case arena =>
    intro i hi
    have hunused := entryInUse_of_not_treeValid htree i
    exact ⟨⟨_, (readReg_weight _ hi).trans (guarded_of_false hunused _ _)⟩,
      _, (readReg_link _ hi).trans (guarded_of_false hunused _ _)⟩
  case codeMap =>
    intro b hb
    exact ⟨⟨_, (readReg_codeHead _ hb).trans (guarded_of_false hcode _ _)⟩,
      fun j hj => ⟨_, (readReg_codeBits _ hb hj).trans (guarded_of_false hcode _ _)⟩⟩

/-- Settles O49: each of the six low bits of STATUS by `status_getLsbD`, the bits above by
`status_getLsbD_of_six_le`. -/
theorem statusWordLayout : Obligations.StatusWordLayout := by
  intro s
  refine ⟨single_iff s, ?_, ?_, ?_, ?_, ?_, ?_, fun _ => status_getLsbD_of_six_le s⟩
  all_goals
    rw [status_getLsbD s (by decide)]
    simp

end Sys2Proof.Machine

namespace Sys2Proof.Machine

/-! ## The grammar of tree records (30_encoding R91) -/

/-- One INTERNAL record fewer than leaves (30_encoding R91). -/
theorem internal_records_length (t : Tree) :
    ((records t).filter (fun i => i == .recInternal)).length + 1 = (leavesOf t).length := by
  induction t with
  | leaf v => rfl
  | node l r ihl ihr =>
    rw [records, List.filter_cons_of_pos (by rfl), List.filter_append, leavesOf]
    simp only [List.length_cons, List.length_append]
    omega

/-- The last record of a tree is a LEAF (30_encoding R91). -/
theorem serialize_ends_in_leaf (t : Tree) : ∃ bs v, serialize t = bs ++ [leafMark, v] ∧ v ∈ leavesOf t := by
  induction t with
  | leaf v => exact ⟨[], v, rfl, List.mem_singleton_self v⟩
  | node l r _ ihr =>
    obtain ⟨bs, v, hr, hv⟩ := ihr
    refine ⟨intMark :: (serialize l ++ bs), v, ?_, List.mem_append_right _ hv⟩
    rw [serialize_node, hr, List.cons_append, List.append_assoc]

/-- The pre-order grammar is unambiguous and self-delimiting (30_encoding R91): the marker tells a leaf from a node,
and a node's left subtree tells where its right one begins. -/
theorem serialize_append_inj {t u : Tree} {bs cs : List Byte} (h : serialize t ++ bs = serialize u ++ cs) :
    t = u ∧ bs = cs := by
  induction t generalizing u bs cs with
  | leaf v =>
    cases u with
    | leaf w =>
      obtain ⟨-, rfl, rfl⟩ : leafMark = leafMark ∧ v = w ∧ bs = cs := by simpa [serialize_leaf] using h
      exact ⟨rfl, rfl⟩
    | node l r =>
      rw [serialize_leaf, serialize_node] at h
      exact absurd (List.head_eq_of_cons_eq h) leafMark_ne_intMark
  | node l r ihl ihr =>
    cases u with
    | leaf w =>
      rw [serialize_leaf, serialize_node] at h
      exact absurd (List.head_eq_of_cons_eq h) leafMark_ne_intMark.symm
    | node l' r' =>
      rw [serialize_node, serialize_node, List.cons_append, List.cons_append, List.append_assoc,
        List.append_assoc] at h
      obtain ⟨rfl, hrest⟩ := ihl (List.tail_eq_of_cons_eq h)
      obtain ⟨rfl, rfl⟩ := ihr hrest
      exact ⟨rfl, rfl⟩

/-- Settles O6: the sizes by induction over the tree, the bound from the 256 byte values, self-delimitation by
`serialize_append_inj`. -/
theorem treeGrammarIsSelfDelimiting : Obligations.TreeGrammarIsSelfDelimiting := by
  refine ⟨serialize_leaf, serialize_node, fun t => ?sizes, fun t hn => ?bound, fun _ _ _ _ => serialize_append_inj⟩
  case sizes =>
    have hbytes := serialize_length t
    have hinternal := internal_records_length t
    exact ⟨by omega, by rw [leafValues_records], by omega, serialize_ends_in_leaf t⟩
  case bound =>
    have hbytes := serialize_length t
    have hleaves := leaves_nodup_le _ hn
    omega

/-! ## Command codes, and the frame of a command (30_encoding R81 to R86) -/

/-- A command code is reserved, or it is the code of a command (30_encoding R81, R85). -/
theorem decodeCommand_cases (c : Byte) :
    ((c = 0x00 ∨ 0x0A ≤ c.toNat) ∧ decodeCommand c = .error (.reservedCommand c)) ∨
      ((1 ≤ c.toNat ∧ c.toNat ≤ 9) ∧ ∃ i, decodeCommand c = .ok i) := by
  by_cases hc : 1 ≤ c.toNat ∧ c.toNat ≤ 9
  case pos =>
    obtain ⟨hlo, hhi⟩ := hc
    refine .inr ⟨⟨hlo, hhi⟩, ?_⟩
    unfold decodeCommand
    interval_cases c.toNat <;> exact ⟨_, rfl⟩
  case neg =>
    have hreserved : c = 0x00 ∨ 0x0A ≤ c.toNat := by bv_omega
    refine .inl ⟨hreserved, ?_⟩
    unfold decodeCommand
    split
    case h_10 => rfl
    all_goals omega

/-- A byte in CMD decodes to nothing exactly where its code is reserved (30_encoding R85). -/
theorem decode_command_ne_ok_iff (c : Byte) :
    (c = 0x00 ∨ 0x0A ≤ c.toNat) ↔ ∀ i, decode .command [c] ≠ .ok (i, []) := by
  rcases decodeCommand_cases c with ⟨hreserved, he⟩ | ⟨hlegal, i, hi⟩
  · refine iff_of_true hreserved fun i => ?_
    rw [decode, he]
    exact fun h => nomatch h
  · refine iff_of_false (by bv_omega) fun h => h i ?_
    rw [decode, hi]

/-- A CMD write of a reserved code: the prologue, then the abort sequence (30_encoding R85). -/
theorem startCommand_reserved {s : State} {c : Byte} (hl : s.inLen.toNat ≤ Config.inCap)
    (hc : c = 0x00 ∨ 0x0A ≤ c.toNat) :
    startCommand c s = .over (.next (raise .illegalCommand (prologue { s with cmd := c }))) := by
  have he : decodeCommand c = .error (.reservedCommand c) := by
    rcases decodeCommand_cases c with ⟨-, he⟩ | ⟨hlegal, -⟩
    · exact he
    · bv_omega
  rw [startCommand, if_pos hl, decode, he]

/-- Settles O10: `decode_command_ne_ok_iff` says which codes are reserved, `startCommand_reserved` what a write of one
does. -/
theorem reservedCommandCodesRaise : Obligations.ReservedCommandCodesRaise := by
  intro s rest w hb hh hl
  refine ⟨decode_command_ne_ok_iff _, fun hc => ?_⟩
  rw [step_host hb hh, hostTurn, if_pos (by rfl), startCommand_reserved (by exact hl) hc]
  rfl

/-- Settles O11: `runCommand_ok` and `runCommand_raised`, with the code of each error kind. -/
theorem commandsEndByEpilogueOrAbort : Obligations.CommandsEndByEpilogueOrAbort := by
  intro pre body s t e hp
  refine ⟨runCommand_ok hp, fun hr => (runCommand_raised hp hr).trans ?_⟩
  cases e <;> rfl

/-- Where the precondition holds, the body runs on the state after the prologue (30_encoding R82). -/
theorem runCommand_of_pre {pre : State → Bool} (body : State → ProcResult) {s : State}
    (hp : pre (prologue s) = true) : runCommand pre body s = endCommand (body (prologue s)) := by
  rw [runCommand, if_pos hp]

/-- Where it fails, the command raises after the prologue and its body does not run (30_encoding R86). -/
theorem runCommand_of_not_pre {pre : State → Bool} (body : State → ProcResult) {s : State}
    (hp : pre (prologue s) = false) :
    runCommand pre body s = .next (raise .illegalCommand (prologue s)) := by
  rw [runCommand, if_neg (by rw [hp]; exact Bool.false_ne_true)]

/-- A command without a precondition (30_encoding R86). -/
theorem runCommand_needsNothing (body : State → ProcResult) (s : State) :
    runCommand needsNothing body s = endCommand (body (prologue s)) := runCommand_of_pre body rfl

/-- BDEC's precondition, which the prologue does not touch (30_encoding R86). -/
theorem needsTreeAndPayload_prologue (s : State) :
    needsTreeAndPayload (prologue s) = true ↔ s.treeValid = true ∧ s.iptr ≤ s.inLen := by
  rw [needsTreeAndPayload, Bool.and_eq_true, decide_eq_true_iff]
  rfl

/-- Settles O12: each command's `runCommand`, by whether its precondition holds. -/
theorem preconditionsOnState : Obligations.PreconditionsOnState := by
  intro s
  refine ⟨?fails, fun ht => ⟨runCommand_of_pre _ ht, runCommand_of_pre _ ht⟩, fun hc => runCommand_of_pre _ hc,
    fun ht hi => runCommand_of_pre _ ((needsTreeAndPayload_prologue s).2 ⟨ht, hi⟩),
    runCommand_needsNothing encodeBody s, runCommand_needsNothing decodeBody s, runCommand_needsNothing count s,
    runCommand_needsNothing build s, runCommand_needsNothing treeReadFromStart s⟩
  case fails =>
    rintro i (⟨rfl, ht⟩ | ⟨rfl, ht⟩ | ⟨rfl, hc⟩ | ⟨rfl, hp⟩)
    · exact runCommand_of_not_pre derive ht
    · exact runCommand_of_not_pre treeWrite ht
    · exact runCommand_of_not_pre bitEncode hc
    · refine runCommand_of_not_pre bitDecode (Bool.eq_false_iff.2 fun h => ?_)
      obtain ⟨ht, hi⟩ := (needsTreeAndPayload_prologue s).1 h
      rcases hp with hf | hlt
      · exact Bool.false_ne_true (hf.symm.trans ht)
      · exact BitVec.not_le.2 hlt hi

/-! ## The stream of ENCODE (30_encoding R88, 45_pipeline R181) -/

/-- `Build()` neither reads nor writes SYMCOUNT and IPTR (41_tree_builder R117). -/
theorem build_of_count_registers {s b : State} {n p : Word}
    (h : build { s with symcount := n, iptr := p } = .ok b) :
    build s = .ok { b with symcount := s.symcount, iptr := s.iptr } := by
  unfold build at h ⊢
  dsimp only at h ⊢
  split at h
  · cases h
  · next hn => cases h; rw [if_neg hn]

/-- The body of ENCODE as one update of the state that `Build()` of the input's counts leaves (45_pipeline R181). -/
theorem encodeBody_result {s : State} (h : s.inLen ≠ 0) :
    ∃ t b acc nb pay,
      build { s with freq := countBytes (Table.fill Word 256 0) s.inputBytes } = .ok b ∧
      encodeBody s = .ok { b with
        symcount := s.inLen, iptr := s.inLen, code := codesOf t, codeValid := true
        outMem := (emitAll s (headerBytes s.inLen t ++ pay)).outMem
        outLen := (emitAll s (headerBytes s.inLen t ++ pay)).outLen, acc := acc, nb := nb
        bitcount := BitVec.ofNat 64 (bitsOf t s.inputBytes).length } ∧
      WellFormedTree b ∧ b.tree? = some t ∧ (leavesOf t).Nodup ∧ (leavesOf t).length = b.nleaf.toNat ∧
      (∀ v, v ∈ leavesOf t ↔ v ∈ s.inputBytes) ∧
      (∃ pad, pay.flatMap byteBits = bitsOf t s.inputBytes ++ List.replicate pad false) ∧
      pay.length = ((bitsOf t s.inputBytes).length + 7) / 8 := by
  obtain ⟨t, s1, s2, s3, s4, u, pay, h1, h2, h3, h4, h5, e1, e2, e3, e4, e5, hw, ht, hn, hl, hv, hbits, hlen⟩ :=
    encodeBody_spec h
  refine ⟨t, { s2 with symcount := s.symcount, iptr := s.iptr }, u.acc, u.nb, pay, ?build, ?body,
    hw.congr rfl rfl rfl rfl, ht, hn, hl.symm, hv, ⟨_, hbits⟩, hlen⟩
  case build =>
    rw [e1] at h2
    exact build_of_count_registers h2
  case body =>
    rw [encodeBody_of_parts h1 h2 h3 h4 h5]
    have hcount : s2.symcount = s.inLen := by rw [e2, e1]
    have houtMem : s3.outMem = s.outMem := by rw [e3, e2, e1]
    have houtLen : s3.outLen = s.outLen := by rw [e3, e2, e1]
    have hheader : s4 = { s3 with outMem := s4.outMem, outLen := s4.outLen } := by
      rw [e4]; exact emitAll_eq _ _
    have hstream : emitAll s4 pay = { s3 with
        outMem := (emitAll s (headerBytes s.inLen t ++ pay)).outMem
        outLen := (emitAll s (headerBytes s.inLen t ++ pay)).outLen } := by
      rw [e4, ← emitAll_append]; exact emitAll_with houtMem houtLen _
    rw [hstream] at e5
    rw [e5, hheader, e3, ← hcount]

/-- A stream of fewer than 2^32 symbols fits the 64-bit OUT_LEN (10_state R34). -/
theorem stream_length_lt {t : Tree} {vs pay : List Byte} (cnt : Word) (hn : (leavesOf t).Nodup)
    (hvs : vs.length < 2 ^ 32) (hpay : pay.length = ((bitsOf t vs).length + 7) / 8) :
    (headerBytes cnt t ++ pay).length < 2 ^ 64 := by
  have hheader := headerBytes_length cnt t
  have hleaves := leaves_nodup_le _ hn
  have hbits := bitsOf_length_le hn vs
  rw [List.length_append]
  omega

/-- The payload of a single-leaf tree is empty (30_encoding R88, 44_bitstream R162). -/
theorem payload_eq_nil_of_single {t : Tree} {vs pay : List Byte} (ht : (leavesOf t).length = 1)
    (hpay : pay.length = ((bitsOf t vs).length + 7) / 8) : pay = [] := by
  obtain ⟨v, rfl⟩ := (single_iff_leaf t).1 ht
  rw [bitsOf_leaf] at hpay
  exact List.eq_nil_of_length_eq_zero hpay

/-- On an empty input the SYMCOUNT that `Count()` left before the raise is 0 (45_pipeline R181). -/
theorem encodeBody_of_empty_symcount {s : State} (h : s.inLen = 0) :
    encodeBody s = .raised .emptyInput { s with freq := Table.fill Word 256 0, symcount := 0 } := by
  rw [encodeBody_of_empty h, h]

/-- Settles O43: `encodeBody_result` after the prologue, with the register values it leaves put in numbers. -/
theorem encodeEmitsTheStream : Obligations.EncodeEmitsTheStream := by
  refine ⟨rfl, fun s => ⟨fun h => ?_, fun h =>
    (exec_encode s).trans (runCommand_raised rfl (encodeBody_of_empty_symcount (s := prologue s) h))⟩⟩
  obtain ⟨t, b, acc, nb, pay, hbuild, hbody, hw, ht, hn, hl, hv, hbits, hlen⟩ :=
    encodeBody_result (s := prologue s) h
  obtain ⟨-, hb⟩ := build_ok hbuild
  have hlt := stream_length_lt s.inLen hn (inputBytes_lt (prologue s)) hlen
  have hcount : b.nnodes = BitVec.ofNat 10 (2 * b.nleaf.toNat - 1) := by
    rw [← hw.nodeCount, BitVec.ofNat_toNat, BitVec.setWidth_eq]
  have hout : (emitAll (prologue s) (headerBytes s.inLen t ++ pay)).outLen =
      BitVec.ofNat 64 (4 + (3 * b.nleaf.toNat - 1) + pay.length) := by
    rw [emitAll_outLen, List.length_append, headerBytes_length, hl]
    exact zero_add _
  refine ⟨countBytes (Table.fill Word 256 0) s.inputBytes, b.node, b.nleaf, b.root, codesOf t,
    (emitAll (prologue s) (headerBytes s.inLen t ++ pay)).outMem, b.inq, acc, nb, t, pay, epilogue b, ?exec,
    freqAt_counted _ (inputBytes_lt s), ?build, rfl, rfl, rfl, ht, hn, hl, hv, rfl, ?out, hlen, hbits, ?single⟩
  case exec =>
    rw [exec_encode, runCommand_ok rfl hbody, ← hout, ← hcount, hb]
    rfl
  case build =>
    rw [exec_build]
    exact runCommand_ok rfl hbuild
  case out => exact emitAll_wrote (s := prologue s) rfl hlt
  case single => exact fun h1 => payload_eq_nil_of_single (hl.trans (by rw [h1]; rfl)) hlen

end Sys2Proof.Machine

namespace Sys2Proof.Machine

/-! ## The frequency counter (40_frequency R101) -/

/-- The counts of a whole input sum to IN_LEN (40_frequency R101). -/
theorem totalCount_inputBytes (s : State) :
    totalCount (countBytes (Table.fill Word 256 0) s.inputBytes) = s.inLen.toNat :=
  (totalCount_counted _ (inputBytes_lt s)).trans (inputBytes_length s)

/-- On an empty input the SYMCOUNT that `Count()` leaves before the raise is 0 (40_frequency R101). -/
theorem count_of_empty_symcount {s : State} (h : s.inLen = 0) :
    count s = .raised .emptyInput { s with freq := Table.fill Word 256 0, symcount := 0 } := by
  rw [count_of_empty h, h]

/-- Settles O18: `count_of_input` or `count_of_empty_symcount` after the prologue, by whether IN_LEN is 0. -/
theorem countLeavesTheByteCounts : Obligations.CountLeavesTheByteCounts := by
  intro s
  refine ⟨fun h => ⟨countBytes (Table.fill Word 256 0) s.inputBytes, ?completes,
    freqAt_counted _ (inputBytes_lt s), totalCount_inputBytes s⟩, fun h => ?raises⟩
  case completes =>
    rw [exec_count]
    exact runCommand_ok rfl (count_of_input (s := prologue s) h)
  case raises =>
    rw [exec_count]
    exact runCommand_raised rfl (count_of_empty_symcount (s := prologue s) h)

end Sys2Proof.Machine

namespace Sys2Proof.Machine

/-! ## The built tree (41_tree_builder R121) -/

/-- A command that ended without an error ran its body to the end and then the epilogue (30_encoding R84). -/
theorem runCommand_of_no_error {pre : State → Bool} {body : State → ProcResult} {s t : State}
    (h : runCommand pre body s = .next t) (he : t.error = false) :
    ∃ u, body (prologue s) = .ok u ∧ t = epilogue u := by
  rcases runCommand_next h with ⟨-, rfl⟩ | ⟨-, hok | ⟨e, u, -, rfl⟩⟩
  · cases he
  · exact hok
  · cases he

/-- A well-formed tree has one internal node fewer than leaves (10_state R41). -/
theorem WellFormedTree.internal_length {s : State} (w : WellFormedTree s) :
    ((List.range s.nnodes.toNat).filter (fun i => (nodeAt s.node i).kind == .internal)).length =
      s.nleaf.toNat - 1 := by
  have hsplit := List.length_eq_length_filter_add (l := List.range s.nnodes.toNat)
    (fun i => (nodeAt s.node i).kind == .leaf)
  have hinternal : (fun i => (nodeAt s.node i).kind == .internal) =
      fun i => !((nodeAt s.node i).kind == .leaf) := by
    funext i
    cases (nodeAt s.node i).kind <;> rfl
  obtain ⟨hleaves, -⟩ := w.leaves
  have hnodes := w.nodeCount
  rw [State.leafEntries] at hleaves
  rw [List.length_range] at hsplit
  rw [hinternal]
  omega

/-- What `Build()` establishes where it returns: the well-formed tree of the present bytes, its weights, and the sum of
all counts at its root (41_tree_builder R121). -/
theorem build_ok_tree {s u : State} (h : build s = .ok u) :
    ∃ t, (WellFormedTree u ∧ u.tree? = some t) ∧ (leavesOf t).Perm (presentBytes s.freq) ∧ BuiltWeights u ∧
      (nodeAt u.node u.root.toNat).weight = BitVec.ofNat 32 (totalCount s.freq) := by
  obtain ⟨hpresent, -⟩ := build_ok h
  obtain ⟨node, inq, root, t, hbuild, -, ⟨is, hspan, hentries⟩, hleaves, -, hroot, hweights⟩ :=
    build_spec s hpresent
  rw [hbuild] at h
  cases h
  have hle := presentBytes_le s.freq
  have hnnodes : (BitVec.ofNat 10 (2 * (presentBytes s.freq).length - 1)).toNat =
      2 * (presentBytes s.freq).length - 1 := by
    rw [BitVec.toNat_ofNat]; exact Nat.mod_eq_of_lt (by omega)
  have hnleaf : (BitVec.ofNat 9 (presentBytes s.freq).length).toNat = (leavesOf t).length := by
    rw [hleaves.length_eq, BitVec.toNat_ofNat]; exact Nat.mod_eq_of_lt (by omega)
  rw [← hnnodes] at hentries hweights
  exact ⟨t, wellFormedTree_of_spans hspan hentries (hleaves.nodup_iff.2 (presentBytes_nodup _)) hnleaf,
    hleaves, hweights, hroot⟩

/-- After a COUNT without error SYMCOUNT is the sum of all counts (40_frequency R101, 41_tree_builder R121). -/
theorem symcount_of_exec_count {r s : State} (h : exec .count r = .next s) (he : s.error = false) :
    s.symcount = BitVec.ofNat 32 (totalCount s.freq) := by
  obtain ⟨u, hu, rfl⟩ := runCommand_of_no_error (exec_count r ▸ h) he
  obtain ⟨-, rfl⟩ := count_ok hu
  change r.inLen = BitVec.ofNat 32 (totalCount (countBytes (Table.fill Word 256 0) (prologue r).inputBytes))
  rw [totalCount_inputBytes, prologue_inLen, BitVec.ofNat_toNat, BitVec.setWidth_eq]

/-- Settles O23: a BUILD without error is `Build()` and the epilogue, and `build_ok_tree` says what `Build()`
establishes. -/
theorem builtTreeIsWellFormed : Obligations.BuiltTreeIsWellFormed := by
  intro s t h he
  obtain ⟨u, hu, rfl⟩ := runCommand_of_no_error (exec_build s ▸ h) he
  obtain ⟨-, hflags⟩ := build_ok hu
  obtain ⟨tr, ⟨hwf, htree⟩, hleaves, hweights, hroot⟩ := build_ok_tree hu
  have hwf' : WellFormedTree (epilogue u) := hwf.congr rfl rfl rfl rfl
  exact ⟨by rw [hflags]; rfl, hwf', hweights, hroot,
    fun r hr hok => hroot.trans (symcount_of_exec_count hr hok).symm, hwf'.internal_length, tr, htree, hleaves⟩

/-! ## The queue (41_tree_builder R114, R115) -/

/-- A queue of the entry `m` and what is left after it, bit by bit in INQ (41_tree_builder R114). -/
theorem getLsbD_of_queue_perm {w w' : BuildWork} {m : Nat} (h : w.queue.Perm (m :: w'.queue)) (j : Nat) :
    w'.inq.getLsbD j = (w.inq.getLsbD j && j != m) := by
  obtain ⟨hm, -⟩ := List.nodup_cons.1 (h.nodup_iff.1 (queue_nodup w))
  rw [Bool.eq_iff_iff, Bool.and_eq_true, bne_iff_ne, ← mem_queue, ← mem_queue, h.mem_iff, List.mem_cons]
  exact ⟨fun hj => ⟨.inr hj, fun e => hm (e ▸ hj)⟩, fun ⟨hj, hne⟩ => hj.resolve_left hne⟩

/-- Settles O19: `extractMin_spec`, its keys read as `KeyBelow` and its permutation of queues bit by bit. -/
theorem extractMinTakesTheLeastKey : Obligations.ExtractMinTakesTheLeastKey := by
  intro w i hi
  obtain ⟨m, w', hmin, hm, hleast, hnode, hn, -, hperm⟩ :=
    extractMin_spec (List.ne_nil_of_mem (mem_queue.2 hi))
  exact ⟨m, w', hmin, mem_queue.1 hm, fun j hj hne => keyBelow_of_keyLt (hleast j (mem_queue.2 hj) hne),
    getLsbD_of_queue_perm hperm, hnode, hn⟩

/-- `Insert(i)` sets bit `i` of INQ, and no other (41_tree_builder R113). -/
theorem getLsbD_insert (w : BuildWork) {i : Nat} (hi : i < 511) (j : Nat) :
    (w.insert i).inq.getLsbD j = (w.inq.getLsbD j || j == i) := by
  rw [BuildWork.insert, BitVec.getLsbD_or, BitVec.getLsbD_twoPow, decide_eq_true hi, Bool.true_and, BEq.comm]
  rfl

/-- An arena index fits the 9 bits of a link (00_scope section 5). -/
theorem toNat_ofNat_index {i : Nat} (h : i < 511) : (BitVec.ofNat 9 i).toNat = i := by
  rw [BitVec.toNat_ofNat]; exact Nat.mod_eq_of_lt (by omega)

/-- Settles O20: the one entry that is set, the counters that move, and the bit that `Insert` sets. -/
theorem mergeMakesTheNewNode : Obligations.MergeMakesTheNewNode := by
  intro w a b hn ha hb
  exact ⟨nodeAt_set_same _ hn _, toNat_ofNat_index ha, toNat_ofNat_index hb,
    fun i hi => nodeAt_set_other _ hi.symm _, rfl, rfl, getLsbD_insert _ hn⟩

/-! ## BUILD of a table that is not all zeros (41_tree_builder R111, R117) -/

/-- The present bytes stand in ascending order (41_tree_builder R111). -/
theorem presentBytes_pairwise (freq : FreqTable) : (presentBytes freq).Pairwise (fun a b => a < b) := by
  refine List.Pairwise.filter _ (List.pairwise_map.2 ?_)
  refine List.Pairwise.imp_of_mem (fun {a b} ha hb hab => ?_) List.pairwise_lt_range
  rw [List.mem_range] at ha hb
  bv_omega

/-- Settles O21: `build_spec` gives the leaves and the registers, `build_merges` the merges. -/
theorem buildMakesLeavesInByteOrder : Obligations.BuildMakesLeavesInByteOrder := by
  intro s h
  obtain ⟨node, inq, root, t, hbuild, hroot, -, -, hleaf, -, -⟩ := build_spec (prologue s) h
  refine ⟨node, inq, root, (exec_build s).trans (runCommand_ok rfl hbuild), presentBytes_le _,
    presentBytes_pairwise _, fun _ => mem_presentBytes, hleaf, build_merges hbuild, ?_⟩
  rw [prologue_freq] at hroot
  omega

end Sys2Proof.Machine

namespace Sys2Proof.Machine

/-! ## The entry of a leaf's path (10_state R23, 42_codemap R131) -/

/-- LEN of the entry of a path that fits its 8 bits (10_state R23). -/
theorem len_ofPath {p : List Bool} (h : p.length ≤ 255) : (CodeEntry.ofPath p).len.toNat = p.length := by
  rw [CodeEntry.ofPath, BitVec.toNat_ofNat]
  exact Nat.mod_eq_of_lt (by omega)

/-- `c_k` stands at bit `254 - k` of BITS (10_state R23). -/
theorem bits_ofPath {p : List Bool} (h : p.length ≤ 255) {k : Nat} (hk : k < p.length) :
    (CodeEntry.ofPath p).bits.getLsbD (254 - k) = p[k] := by
  rw [CodeEntry.ofPath, packPath_bit p 0 k (by omega) (by omega), Nat.sub_zero, List.getD_eq_getElem _ _ hk]
  rfl

/-- The bits of BITS below the last bit of the code are 0 (10_state R23). -/
theorem bits_ofPath_below {p : List Bool} (h : p.length ≤ 255) {i : Nat} (hi : i < 255 - p.length) :
    (CodeEntry.ofPath p).bits.getLsbD i = false := by
  obtain ⟨k, hk, hk', rfl⟩ : ∃ k, p.length ≤ k ∧ k < 255 ∧ i = 254 - k :=
    ⟨254 - i, by omega, by omega, by omega⟩
  rw [CodeEntry.ofPath, packPath_bit p 0 k (by omega) hk', Nat.sub_zero, List.getD_eq_default _ _ hk,
    Bool.and_false]

/-- A code of a tree with different leaf values fits 255 bits, and CODE holds the entry of it (42_codemap R131). -/
theorem codeAt_of_codeIn {t : Tree} (hn : (leavesOf t).Nodup) {b : Byte} {p : List Bool}
    (h : codeIn t b = some p) : p.length ≤ 255 ∧ codeAt (codesOf t) b = CodeEntry.ofPath p := by
  have hle := code_length_le hn b
  rw [h] at hle
  exact ⟨hle, by rw [codeAt_codesOf hn, h]⟩

/-- The entries that are present are those of the tree's codes (42_codemap R131). -/
theorem codeIn_of_present {t : Tree} (hn : (leavesOf t).Nodup) {b : Byte}
    (h : (codeAt (codesOf t) b).present = true) :
    ∃ p, codeIn t b = some p ∧ (codeAt (codesOf t) b).path = p ∧
      (codeAt (codesOf t) b).len.toNat = p.length ∧ p.length ≤ 255 := by
  rw [present_codesOf hn, decide_eq_true_iff, ← codeIn_isSome] at h
  obtain ⟨p, hp⟩ := Option.isSome_iff_exists.1 h
  obtain ⟨hle, he⟩ := codeAt_of_codeIn hn hp
  exact ⟨p, hp, by rw [he, path_ofPath hle], by rw [he, len_ofPath hle], hle⟩

/-- Settles O25: DERIVE leaves `codesOf` of the tree, whose entries `codeAt_codesOf` gives, bit by bit the lemmas on
`CodeEntry.ofPath`. -/
theorem deriveRecordsThePaths : Obligations.DeriveRecordsThePaths := by
  refine ⟨rfl, rfl, fun _ _ => rfl, fun s hv hw => ?_⟩
  obtain ⟨tr, htree, hn, -⟩ := hw.tree
  have htree' : (prologue s).tree? = some tr := htree
  refine ⟨tr, codesOf tr, htree, (exec_derive s).trans (runCommand_ok hv (derive_of_tree htree')),
    fun b p hp => ?leaf, fun b hb => ?other, ?single⟩
  case leaf =>
    obtain ⟨hle, he⟩ := codeAt_of_codeIn hn hp
    rw [he]
    exact ⟨rfl, len_ofPath hle, path_ofPath hle, fun k hk => bits_ofPath hle hk,
      fun i hi => bits_ofPath_below hle hi⟩
  case other =>
    rw [codeAt_codesOf hn, hb]
    rfl
  case single =>
    rintro v rfl
    have hp : codeIn (.leaf v) v = some [] := by rw [codeIn_leaf, if_pos rfl]
    obtain ⟨-, he⟩ := codeAt_of_codeIn hn hp
    exact he

/-! ## The code set (42_codemap R135) -/

/-- As many entries are present as the tree has leaves (42_codemap R135). -/
theorem present_codesOf_count {t : Tree} (hn : (leavesOf t).Nodup) :
    (((List.range 256).map (BitVec.ofNat 8)).filter (fun b => (codeAt (codesOf t) b).present)).length =
      (leavesOf t).length := by
  refine ((List.perm_ext_iff_of_nodup (allBytes_nodup.filter _) hn).2 fun b => ?_).length_eq
  rw [List.mem_filter, present_codesOf hn, decide_eq_true_iff]
  exact and_iff_right (mem_allBytes b)

/-- In a tree with two leaves or more no code is empty (42_codemap R135). -/
theorem codeIn_length_pos {t : Tree} (h : 2 ≤ (leavesOf t).length) {v : Byte} {p : List Bool}
    (hp : codeIn t v = some p) : 1 ≤ p.length := by
  cases t with
  | leaf u =>
    rw [leavesOf, List.length_singleton] at h
    omega
  | node l r => exact List.length_pos_iff.2 (codeIn_node_ne_nil hp)

/-- Completeness: the walk that an infinite bit sequence leads from the root ends on a leaf (42_codemap R135). -/
theorem exists_codeIn_of_bits {t : Tree} (hn : (leavesOf t).Nodup) (bits : Nat → Bool) :
    ∃ v n, codeIn t v = some ((List.range n).map bits) := by
  induction t generalizing bits with
  | leaf u => exact ⟨u, 0, by rw [codeIn_leaf, if_pos rfl]; rfl⟩
  | node l r ihl ihr =>
    rw [leavesOf, List.nodup_append] at hn
    obtain ⟨hnl, hnr, hdisjoint⟩ := hn
    have hbits (n : Nat) : (List.range (n + 1)).map bits =
        bits 0 :: (List.range n).map (fun k => bits (k + 1)) := by
      rw [List.range_succ_eq_map, List.map_cons, List.map_map]
      rfl
    rcases bit_cases (bits 0) with h0 | h0
    · obtain ⟨v, n, hv⟩ := ihl hnl fun k => bits (k + 1)
      refine ⟨v, n + 1, ?_⟩
      rw [hbits, h0, codeIn_node, hv]
      rfl
    · obtain ⟨v, n, hv⟩ := ihr hnr fun k => bits (k + 1)
      have hvr : v ∈ leavesOf r := (codeIn_isSome r v).1 (by rw [hv]; rfl)
      have hvl : codeIn l v = none := codeIn_eq_none.2 fun hvl => hdisjoint v hvl v hvr rfl
      refine ⟨v, n + 1, ?_⟩
      rw [hbits, h0, codeIn_node, hvl, hv]
      rfl

/-- Of two beginnings of one bit sequence the shorter begins the longer. -/
theorem map_range_prefix (bits : Nat → Bool) {m n : Nat} (h : m ≤ n) :
    (List.range m).map bits <+: (List.range n).map bits := by
  rw [← Nat.min_eq_left h, ← List.take_range]
  exact (List.take_prefix m _).map bits

/-- At most one code begins a bit sequence (42_codemap R135). -/
theorem codeIn_of_bits_unique {t : Tree} {bits : Nat → Bool} {u v : Byte} {m n : Nat}
    (hu : codeIn t u = some ((List.range m).map bits)) (hv : codeIn t v = some ((List.range n).map bits)) :
    u = v := by
  rcases Nat.le_total m n with h | h
  · exact codeIn_no_extension hu hv (map_range_prefix bits h)
  · exact (codeIn_no_extension hv hu (map_range_prefix bits h)).symm

/-- Settles O26: a DERIVE without error leaves `codesOf` of the tree; `codeIn_no_extension` says that no code is a
beginning of another, `exists_codeIn_of_bits` and `codeIn_of_bits_unique` that exactly one begins a bit sequence. -/
theorem derivedCodesArePrefixFree : Obligations.DerivedCodesArePrefixFree := by
  intro s t hw h he
  obtain ⟨w, hderive, rfl⟩ := runCommand_of_no_error (exec_derive s ▸ h) he
  obtain ⟨tr, htree, rfl⟩ := derive_ok hderive
  obtain ⟨tr', htree', hn, hnleaf⟩ := hw.tree
  obtain rfl : tr' = tr := Option.some.inj (htree'.symm.trans htree)
  change _ = s.nleaf.toNat ∧ _ ∧ (2 ≤ s.nleaf.toNat → _) ∧ _
  rw [← hnleaf]
  refine ⟨present_codesOf_count hn, fun u v hu hv hne hbegins => ?noExtension, fun h2 v hv => ?notEmpty,
    fun bits => ?complete⟩
  case noExtension =>
    obtain ⟨p, hp, hup, -⟩ := codeIn_of_present hn hu
    obtain ⟨q, hq, hvq, -⟩ := codeIn_of_present hn hv
    exact hne (codeIn_no_extension hp hq (hup ▸ hvq ▸ hbegins))
  case notEmpty =>
    obtain ⟨p, hp, -, hlen, hle⟩ := codeIn_of_present hn hv
    exact hlen ▸ ⟨codeIn_length_pos h2 hp, hle⟩
  case complete =>
    obtain ⟨v, n, hv⟩ := exists_codeIn_of_bits hn bits
    obtain ⟨hle, hcode⟩ := codeAt_of_codeIn hn hv
    refine ⟨v, ⟨?present, ?path⟩, fun u hu hpath => ?unique⟩
    case present => exact congrArg CodeEntry.present hcode
    case path =>
      change (codeAt (codesOf tr') v).path = (List.range (codeAt (codesOf tr') v).len.toNat).map bits
      rw [hcode, path_ofPath hle, len_ofPath hle, List.length_map, List.length_range]
    case unique =>
      obtain ⟨p, hp, hup, -⟩ := codeIn_of_present hn hu
      exact codeIn_of_bits_unique (hp.trans (congrArg some (hup.symm.trans hpath))) hv

end Sys2Proof.Machine

namespace Sys2Proof.Machine

/-! ## TWRITE and TREAD of a header (43_tree_codec R141, R146) -/

/-- A header has at most 4 bytes of count and 767 of records (30_encoding R88, R91). -/
theorem headerBytes_length_le (cnt : Word) {t : Tree} (hn : (leavesOf t).Nodup) :
    (headerBytes cnt t).length ≤ 771 := by
  have hleaves := leaves_nodup_le _ hn
  rw [headerBytes_length]
  omega

/-- TWRITE where ROOT spells a tree: OUT holds its header, and nothing else but the flags changes (43_tree_codec
R141, R143). -/
theorem exec_twrite_of_tree {s : State} {t : Tree} (hv : s.treeValid = true) (ht : s.tree? = some t)
    (hn : (leavesOf t).Nodup) :
    ∃ out, exec .twrite s = .next { s with
        outMem := out, outLen := BitVec.ofNat 64 (headerBytes s.symcount t).length, errcode := 0, done := true
        error := false, busy := false } ∧
      WroteOut s.outMem out (headerBytes s.symcount t) := by
  have hle := headerBytes_length_le s.symcount hn
  have ht' : (prologue s).tree? = some t := ht
  have houtLen : (emitAll (prologue s) (headerBytes s.symcount t)).outLen =
      BitVec.ofNat 64 (headerBytes s.symcount t).length :=
    (emitAll_outLen _ _).trans (BitVec.zero_add _)
  refine ⟨_, ?_, emitAll_wrote (s := prologue s) rfl (by omega)⟩
  rw [exec_twrite, runCommand_ok hv (treeWrite_of_tree ht'), emitAll_eq, prologue_symcount, houtLen]
  rfl

/-- The bytes TWRITE leaves as its output (20_memory R65). -/
theorem outBytes_of_wroteHeader {m : Memory} {t : State} {cnt : Word} {tr : Tree} (hn : (leavesOf tr).Nodup)
    (hout : WroteOut m t.outMem (headerBytes cnt tr))
    (hlen : t.outLen = BitVec.ofNat 64 (headerBytes cnt tr).length) : t.outBytes = headerBytes cnt tr := by
  have hle := headerBytes_length_le cnt hn
  refine hout.outBytes ?_
  rw [hlen, BitVec.toNat_ofNat]
  exact Nat.mod_eq_of_lt (by omega)

/-- The tree that stands in the arena in pre-order from entry 0 on is the abstract tree of ROOT = 0 (10_state R42). -/
theorem tree?_of_preOrderAt {s : State} {t : Tree} (hpre : PreOrderAt s.node 0 t) (hroot : s.root = 0)
    (hn : (leavesOf t).Nodup) : s.tree? = some t := by
  have hleaves := leaves_nodup_le _ hn
  have hsize := sizeOf'_eq t
  have hdepth := depthOf_lt t
  rw [State.tree?, hroot]
  exact hpre.treeAt (by omega) (show depthOf t < 256 by omega)

/-- TREAD of a header: its count, its tree in pre-order, and IPTR behind it (43_tree_codec R146, R148). -/
theorem exec_tread_of_header {s : State} {cnt : Word} {t : Tree} {rest : List Byte}
    (h : s.inputBytes = headerBytes cnt t ++ rest) (hn : (leavesOf t).Nodup) :
    ∃ node, PreOrderAt node 0 t ∧ exec .tread s = .next { s with
        node := node, parser := (HeaderParse.start 4 cnt).past t, symcount := cnt, root := 0
        nnodes := BitVec.ofNat 10 (2 * (leavesOf t).length - 1)
        nleaf := BitVec.ofNat 9 (leavesOf t).length
        iptr := BitVec.ofNat 32 (headerBytes cnt t).length, treeValid := true, codeValid := false
        outLen := 0, errcode := 0, done := true, error := false, busy := false, parsing := false } := by
  obtain ⟨node, hpre, hread⟩ := treeRead_spec (s := prologue s) h hn
  refine ⟨node, hpre, ?_⟩
  rw [exec_tread, runCommand_ok rfl hread, headerBytes_length]
  rfl

/-- TREAD restores the count and the abstract tree of a header, and IPTR counts its bytes (43_tree_codec R149). -/
theorem exec_tread_restores {u : State} {cnt : Word} {t : Tree} {rest : List Byte}
    (h : u.inputBytes = headerBytes cnt t ++ rest) (hn : (leavesOf t).Nodup) :
    ∃ v, exec .tread u = .next v ∧ v.done = true ∧ v.treeValid = true ∧ v.symcount = cnt ∧ v.tree? = some t ∧
      v.iptr.toNat = (headerBytes cnt t).length ∧ v.inLen = u.inLen := by
  obtain ⟨node, hpre, hread⟩ := exec_tread_of_header h hn
  have hle := headerBytes_length_le cnt hn
  have hiptr : (BitVec.ofNat 32 (headerBytes cnt t).length).toNat = (headerBytes cnt t).length := by
    rw [BitVec.toNat_ofNat]
    exact Nat.mod_eq_of_lt (by omega)
  exact ⟨_, hread, rfl, rfl, rfl, tree?_of_preOrderAt hpre rfl hn, hiptr, rfl⟩

/-- A TREAD without error found a header at the start of IN (43_tree_codec R147). -/
theorem header_of_exec_tread {u v : State} (h : exec .tread u = .next v) (he : v.error = false) :
    ∃ cnt t rest, u.inputBytes = headerBytes cnt t ++ rest ∧ (leavesOf t).Nodup := by
  obtain ⟨w, hread, -⟩ := runCommand_of_no_error (exec_tread u ▸ h) he
  obtain ⟨cnt, t, rest, -, hin, hn, -⟩ := treeRead_ok hread
  exact ⟨cnt, t, rest, hin, hn⟩

/-- Settles O27: `exec_twrite_of_tree` on the tree of the well-formed arena, its length by `headerBytes_length`. -/
theorem twriteEmitsTheHeader : Obligations.TwriteEmitsTheHeader := by
  intro s hv hw
  obtain ⟨tr, htree, hn, hnleaf⟩ := hw.tree
  obtain ⟨out, hexec, hout⟩ := exec_twrite_of_tree hv htree hn
  obtain ⟨hpos, -⟩ := hw.leafCount
  have hlen : (headerBytes s.symcount tr).length = 4 + 3 * s.nleaf.toNat - 1 := by
    rw [headerBytes_length, hnleaf]
    omega
  exact ⟨tr, out, htree, hlen ▸ hexec, hlen, hout⟩

/-- Settles O30: TWRITE emits the header by `exec_twrite_of_tree`, and `exec_tread_restores` reads it back; conversely
`header_of_exec_tread` finds the header that was read, and TWRITE emits it from what `exec_tread_restores` says TREAD
left. -/
theorem headerRoundTrip : Obligations.HeaderRoundTrip := by
  refine ⟨fun s t u hv hw hwrite hin => ?writeRead, fun u v hread he => ?readWrite⟩
  case writeRead =>
    obtain ⟨tr, htree, hn, -⟩ := hw.tree
    obtain ⟨out, hexec, hout⟩ := exec_twrite_of_tree hv htree hn
    obtain rfl := Host.Outcome.next.inj (hexec.symm.trans hwrite)
    rw [outBytes_of_wroteHeader hn hout rfl] at hin ⊢
    obtain ⟨v, hread, hdone, hvalid, hcount, hvtree, hiptr, hinLen⟩ :=
      exec_tread_restores (hin.trans (List.append_nil _).symm) hn
    refine ⟨v, hread, hdone, hvalid, hcount, hvtree.trans htree.symm, hiptr, BitVec.eq_of_toNat_eq ?_⟩
    rw [hiptr, hinLen, ← inputBytes_length, hin]
  case readWrite =>
    obtain ⟨cnt, tr, rest, hin, hn⟩ := header_of_exec_tread hread he
    obtain ⟨v', hexec, -, hvalid, hcount, htree, hiptr, -⟩ := exec_tread_restores hin hn
    obtain rfl := Host.Outcome.next.inj (hexec.symm.trans hread)
    obtain ⟨out, hwrite, hout⟩ := exec_twrite_of_tree hvalid htree hn
    refine ⟨_, hwrite, rfl, (outBytes_of_wroteHeader hn hout rfl).trans ?_⟩
    rw [hin, hiptr, hcount, List.take_left]

end Sys2Proof.Machine

namespace Sys2Proof.Machine

/-! ## BENC and BDEC as commands (44_bitstream R164, R169) -/

/-- BENC of an input of the tree's leaves: OUT holds the bits of the input padded with zeros to a byte boundary
(44_bitstream R161, R164). -/
theorem exec_benc_of_codes {s : State} {t : Tree} (hc : s.codeValid = true) (hcode : s.code = codesOf t)
    (hn : (leavesOf t).Nodup) (hl : s.nleaf.toNat = (leavesOf t).length)
    (hv : ∀ v ∈ s.inputBytes, v ∈ leavesOf t) :
    ∃ out acc nb bs pad, exec .benc s = .next { s with
        outMem := out, acc := acc, nb := nb, outLen := BitVec.ofNat 64 bs.length
        bitcount := BitVec.ofNat 64 (bitsOf t s.inputBytes).length, iptr := s.inLen
        errcode := 0, done := true, error := false, busy := false } ∧
      WroteOut s.outMem out bs ∧ bs.length = ((bitsOf t s.inputBytes).length + 7) / 8 ∧
      bs.length < 2 ^ 64 ∧
      bs.flatMap byteBits = bitsOf t s.inputBytes ++ List.replicate pad false := by
  obtain ⟨acc, nb, bs, hbody, hbits, hlen⟩ := bitEncode_spec (s := prologue s) hcode hn hl hv
  change bs.length = ((bitsOf t s.inputBytes).length + 7) / 8 at hlen
  have hlt : bs.length < 2 ^ 64 := by
    have hbitsLen := bitsOf_length_le hn s.inputBytes
    have hinput := inputBytes_lt s
    omega
  have hout : (emitAll (prologue s) bs).outLen = BitVec.ofNat 64 bs.length :=
    (emitAll_outLen _ _).trans (BitVec.zero_add _)
  refine ⟨_, acc, nb, bs, _, ?_, emitAll_wrote (s := prologue s) rfl hlt, hlen, hlt, hbits⟩
  rw [exec_benc, runCommand_ok hc hbody, hout]
  rfl

/-- BDEC where the payload bits hold SYMCOUNT symbols (44_bitstream R166, R169). -/
theorem exec_bdec_reads {s : State} {t : Tree} {vs : List Byte} {rest : List Bool} (hv : s.treeValid = true)
    (hi : s.iptr ≤ s.inLen) (ht : s.tree? = some t)
    (hr : readSymbols t s.symcount.toNat s.payloadBits = some (vs, rest)) :
    ∃ out cur bp, exec .bdec s = .next { s with
        outMem := out, cur := cur, bp := bp, outLen := BitVec.ofNat 64 s.symcount.toNat
        bitcount := BitVec.ofNat 64 (s.payloadBits.length - rest.length)
        iptr := BitVec.ofNat 32 (s.iptr.toNat + (s.payloadBits.length - rest.length + 7) / 8)
        errcode := 0, done := true, error := false, busy := false } ∧
      vs.length = s.symcount.toNat ∧ WroteOut s.outMem out vs := by
  have hlen := readSymbols_length hr
  have hlt : vs.length < 2 ^ 64 := by
    have hcount := s.symcount.isLt
    omega
  obtain ⟨cur, bp, hbody⟩ := bitDecode_spec (s := prologue s) ht hr
  have hout : (emitAll (prologue s) vs).outLen = BitVec.ofNat 64 s.symcount.toNat := by
    rw [emitAll_outLen, hlen]
    exact BitVec.zero_add _
  refine ⟨_, cur, bp, ?_, hlen, emitAll_wrote (s := prologue s) rfl hlt⟩
  rw [exec_bdec, runCommand_ok ((needsTreeAndPayload_prologue s).2 ⟨hv, hi⟩) hbody, hout]
  rfl

/-- BDEC where they do not: some symbols were read, the next walk ended on an internal node, and the symbols that
stand in OUT are discarded by the raise (44_bitstream R168). -/
theorem exec_bdec_runs_out {s : State} {t : Tree} (hv : s.treeValid = true) (hi : s.iptr ≤ s.inLen)
    (ht : s.tree? = some t) (hr : readSymbols t s.symcount.toNat s.payloadBits = none) :
    ∃ out cur bp n vs rest, exec .bdec s = .next { s with
        outMem := out, cur := cur, bp := bp, errcode := 4, error := true, done := false, outLen := 0
        iptr := 0, bitcount := 0, busy := false, parsing := false } ∧
      n < s.symcount.toNat ∧ readSymbols t n s.payloadBits = some (vs, rest) ∧
      readSymbol t rest = none ∧ WroteOut s.outMem out vs := by
  obtain ⟨cur, bp, n, vs, rest, hbody, hn, hread, hnext⟩ := bitDecode_runs_out (s := prologue s) ht hr
  have hlt : vs.length < 2 ^ 64 := by
    have hcount := (prologue s).symcount.isLt
    have hlen := readSymbols_length hread
    omega
  refine ⟨_, cur, bp, n, vs, rest, ?_, hn, hread, hnext, emitAll_wrote (s := prologue s) rfl hlt⟩
  rw [exec_bdec, runCommand_raised ((needsTreeAndPayload_prologue s).2 ⟨hv, hi⟩) hbody]
  rfl

/-- From IPTR = 0 on the payload is the whole input (44_bitstream R165). -/
theorem payloadBits_of_iptr_zero {s : State} (h : s.iptr = 0) :
    s.payloadBits = s.inputBytes.flatMap byteBits := by
  unfold State.payloadBits
  rw [h]
  rfl

/-- BDEC of the codes of some symbols, whatever follows them: the symbols, and the bits and bytes their codes take
(44_bitstream R166, R173). -/
theorem exec_bdec_of_codes {s : State} {t : Tree} {vs : List Byte} {low : List Bool} (hv : s.treeValid = true)
    (hi : s.iptr ≤ s.inLen) (ht : s.tree? = some t) (hvs : ∀ v ∈ vs, v ∈ leavesOf t)
    (hcount : s.symcount.toNat = vs.length) (hpayload : s.payloadBits = bitsOf t vs ++ low) :
    ∃ v, exec .bdec s = .next v ∧ v.done = true ∧ v.outBytes = vs ∧ v.inLen = s.inLen ∧
      v.iptr = BitVec.ofNat 32 (s.iptr.toNat + ((bitsOf t vs).length + 7) / 8) ∧
      v.bitcount = BitVec.ofNat 64 (bitsOf t vs).length := by
  have hread : readSymbols t s.symcount.toNat s.payloadBits = some (vs, low) := by
    rw [hcount, hpayload]
    exact readSymbols_bitsOf vs hvs low
  have hused : s.payloadBits.length - low.length = (bitsOf t vs).length := by
    rw [hpayload, List.length_append, Nat.add_sub_cancel]
  obtain ⟨out, cur, bp, hexec, hlen, hout⟩ := exec_bdec_reads hv hi ht hread
  rw [hused] at hexec
  refine ⟨_, hexec, rfl, hout.outBytes ?_, rfl, rfl, rfl⟩
  have hsmall := s.symcount.isLt
  rw [hlen, BitVec.toNat_ofNat]
  exact Nat.mod_eq_of_lt (by omega)

/-- Settles O41: BENC emits the codes of the input and their padding by `exec_benc_of_codes`, and `exec_bdec_of_codes`
reads them back; the bytes BDEC used are as many as BENC emitted, and those are all of IN. -/
theorem payloadRoundTrip : Obligations.PayloadRoundTrip := by
  intro s tr t u hcv hw htree hcode hv hbenc htv _ hutree hcount hiptr hin
  obtain ⟨tr', htree', hn, hl⟩ := hw.tree
  obtain rfl : tr' = tr := Option.some.inj (htree'.symm.trans htree)
  obtain ⟨out, acc, nb, bs, pad, hexec, hout, hlen, hlt, hbits⟩ :=
    exec_benc_of_codes hcv hcode hn hl.symm hv
  obtain rfl := Host.Outcome.next.inj (hexec.symm.trans hbenc)
  have hbytes : u.inputBytes = bs :=
    hin.trans (hout.outBytes (by rw [BitVec.toNat_ofNat]; exact Nat.mod_eq_of_lt hlt))
  have hinLen : u.inLen.toNat = bs.length := by rw [← inputBytes_length, hbytes]
  have hpayload := (payloadBits_of_iptr_zero hiptr).trans (hbytes ▸ hbits)
  obtain ⟨v, hbdec, hdone, hsymbols, hvInLen, hvIptr, hbitcount⟩ := exec_bdec_of_codes htv
    (BitVec.le_def.2 (by rw [hiptr]; exact Nat.zero_le _)) hutree hv (by rw [hcount, inputBytes_length]) hpayload
  refine ⟨v, hbdec, hdone, hsymbols, ?_, hbitcount⟩
  calc
    v.iptr = BitVec.ofNat 32 bs.length := by
      rw [hvIptr, hiptr, hlen]
      exact congrArg (BitVec.ofNat 32) (Nat.zero_add _)
    _ = v.inLen := by rw [← hinLen, hvInLen, BitVec.ofNat_toNat, BitVec.setWidth_eq]

/-- Settles O39: a walk that fails makes the whole reading fail (`readSymbols_none`), and then BDEC raises by
`exec_bdec_runs_out`; where the reading succeeds, BDEC raises nothing by `exec_bdec_reads`. -/
theorem bdecTruncatedExactlyWhenBitsRunOut : Obligations.BdecTruncatedExactlyWhenBitsRunOut := by
  intro s tr hv hi _ htree
  constructor
  case mp =>
    rintro ⟨n, vs, rest, hn, hread, hnext⟩
    obtain ⟨out, cur, bp, k, ws, rest', hexec, hk, hread', -, hout⟩ :=
      exec_bdec_runs_out hv hi htree (readSymbols_none hn hread hnext)
    exact ⟨out, cur, bp, k, ws, rest', hexec, hk, hread', hout⟩
  case mpr =>
    rintro ⟨out, cur, bp, n, vs, rest, hexec, -⟩
    cases hread : readSymbols tr s.symcount.toNat s.payloadBits with
    | none =>
      obtain ⟨-, -, -, k, ws, rest', -, hk, hread', hnext, -⟩ := exec_bdec_runs_out hv hi htree hread
      exact ⟨k, ws, rest', hk, hread', hnext⟩
    | some x =>
      obtain ⟨out', cur', bp', hexec', -⟩ := exec_bdec_reads hv hi htree hread
      have herror := congrArg State.error (Host.Outcome.next.inj (hexec.symm.trans hexec'))
      cases herror

/-! ## A payload that was cut (44_bitstream R172) -/

/-- A walk that reached a leaf takes nothing from bits that follow. -/
theorem readSymbol_append {t : Tree} {bits rest : List Bool} {v : Byte} (h : readSymbol t bits = some (v, rest))
    (more : List Bool) : readSymbol t (bits ++ more) = some (v, rest ++ more) := by
  induction t generalizing bits with
  | leaf u =>
    rw [readSymbol] at h
    cases h
    rfl
  | node l r ihl ihr =>
    cases bits with
    | nil => cases h
    | cons b bits =>
      rw [readSymbol_node] at h
      rw [List.cons_append, readSymbol_node]
      split at h
      · next hb => rw [if_pos hb]; exact ihl h
      · next hb => rw [if_neg hb]; exact ihr h

/-- Symbols read from some bits are read from those bits with more after them, and these stay unread. -/
theorem readSymbols_append {t : Tree} {n : Nat} {bits rest : List Bool} {vs : List Byte}
    (h : readSymbols t n bits = some (vs, rest)) (more : List Bool) :
    readSymbols t n (bits ++ more) = some (vs, rest ++ more) := by
  induction n generalizing bits vs with
  | zero =>
    rw [readSymbols] at h
    cases h
    rfl
  | succ n ih =>
    rw [readSymbols] at h
    split at h
    · cases h
    · next v bits' hfirst =>
      split at h
      · cases h
      · next ws rest' hothers =>
        cases h
        rw [readSymbols, readSymbol_append hfirst more]
        dsimp only
        rw [ih hothers]

/-- The bits of a sequence of symbols with one or more of the last ones gone do not hold as many symbols
(44_bitstream R172). -/
theorem readSymbols_of_cut_bits {t : Tree} {vs : List Byte} {bits cut : List Bool}
    (hv : ∀ v ∈ vs, v ∈ leavesOf t) (h : bitsOf t vs = bits ++ cut) (hcut : cut ≠ []) :
    readSymbols t vs.length bits = none := by
  cases hread : readSymbols t vs.length bits with
  | none => rfl
  | some x =>
    have hall := readSymbols_bitsOf vs hv []
    rw [List.append_nil, h, readSymbols_append hread cut] at hall
    obtain ⟨-, hrest⟩ := Prod.mk.inj (Option.some.inj hall)
    exact absurd (List.append_eq_nil_iff.1 hrest).2 hcut

/-- The bits of the first bytes of a sequence. -/
theorem flatMap_byteBits_take (bs : List Byte) (m : Nat) :
    (bs.take m).flatMap byteBits = (bs.flatMap byteBits).take (8 * (bs.take m).length) := by
  rw [← flatMap_byteBits_length]
  exact List.prefix_iff_eq_take.1 ((List.take_prefix m bs).flatMap byteBits)

/-- A payload that lost its last byte lost a bit of the last symbols, since its last byte is not all padding
(44_bitstream R172). -/
theorem readSymbols_of_cut_payload {t : Tree} {vs pay : List Byte} {m : Nat} {low : List Bool}
    (hv : ∀ v ∈ vs, v ∈ leavesOf t) (hbits : pay.flatMap byteBits = bitsOf t vs ++ low)
    (hlen : pay.length = ((bitsOf t vs).length + 7) / 8) (hm : m < pay.length) :
    readSymbols t vs.length ((pay.take m).flatMap byteBits) = none := by
  have hshort : 8 * m < (bitsOf t vs).length := by omega
  have hcut : (pay.take m).flatMap byteBits = (bitsOf t vs).take (8 * m) := by
    rw [flatMap_byteBits_take, List.length_take, Nat.min_eq_left hm.le, hbits,
      List.take_append_of_le_length hshort.le]
  rw [hcut]
  refine readSymbols_of_cut_bits hv (List.take_append_drop (8 * m) _).symm fun hnil => ?_
  exact absurd (List.drop_eq_nil_iff.1 hnil) (by omega)

/-- What ENCODE leaves as its output: the header of a tree of the input's values, then the bits of the input with
their padding (30_encoding R88). -/
theorem outBytes_of_exec_encode {s t : State} (h : s.inLen ≠ 0) (hexec : exec .encode s = .next t) :
    ∃ tr pay pad, t.outBytes = headerBytes s.inLen tr ++ pay ∧ (leavesOf tr).Nodup ∧
      (leavesOf tr).length = t.nleaf.toNat ∧ (∀ v, v ∈ leavesOf tr ↔ v ∈ s.inputBytes) ∧
      pay.flatMap byteBits = bitsOf tr s.inputBytes ++ List.replicate pad false ∧
      pay.length = ((bitsOf tr s.inputBytes).length + 7) / 8 := by
  obtain ⟨_, _, nleaf, _, _, out, _, _, _, tr, pay, _, hencode, -, -, -, -, -, -, hn, hl, hv, -, hout, hlen,
    ⟨pad, hbits⟩, -⟩ := (encodeEmitsTheStream.2 s).1 h
  obtain rfl := Host.Outcome.next.inj (hencode.symm.trans hexec)
  refine ⟨tr, pay, pad, hout.outBytes ?_, hn, hl, hv, hbits, hlen⟩
  have hlt := stream_length_lt s.inLen hn (inputBytes_lt s) hlen
  have hstream : (headerBytes s.inLen tr ++ pay).length = 4 + (3 * nleaf.toNat - 1) + pay.length := by
    rw [List.length_append, headerBytes_length, hl]
  change (BitVec.ofNat 64 _).toNat = (headerBytes s.inLen tr ++ pay).length
  rw [← hstream, BitVec.toNat_ofNat]
  exact Nat.mod_eq_of_lt hlt

/-- `TreeRead()` on a header: its count, its tree, and the bytes after it as the payload (43_tree_codec R146, R148). -/
theorem treeRead_restores {s : State} {cnt : Word} {t : Tree} {pay : List Byte}
    (h : s.inputBytes = headerBytes cnt t ++ pay) (hn : (leavesOf t).Nodup) :
    ∃ u, treeReadFromStart s = .ok u ∧ u.symcount = cnt ∧ u.tree? = some t ∧ u.treeValid = true ∧
      u.codeValid = false ∧ u.payloadBits = pay.flatMap byteBits := by
  obtain ⟨node, hpre, hread⟩ := treeRead_spec h hn
  refine ⟨_, hread, rfl, tree?_of_preOrderAt hpre rfl hn, rfl, rfl,
    payloadBits_after_header ((inputBytes_congr rfl rfl rfl).trans h) ?_⟩
  have hle := headerBytes_length_le cnt hn
  change (BitVec.ofNat 32 _).toNat = _
  rw [← headerBytes_length cnt t, BitVec.toNat_ofNat]
  exact Nat.mod_eq_of_lt (by omega)

/-- DECODE of a header and a payload whose bits run out (45_pipeline R183, 60_exceptions R196). -/
theorem exec_decode_runs_out {s : State} {cnt : Word} {t : Tree} {pay : List Byte}
    (h : s.inputBytes = headerBytes cnt t ++ pay) (hn : (leavesOf t).Nodup)
    (hr : readSymbols t cnt.toNat (pay.flatMap byteBits) = none) :
    ∃ u, exec .decode s = .next (raise .truncatedStream u) ∧ u.treeValid = true ∧ u.codeValid = false ∧
      u.symcount = cnt ∧ u.tree? = some t := by
  obtain ⟨w, hread, rfl, htree, hvalid, hcode, hpayload⟩ := treeRead_restores (s := prologue s) h hn
  obtain ⟨cur, bp, n, vs, rest, hdecode, -⟩ := bitDecode_runs_out htree (hpayload ▸ hr)
  have hbody : decodeBody (prologue s) = bitDecode w := by rw [decodeBody, hread]; rfl
  exact ⟨_, (exec_decode s).trans (runCommand_raised rfl (hbody.trans hdecode)), hvalid, hcode, rfl, htree⟩

/-- Settles O48: `outBytes_of_exec_encode` gives the stream as a header and a payload, `readSymbols_of_cut_payload` says
that the cut payload holds too few symbols, and `exec_decode_runs_out` what DECODE then does. -/
theorem truncatedPayloadRejected : Obligations.TruncatedPayloadRejected := by
  intro s t u n _ hinput hencode hheader hcut hin
  obtain ⟨tr, pay, pad, hstream, hn, hl, hv, hbits, hlen⟩ := outBytes_of_exec_encode hinput hencode
  rw [← hl, ← headerBytes_length s.inLen tr] at hheader
  obtain ⟨m, rfl⟩ := Nat.exists_eq_add_of_le hheader
  rw [hstream, List.length_append, Nat.add_lt_add_iff_left] at hcut
  rw [hstream, List.take_length_add_append] at hin
  have hfew := readSymbols_of_cut_payload (fun v => (hv v).2) hbits hlen hcut
  rw [inputBytes_length] at hfew
  obtain ⟨v, hdecode, -⟩ := exec_decode_runs_out hin hn hfew
  exact ⟨_, hdecode, rfl, rfl, rfl⟩

end Sys2Proof.Machine

namespace Sys2Proof.Machine

/-! ## DECODE of a stream (45_pipeline R183, R185, R188) -/

/-- A header's length fits the 32-bit IPTR (10_state R25, 30_encoding R91). -/
theorem toNat_ofNat_headerEnd (cnt : Word) {t : Tree} (hn : (leavesOf t).Nodup) :
    (BitVec.ofNat 32 (4 + (3 * (leavesOf t).length - 1))).toNat = (headerBytes cnt t).length := by
  have hle := headerBytes_length_le cnt hn
  rw [← headerBytes_length cnt t, BitVec.toNat_ofNat]
  exact Nat.mod_eq_of_lt (by omega)

/-- DECODE is `BitDecode()` in the state that `TreeRead()` leaves (45_pipeline R183). -/
theorem decodeBody_of_treeRead {s w : State} (h : treeReadFromStart s = .ok w) : decodeBody s = bitDecode w := by
  rw [decodeBody, h]
  rfl

/-- The body of DECODE on a header and enough payload bits, as one update of the state it starts in (45_pipeline R183):
`BitDecode()` walks the tree that `TreeRead()` put in the arena, over the bytes after the header. -/
theorem decodeBody_reads {s : State} {cnt : Word} {t : Tree} {pay vs : List Byte} {rest : List Bool}
    (h : s.inputBytes = headerBytes cnt t ++ pay) (hn : (leavesOf t).Nodup)
    (hr : readSymbols t cnt.toNat (pay.flatMap byteBits) = some (vs, rest)) :
    ∃ node cur bp, PreOrderAt node 0 t ∧ decodeBody s = .ok { s with
        node := node, parser := (HeaderParse.start 4 cnt).past t, symcount := cnt, root := 0
        nnodes := BitVec.ofNat 10 (2 * (leavesOf t).length - 1)
        nleaf := BitVec.ofNat 9 (leavesOf t).length, treeValid := true, codeValid := false, parsing := false
        outMem := (emitAll s vs).outMem, outLen := (emitAll s vs).outLen, cur := cur, bp := bp
        bitcount := BitVec.ofNat 64 (8 * pay.length - rest.length)
        iptr := BitVec.ofNat 32
          (4 + (3 * (leavesOf t).length - 1) + (8 * pay.length - rest.length + 7) / 8) } := by
  obtain ⟨w, hread, hcount, htree, -, -, hpayload⟩ := treeRead_restores h hn
  obtain ⟨node, hpre, hread'⟩ := treeRead_spec h hn
  obtain ⟨cur, bp, hdecode⟩ := bitDecode_spec htree (by rw [hcount, hpayload]; exact hr)
  rw [hpayload, flatMap_byteBits_length] at hdecode
  have hw := ProcResult.ok.inj (hread.symm.trans hread')
  obtain ⟨houtMem, houtLen⟩ := emitAll_congr (s := w) (s' := s) (by rw [hw]) (by rw [hw]) vs
  have hiptr : w.iptr.toNat = 4 + (3 * (leavesOf t).length - 1) := by
    rw [hw]
    exact (toNat_ofNat_headerEnd cnt hn).trans (headerBytes_length cnt t)
  refine ⟨node, cur, bp, hpre, (decodeBody_of_treeRead hread).trans (hdecode.trans ?_)⟩
  rw [houtMem, houtLen, hiptr, hw]

/-- The arena that `TreeRead()` leaves spells the tree, is numbered in pre-order from entry 0 on, and has every weight 0
(43_tree_codec R146). -/
theorem arena_of_preOrderAt {node : NodeTable} {t : Tree} (h : PreOrderAt node 0 t) (hn : (leavesOf t).Nodup) :
    treeAt node maxFrames 0 = some t ∧
      entriesAt node maxFrames 0 = some (List.range (2 * (leavesOf t).length - 1)) ∧
      ∀ i < 2 * (leavesOf t).length - 1, (nodeAt node i).weight = 0 := by
  have hleaves := leaves_nodup_le _ hn
  have hsize : sizeOf' t = 2 * (leavesOf t).length - 1 := Nat.eq_sub_of_add_eq (sizeOf'_eq t)
  have hfits : 0 + sizeOf' t ≤ 511 := by omega
  have hdepth : depthOf t < maxFrames := Nat.lt_of_lt_of_le (depthOf_lt t) hleaves
  refine ⟨h.treeAt hfits hdepth, ?entries, fun i hi => h.weights i (Nat.zero_le i) (by omega)⟩
  case entries => rw [h.entriesAt hfits hdepth, hsize, List.range_eq_range']

/-- Settles O44: `decodeBody_reads` after the prologue, and `arena_of_preOrderAt` for the tree it leaves. -/
theorem decodeReadsAnyAcceptedStream : Obligations.DecodeReadsAnyAcceptedStream := by
  intro s cnt tr pay vs rest hin hn hr
  obtain ⟨node, cur, bp, hpre, hbody⟩ := decodeBody_reads (s := prologue s) hin hn hr
  have hlen := readSymbols_length hr
  have hlt : vs.length < 2 ^ 64 := by
    have hcount := cnt.isLt
    omega
  have hout : (emitAll (prologue s) vs).outLen = BitVec.ofNat 64 cnt.toNat := by
    rw [emitAll_outLen, hlen]
    exact BitVec.zero_add _
  refine ⟨node, (HeaderParse.start 4 cnt).past tr, (emitAll (prologue s) vs).outMem, cur, bp, ?exec, hlen,
    emitAll_wrote (s := prologue s) rfl hlt, arena_of_preOrderAt hpre hn⟩
  rw [exec_decode, runCommand_ok rfl hbody, hout]
  rfl

/-- DECODE of a header and the codes of as many symbols as it counts, whatever bits follow: the symbols, and IPTR
behind the bytes their codes take (45_pipeline R185). -/
theorem exec_decode_of_codes {u : State} {cnt : Word} {t : Tree} {pay vs : List Byte} {low : List Bool}
    (h : u.inputBytes = headerBytes cnt t ++ pay) (hn : (leavesOf t).Nodup) (hvs : ∀ v ∈ vs, v ∈ leavesOf t)
    (hcount : cnt.toNat = vs.length) (hpay : pay.flatMap byteBits = bitsOf t vs ++ low) :
    ∃ v, exec .decode u = .next v ∧ v.done = true ∧ v.outBytes = vs ∧ v.inLen = u.inLen ∧
      v.iptr = BitVec.ofNat 32 ((headerBytes cnt t).length + ((bitsOf t vs).length + 7) / 8) := by
  have hread : readSymbols t cnt.toNat (pay.flatMap byteBits) = some (vs, low) := by
    rw [hcount, hpay]
    exact readSymbols_bitsOf vs hvs low
  have hused : 8 * pay.length - low.length = (bitsOf t vs).length := by
    rw [← flatMap_byteBits_length, hpay, List.length_append, Nat.add_sub_cancel]
  obtain ⟨node, parser, out, cur, bp, hexec, hlen, hout, -⟩ :=
    decodeReadsAnyAcceptedStream u cnt t pay vs low h hn hread
  rw [hused, ← headerBytes_length cnt t] at hexec
  refine ⟨_, hexec, rfl, hout.outBytes ?_, rfl, rfl⟩
  have hsmall := cnt.isLt
  rw [hlen, BitVec.toNat_ofNat]
  exact Nat.mod_eq_of_lt (by omega)

/-- ENCODE of an input that is not empty ends without error (45_pipeline R181). -/
theorem exec_encode_done {s : State} (h : s.inLen ≠ 0) : ∃ t, exec .encode s = .next t ∧ t.done = true := by
  obtain ⟨_, _, _, _, _, _, _, _, _, _, _, _, hencode, -⟩ := (encodeEmitsTheStream.2 s).1 h
  exact ⟨_, hencode, rfl⟩

/-- Settles O46: `outBytes_of_exec_encode` gives the stream as a header and the codes of the input, and
`exec_decode_of_codes` reads them back; only the codes' bytes follow the header, so IPTR ends at IN_LEN. -/
theorem roundTrip : Obligations.RoundTrip := by
  intro s u hinput
  obtain ⟨t, hencode, hdone⟩ := exec_encode_done hinput
  refine ⟨t, hencode, hdone, fun hin => ?_⟩
  obtain ⟨tr, pay, pad, hstream, hn, -, hv, hbits, hlen⟩ := outBytes_of_exec_encode hinput hencode
  have hbytes := hin.trans hstream
  obtain ⟨v, hdecode, hvdone, hsymbols, hvInLen, hvIptr⟩ := exec_decode_of_codes hbytes hn (fun b => (hv b).2)
    (inputBytes_length s).symm hbits
  refine ⟨v, hdecode, hvdone, hsymbols, ?_⟩
  calc
    v.iptr = BitVec.ofNat 32 u.inLen.toNat := by
      rw [hvIptr, ← hlen, ← List.length_append, ← hbytes, inputBytes_length]
    _ = v.inLen := by rw [hvInLen, BitVec.ofNat_toNat, BitVec.setWidth_eq]

end Sys2Proof.Machine

namespace Sys2Proof.Machine

/-! ## Which errors a command reports (60_exceptions R192) -/

/-- ERRCODE after a command is 0 or one of `codes`, if these hold IllegalCommand where its precondition fails and the
code of every error its body raises (30_encoding R82). -/
theorem runCommand_errcode {pre : State → Bool} {body : State → ProcResult} {s t : State} {codes : List (BitVec 3)}
    (h : runCommand pre body s = .next t)
    (hpre : pre (prologue s) = false → ErrorKind.illegalCommand.code ∈ codes)
    (hbody : ∀ e u, body (prologue s) = .raised e u → e.code ∈ codes) : t.errcode = 0 ∨ t.errcode ∈ codes := by
  rcases runCommand_next h with ⟨hp, rfl⟩ | ⟨-, ⟨u, -, rfl⟩ | ⟨e, u, hu, rfl⟩⟩
  · exact .inr (hpre hp)
  · exact .inl (epilogue_errcode u)
  · exact .inr (hbody e u hu)

/-- A command without a precondition reports only what its body raises (30_encoding R86). -/
theorem runCommand_needsNothing_errcode {body : State → ProcResult} {s t : State} {codes : List (BitVec 3)}
    (h : runCommand needsNothing body s = .next t)
    (hbody : ∀ e u, body (prologue s) = .raised e u → e.code ∈ codes) : t.errcode = 0 ∨ t.errcode ∈ codes :=
  runCommand_errcode h (fun hp => nomatch hp) hbody

/-- ENCODE raises only EmptyInputError: after a count that found input, `encodeBody_result` leaves nothing to raise
(60_exceptions R192). -/
theorem encodeBody_raised_kind {s u : State} {e : ErrorKind} (h : encodeBody s = .raised e u) : e = .emptyInput := by
  by_cases hn : s.inLen = 0
  case pos =>
    rw [encodeBody_of_empty hn] at h
    cases h
    rfl
  case neg =>
    obtain ⟨_, _, _, _, _, -, hok, -⟩ := encodeBody_result hn
    rw [hok] at h
    cases h

/-- DECODE raises what its `TreeRead()` or its `BitDecode()` raises (60_exceptions R192). -/
theorem decodeBody_raised_kind {s u : State} {e : ErrorKind} (h : decodeBody s = .raised e u) :
    e = .malformedTree ∨ e = .truncatedStream := by
  rcases andThen_raised h with hread | ⟨v, -, hbits⟩
  · exact .inl (treeRead_raised hread).1
  · exact .inr (bitDecode_raised hbits).1

/-- Settles O14: each command's `runCommand` by `runCommand_errcode`, with the one kind of error that each procedure
raises. -/
theorem errorsEachCommandCanReport : Obligations.ErrorsEachCommandCanReport := by
  intro i s t hi h
  cases i with
  | encode =>
    refine runCommand_needsNothing_errcode h fun e u hu => ?_
    obtain rfl := encodeBody_raised_kind hu
    decide
  | decode =>
    refine runCommand_needsNothing_errcode h fun e u hu => ?_
    obtain rfl | rfl := decodeBody_raised_kind hu <;> decide
  | count =>
    refine runCommand_needsNothing_errcode h fun e u hu => ?_
    obtain ⟨-, rfl, -⟩ := count_raised hu
    decide
  | build =>
    refine runCommand_needsNothing_errcode h fun e u hu => ?_
    obtain ⟨-, rfl, -⟩ := build_raised hu
    decide
  | tread =>
    refine runCommand_needsNothing_errcode h fun e u hu => ?_
    obtain ⟨rfl, -⟩ := treeRead_raised hu
    decide
  | derive => exact runCommand_errcode h (fun _ => by decide) fun e u hu => absurd hu derive_raised
  | twrite => exact runCommand_errcode h (fun _ => by decide) fun e u hu => absurd hu treeWrite_raised
  | benc =>
    refine runCommand_errcode h (fun _ => by decide) fun e u hu => ?_
    obtain ⟨rfl, -⟩ := bitEncode_raised hu
    decide
  | bdec =>
    refine runCommand_errcode h (fun _ => by decide) fun e u hu => ?_
    obtain ⟨rfl, -⟩ := bitDecode_raised hu
    decide
  | recInternal | recLeaf _ => cases hi

/-! ## The idle engine (60_exceptions R215) -/

/-- Settles O56: `step_idle` where no move is pending, and `step_host` for the host's turn at a wait. -/
theorem idleEngineKeepsItsState : Obligations.IdleEngineKeepsItsState :=
  fun _ hbusy => ⟨step_idle hbusy, fun _ hhost => step_host hbusy hhost⟩

end Sys2Proof.Machine

namespace Sys2Proof.Machine

/-! ## Decoding (30_encoding R81, R90, R98) -/

/-- What the decoder accepts: the encoding of an instruction of the space, and whatever follows it. -/
theorem decode_ok {sp : Space} {bs rest : List Byte} {i : Instr} (h : decode sp bs = .ok (i, rest)) :
    bs = encode i ++ rest ∧ i.space = sp := by
  cases sp with
  | stream => exact decodeRecord_ok h
  | command =>
    cases bs with
    | nil => cases h
    | cons c bs =>
      rw [decode] at h
      split at h
      · next j hj =>
        cases h
        obtain ⟨hcode, hspace⟩ := decodeCommand_ok hj
        exact ⟨by rw [← hcode]; rfl, hspace⟩
      · cases h

/-- Settles O5: `decode_ok`, for both spaces. -/
theorem decodedBytesAreTheEncoding : Obligations.DecodedBytesAreTheEncoding :=
  fun _ _ _ _ => decode_ok

/-- Settles O4: a command's one byte by its row of the code table, a record by its marker. -/
theorem decodeOfEncodeIsTheInstruction : Obligations.DecodeOfEncodeIsTheInstruction := by
  intro i rest _
  cases i with
  | recInternal => exact decodeRecord_internal rest
  | recLeaf v => exact decodeRecord_leaf v rest
  | _ => rfl

/-- Settles O3: each word by evaluation. -/
theorem tableWordsDecode : Obligations.TableWordsDecode := by
  unfold Obligations.TableWordsDecode
  decide

/-! ## The header check and the trees (43_tree_codec R147) -/

/-- The records of a tree use up one of the trees that are due (30_encoding R91). -/
theorem treesLeft_records (t : Tree) (n : Nat) (is : List Instr) :
    treesLeft (n + 1) (records t ++ is) = treesLeft n is := by
  induction t generalizing n is with
  | leaf v => rfl
  | node l r ihl ihr =>
    rw [records, List.cons_append, List.append_assoc, treesLeft, ihl, ihr]

/-- Records that leave no tree due are those of as many trees as were due before them (30_encoding R91). -/
theorem treesLeft_eq_zero_iff {n : Nat} {is : List Instr} :
    treesLeft n is = some 0 ↔ ∃ ts : List Tree, ts.length = n ∧ is = ts.flatMap records := by
  constructor
  case mpr =>
    rintro ⟨ts, rfl, rfl⟩
    induction ts with
    | nil => rfl
    | cons t ts ih => rw [List.length_cons, List.flatMap_cons, treesLeft_records, ih]
  case mp =>
    intro h
    induction is generalizing n with
    | nil =>
      cases n with
      | zero => exact ⟨[], rfl, rfl⟩
      | succ n => cases h
    | cons i is ih =>
      cases n with
      | zero => cases h
      | succ n =>
        cases i with
        | recLeaf v =>
          obtain ⟨ts, rfl, rfl⟩ := ih h
          exact ⟨.leaf v :: ts, rfl, rfl⟩
        | recInternal =>
          obtain ⟨ts, hlen, rfl⟩ := ih h
          match ts, hlen with
          | l :: r :: ts, hlen =>
            exact ⟨.node l r :: ts, Nat.succ.inj hlen, by simp [records]⟩
        | _ => cases h

/-- The sequences that spell one tree are the records of trees. -/
theorem spellsOneTree_iff (is : List Instr) : spellsOneTree is = true ↔ ∃ t, is = records t := by
  rw [spellsOneTree, beq_iff_eq, treesLeft_eq_zero_iff]
  constructor
  · rintro ⟨ts, hlen, rfl⟩
    obtain ⟨t, rfl⟩ := List.length_eq_one_iff.1 hlen
    exact ⟨t, List.flatMap_singleton records t⟩
  · rintro ⟨t, rfl⟩
    exact ⟨[t], rfl, (List.flatMap_singleton records t).symm⟩

/-- Settles O7: `spellsOneTree_iff`, and `leafValues_records` for the values. -/
theorem wellFormedHeadersAreTrees : Obligations.WellFormedHeadersAreTrees := by
  intro is
  rw [HeaderWellFormed, Bool.and_eq_true, spellsOneTree_iff, leavesDistinct, decide_eq_true_iff]
  constructor
  · rintro ⟨⟨t, rfl⟩, hn⟩
    exact ⟨t, rfl, leafValues_records t ▸ hn⟩
  · rintro ⟨t, rfl, hn⟩
    exact ⟨⟨t, rfl⟩, (leafValues_records t).symm ▸ hn⟩

end Sys2Proof.Machine

namespace Sys2Proof.Machine

/-! ## Every step keeps the invariant (10_state R27, R28, R41) -/

theorem Inv.settled {s : State} (h : Inv s) : Settled s :=
  ⟨h.inCanonical, h.outCanonical, h.codeNeedsTree, h.tree, h.code⟩

/-- Between commands the invariant is what `Settled` says and a legal way for a command to have ended. -/
theorem inv_of_idle {s : State} (q : Settled s) (hbusy : s.busy = false) (hparsing : s.parsing = false)
    (hlegal : s.errcode.toNat ≤ 5) (herror : s.error = true ↔ s.errcode ≠ 0)
    (hnotBoth : ¬ (s.done = true ∧ s.error = true)) : Inv s where
  inCanonical := q.inCanonical
  outCanonical := q.outCanonical
  errcodeLegal := hlegal
  errorIffErrcode _ := herror
  notBoth := hnotBoth
  busyAlone hb := absurd (hbusy.symm.trans hb) Bool.false_ne_true
  busyIffParsing := hbusy.trans hparsing.symm
  codeNeedsTree := q.codeNeedsTree
  tree := q.tree
  code := q.code
  parsingClears hp := absurd (hparsing.symm.trans hp) Bool.false_ne_true
  header hp := absurd (hparsing.symm.trans hp) Bool.false_ne_true

theorem ErrorKind.code_le (e : ErrorKind) : e.code.toNat ≤ 5 := by cases e <;> decide

theorem ErrorKind.code_ne_zero (e : ErrorKind) : e.code ≠ 0 := by cases e <;> decide

theorem inv_epilogue {u : State} (q : Settled u) (herror : u.error = false) (hparsing : u.parsing = false) :
    Inv (epilogue u) :=
  inv_of_idle (q.congr rfl rfl rfl rfl rfl rfl rfl rfl rfl) rfl hparsing (Nat.zero_le 5)
    (iff_of_false (by simp [herror]) (by simp)) (by simp [herror])

theorem inv_raise {u : State} (q : Settled u) (e : ErrorKind) : Inv (raise e u) :=
  inv_of_idle (q.congr rfl rfl rfl rfl rfl rfl rfl rfl rfl) rfl rfl e.code_le (iff_of_true rfl e.code_ne_zero)
    (fun h => Bool.false_ne_true h.1)

/-- What a command's body starts from and returns: `Settled`, no error, and no header being read. -/
structure Quiet (s : State) : Prop where
  settled : Settled s
  noError : s.error = false
  noHeader : s.parsing = false

theorem prologue_quiet {s : State} (q : Settled s) (hp : s.parsing = false) : Quiet (prologue s) :=
  ⟨q.congr rfl rfl rfl rfl rfl rfl rfl rfl rfl, rfl, hp⟩

theorem count_ok_quiet {s u : State} (q : Quiet s) (h : count s = .ok u) : Quiet u := by
  obtain ⟨-, hu⟩ := count_ok h
  exact ⟨count_ok_settled q.settled h, (count_ok_keeps h).error.trans q.noError, by rw [hu]; exact q.noHeader⟩

theorem build_ok_quiet {s u : State} (q : Quiet s) (h : build s = .ok u) : Quiet u := by
  obtain ⟨-, hu⟩ := build_ok h
  exact ⟨build_ok_settled q.settled h, (build_ok_keeps h).error.trans q.noError, by rw [hu]; exact q.noHeader⟩

theorem build_ok_treeValid {s u : State} (h : build s = .ok u) : u.treeValid = true := by
  obtain ⟨-, hu⟩ := build_ok h
  rw [hu]

theorem derive_ok_quiet {s u : State} (q : Quiet s) (hv : s.treeValid = true) (h : derive s = .ok u) :
    Quiet u := by
  obtain ⟨t, -, hu⟩ := derive_ok h
  exact ⟨derive_ok_settled q.settled hv h, (derive_ok_keeps h).error.trans q.noError,
    by rw [hu]; exact q.noHeader⟩

theorem treeWrite_ok_quiet {s u : State} (q : Quiet s) (h : treeWrite s = .ok u) : Quiet u := by
  obtain ⟨t, -, hu⟩ := treeWrite_ok h
  exact ⟨treeWrite_ok_settled q.settled h, (treeWrite_ok_keeps h).error.trans q.noError,
    by rw [hu, emitAll_parsing]; exact q.noHeader⟩

/-- `TreeRead()` ends the reading of a header, wherever it started (43_tree_codec R146). -/
theorem treeRead_ok_quiet {s u : State} (q : Settled s) (he : s.error = false) (h : treeReadFromStart s = .ok u) :
    Quiet u := by
  obtain ⟨_, _, _, _, -, -, -, hu⟩ := treeRead_ok h
  exact ⟨treeRead_ok_settled q h, (treeRead_ok_keeps h).error.trans he, by rw [hu, commitHeader_parsing]⟩

theorem bitEncode_ok_quiet {s u : State} (q : Quiet s) (h : bitEncode s = .ok u) : Quiet u := by
  obtain ⟨-, hu⟩ := bitEncode_ok h
  exact ⟨bitEncode_ok_settled q.settled h, (bitEncode_ok_keeps h).error.trans q.noError,
    by rw [hu]; exact q.noHeader⟩

theorem bitDecode_ok_quiet {s u : State} (q : Quiet s) (h : bitDecode s = .ok u) : Quiet u := by
  obtain ⟨-, hu⟩ := bitDecode_ok h
  exact ⟨bitDecode_ok_settled q.settled h, (bitDecode_ok_keeps h).error.trans q.noError,
    by rw [hu]; exact q.noHeader⟩

theorem encodeBody_ok_quiet {s u : State} (q : Quiet s) (h : encodeBody s = .ok u) : Quiet u := by
  obtain ⟨s1, s2, s3, s4, h1, h2, h3, h4, h5⟩ := encodeBody_ok h
  have q2 := build_ok_quiet (count_ok_quiet q h1) h2
  have q3 := derive_ok_quiet q2 (build_ok_treeValid h2) h3
  exact bitEncode_ok_quiet (treeWrite_ok_quiet q3 h4) h5

theorem encodeBody_raised_settled {s u : State} {e : ErrorKind} (q : Quiet s) (h : encodeBody s = .raised e u) :
    Settled u := by
  rcases encodeBody_raised h with h1 | ⟨s1, h1, h2⟩ | ⟨s1, s2, s3, s4, h1, h2, h3, h4, h5⟩
  · exact count_raised_settled q.settled h1
  · exact build_raised_settled (count_ok_settled q.settled h1) h2
  · have q2 := build_ok_quiet (count_ok_quiet q h1) h2
    have q3 := derive_ok_quiet q2 (build_ok_treeValid h2) h3
    exact bitEncode_raised_settled (treeWrite_ok_settled q3.settled h4) h5

theorem decodeBody_ok_quiet {s u : State} (q : Quiet s) (h : decodeBody s = .ok u) : Quiet u := by
  obtain ⟨v, hread, hbits⟩ := andThen_ok h
  exact bitDecode_ok_quiet (treeRead_ok_quiet q.settled q.noError hread) hbits

theorem decodeBody_raised_settled {s u : State} {e : ErrorKind} (q : Quiet s) (h : decodeBody s = .raised e u) :
    Settled u := by
  rcases andThen_raised h with hread | ⟨v, hread, hbits⟩
  · exact treeRead_raised_settled q.settled hread
  · exact bitDecode_raised_settled (treeRead_ok_settled q.settled hread) hbits

/-- A body that returns a quiet state, or raises from a settled one, ends its command in the invariant (30_encoding
R82). -/
theorem endCommand_inv {r : ProcResult} {t : State} (h : endCommand r = .next t)
    (hok : ∀ u, r = .ok u → Quiet u) (hraised : ∀ e u, r = .raised e u → Settled u) : Inv t := by
  cases r with
  | ok u =>
    cases h
    have q := hok u rfl
    exact inv_epilogue q.settled q.noError q.noHeader
  | raised e u => cases h; exact inv_raise (hraised e u rfl) e
  | stuck f => cases h

theorem runCommand_inv {pre : State → Bool} {body : State → ProcResult} {s t : State}
    (h : runCommand pre body s = .next t) (q : Quiet (prologue s))
    (hok : ∀ u, pre (prologue s) = true → body (prologue s) = .ok u → Quiet u)
    (hraised : ∀ e u, body (prologue s) = .raised e u → Settled u) : Inv t := by
  cases hp : pre (prologue s) with
  | true =>
    rw [runCommand_of_pre body hp] at h
    exact endCommand_inv h (fun u => hok u hp) hraised
  | false =>
    rw [runCommand_of_not_pre body hp] at h
    cases h
    exact inv_raise q.settled _

/-- Every command ends in the invariant (10_state R41: what sets TREE_VALID establishes a well-formed tree). -/
theorem exec_command_inv {i : Instr} {s t : State} (hi : i.space = .command) (h : exec i s = .next t)
    (hs : Settled s) (hp : s.parsing = false) : Inv t := by
  have q := prologue_quiet hs hp
  cases i with
  | encode =>
    exact runCommand_inv (exec_encode s ▸ h) q (fun _ _ => encodeBody_ok_quiet q) fun _ _ => encodeBody_raised_settled q
  | decode =>
    exact runCommand_inv (exec_decode s ▸ h) q (fun _ _ => decodeBody_ok_quiet q) fun _ _ => decodeBody_raised_settled q
  | count =>
    exact runCommand_inv (exec_count s ▸ h) q (fun _ _ => count_ok_quiet q) fun _ _ => count_raised_settled q.settled
  | build =>
    exact runCommand_inv (exec_build s ▸ h) q (fun _ _ => build_ok_quiet q) fun _ _ => build_raised_settled q.settled
  | derive =>
    exact runCommand_inv (exec_derive s ▸ h) q (fun _ => derive_ok_quiet q) fun _ _ hr => absurd hr derive_raised
  | twrite =>
    exact runCommand_inv (exec_twrite s ▸ h) q (fun _ _ => treeWrite_ok_quiet q) fun _ _ hr => absurd hr treeWrite_raised
  | tread =>
    exact runCommand_inv (exec_tread s ▸ h) q (fun _ _ => treeRead_ok_quiet q.settled q.noError)
      fun _ _ => treeRead_raised_settled q.settled
  | benc =>
    exact runCommand_inv (exec_benc s ▸ h) q (fun _ _ => bitEncode_ok_quiet q)
      fun _ _ => bitEncode_raised_settled q.settled
  | bdec =>
    exact runCommand_inv (exec_bdec s ▸ h) q (fun _ _ => bitDecode_ok_quiet q)
      fun _ _ => bitDecode_raised_settled q.settled
  | recInternal | recLeaf _ => cases hi

/-! ### A record of a header -/

theorem afterHeader_ok_quiet {s u : State} (q : Quiet s) (h : afterHeader s = .ok u) : Quiet u := by
  unfold afterHeader at h
  split at h
  · exact bitDecode_ok_quiet q h
  · cases h; exact q

theorem afterHeader_raised_settled {s u : State} {e : ErrorKind} (q : Settled s) (h : afterHeader s = .raised e u) :
    Settled u := by
  unfold afterHeader at h
  split at h
  · exact bitDecode_raised_settled q h
  · cases h

/-- One more record after those that led to where the parser stands. -/
theorem HeaderInProgress.takeRecord {s : State} (h : HeaderInProgress s) (i : Instr) :
    ∃ is node p cnt, takeRecords is node (HeaderParse.start p cnt) = takeRecord i s.node s.parser := by
  obtain ⟨is, node, p, cnt, his⟩ := h
  refine ⟨is ++ [i], node, p, cnt, ?_⟩
  rw [takeRecords_append, his]
  dsimp only
  rw [takeRecords]
  cases Machine.takeRecord i s.node s.parser <;> rfl

/-- A record keeps the invariant: the records so far stay a header in progress, and one that completes the header
leaves the pre-order arena of a whole tree (43_tree_codec R146). -/
theorem headerRecord_inv {i : Instr} {s t : State} (hs : Inv s) (hp : s.parsing = true)
    (h : headerRecord i s = .next t) : Inv t := by
  obtain ⟨htree, hcode⟩ := hs.parsingClears hp
  have hcleared (node : NodeTable) (p : HeaderParse) : Settled { s with node := node, parser := p } :=
    Settled.of_flags_clear hs.inCanonical hs.outCanonical hcode htree
  obtain ⟨is, node, p, cnt, his⟩ := (hs.header hp).takeRecord i
  unfold headerRecord at h
  cases hi : takeRecord i s.node s.parser with
  | more node' h' =>
    rw [hi] at h his
    cases h
    have q := hcleared node' h'
    exact { hs with
      tree := q.tree
      code := q.code
      header := fun _ => ⟨is, node, p, cnt, his⟩ }
  | complete node' h' r =>
    rw [hi] at h his
    obtain ⟨tr, js, -, hn, hpre, rfl, rfl⟩ := takeRecords_start_complete his
    have q : Quiet (commitHeader node' ((HeaderParse.start p cnt).past tr) 0 s) :=
      ⟨commitHeader_settled hs.settled hcode hpre hn, (hs.busyAlone (hs.busyIffParsing.trans hp)).2, rfl⟩
    exact endCommand_inv h (fun _ => afterHeader_ok_quiet q) fun _ _ => afterHeader_raised_settled q.settled
  | malformed node' h' =>
    rw [hi] at h
    cases h
    exact inv_raise (hcleared node' h') _

/-- Every instruction met in the stream is a record: a header's next one, or one without effect (log 3). -/
theorem exec_record {i : Instr} (hi : i.space = .stream) (s : State) : exec i s = recordTurn i s := by
  cases i with
  | recInternal | recLeaf _ => rfl
  | _ => cases hi

/-! ### A host move -/

/-- The invariant does not look at what the host owns, nor at the registers the host may write. -/
theorem Inv.hostSide {s : State} (h : Inv s) {m : Memory} (hm : m.wf) (cmd : Byte) (inLen iptr symcount : Word)
    (host : List HostMove) (rdata : Word) (freeIdx : Nat) : Inv { s with
      inMem := m, cmd := cmd, inLen := inLen, iptr := iptr, symcount := symcount, host := host, rdata := rdata
      freeIdx := freeIdx } :=
  { h with
    inCanonical := hm
    tree := fun hv => (h.tree hv).congr rfl rfl rfl rfl }

theorem inv_reset : Inv State.reset :=
  inv_of_idle reset_settled rfl rfl (Nat.zero_le 5) (by decide) (by decide)

theorem inv_afterReset (s : State) : Inv s.afterReset :=
  inv_reset.hostSide List.Pairwise.nil _ _ _ _ _ _ _

theorem hostReads_inv {s : State} (h : Inv s) (n : Nat) : Inv (s.hostReads n) := by
  unfold State.hostReads
  split <;> exact h.hostSide h.inCanonical _ _ _ _ _ _ _

theorem writeRegister_inv {s : State} (h : Inv s) (n : Nat) (w : Word) : Inv (s.writeRegister n w) := by
  unfold State.writeRegister
  split_ifs <;> exact h.hostSide h.inCanonical _ _ _ _ _ _ _

theorem hostReadsIn_inv {s : State} (h : Inv s) (a : Nat) : Inv (s.hostReadsIn a) := by
  unfold State.hostReadsIn
  split <;> exact h.hostSide h.inCanonical _ _ _ _ _ _ _

theorem hostReadsOut_inv {s : State} (h : Inv s) (a : Nat) : Inv (s.hostReadsOut a) := by
  unfold State.hostReadsOut
  split <;> exact h.hostSide h.inCanonical _ _ _ _ _ _ _

theorem startCommand_inv {s t : State} {c : Byte} (hs : Inv s) (hb : s.busy = false)
    (h : (startCommand c s).outcome = .next t) : Inv t := by
  have hc : Inv { s with cmd := c } := hs.hostSide hs.inCanonical _ _ _ _ _ _ _
  have hp : s.parsing = false := hs.busyIffParsing.symm.trans hb
  unfold startCommand at h
  split_ifs at h
  · split at h
    · next i rest hd => exact exec_command_inv (decode_ok hd).2 h hc.settled hp
    · cases h
      exact inv_raise (prologue_quiet hc.settled hp).settled _
  · cases h

theorem hostTurn_inv {m : HostMove} {s t : State} (hs : Inv s) (hb : s.busy = false)
    (h : (hostTurn m s).outcome = .next t) : Inv t := by
  cases m with
  | writeReg num w =>
    unfold hostTurn at h
    dsimp only at h
    split at h
    · exact startCommand_inv hs hb h
    · cases h; exact writeRegister_inv hs _ _
  | readReg num => cases h; exact hostReads_inv hs _
  | writeIn a v =>
    unfold hostTurn at h
    dsimp only at h
    split at h
    · cases h; exact hs.hostSide (store_wf hs.inCanonical _ _) _ _ _ _ _ _ _
    · cases h
  | readIn a =>
    unfold hostTurn at h
    dsimp only at h
    split at h
    · cases h; exact hostReadsIn_inv hs _
    · cases h
  | readOut a => cases h; exact hostReadsOut_inv hs _
  | waitIdle => cases h; exact hs
  | reset => cases h; exact inv_afterReset s

theorem engineTurn_inv {s t : State} (hs : Inv s) (h : (engineTurn s).outcome = .next t) : Inv t := by
  unfold engineTurn at h
  split at h
  · next hp =>
    split at h
    · next i rest hd =>
      have hb : (s.busy && s.parsing) = true := by rw [hs.busyIffParsing, Bool.and_self, hp]
      change exec i s = .next t at h
      rw [exec_record (decode_ok hd).2, recordTurn, if_pos hb] at h
      exact headerRecord_inv hs hp h
    · cases h; exact inv_raise hs.settled _
  · cases h

theorem busyTurn_inv {m : HostMove} {rest : List HostMove} {s t : State} (hs : Inv s)
    (h : (busyTurn m rest s).outcome = .next t) : Inv t := by
  cases m with
  | readReg num =>
    unfold busyTurn at h
    dsimp only at h
    split at h
    · cases h; exact hs.hostSide hs.inCanonical _ _ _ _ _ _ _
    · cases h
  | waitIdle => exact engineTurn_inv hs h
  | reset => cases h; exact inv_afterReset _
  | writeReg _ _ | writeIn _ _ | readIn _ | readOut _ => cases h

/-- Settles O58: by whose turn it is, `hostTurn_inv`, `busyTurn_inv` or `engineTurn_inv`. -/
theorem stepKeepsInvariant : Obligations.StepKeepsInvariant := by
  intro s t hs h
  cases hb : s.busy with
  | true =>
    cases hh : s.host with
    | nil => rw [step_engine hb (.inl hh)] at h; exact engineTurn_inv hs h
    | cons m rest => rw [step_busy hb hh] at h; exact busyTurn_inv hs h
  | false =>
    cases hh : s.host with
    | nil => rw [step_idle hb hh] at h; cases h; exact hs
    | cons m rest =>
      rw [step_host hb hh] at h
      have hrest : Inv { s with host := rest } := hs.hostSide hs.inCanonical _ _ _ _ _ _ _
      exact hostTurn_inv hrest hb h

/-- Settles O57: in the reset state every flag is clear and both buffers are empty. -/
theorem invariantHoldsAtReset : Obligations.InvariantHoldsAtReset := inv_reset

end Sys2Proof.Machine

namespace Sys2Proof.Machine

/-! ## Nothing leaves the block stuck (60_exceptions R199) -/

theorem count_not_stuck {s : State} {f : Fault} : count s ≠ .stuck f := by
  by_cases h : s.inLen = 0
  · rw [count_of_empty h]; exact nofun
  · rw [count_of_input h]; exact nofun

theorem build_not_stuck {s : State} {f : Fault} : build s ≠ .stuck f := by
  by_cases h : presentBytes s.freq = []
  · rw [build_empty s h]; exact nofun
  · obtain ⟨_, _, _, _, hbuild, -⟩ := build_spec s h
    rw [hbuild]; exact nofun

theorem treeRead_not_stuck {s : State} {f : Fault} : treeReadFromStart s ≠ .stuck f := by
  rcases treeReadFromStart_cases s with ⟨_, _, _, _, -, -, -, h⟩ | ⟨-, _, _, _, h⟩ <;> rw [h] <;> exact nofun

/-- After a count that found input, ENCODE has no tree to miss: `Build()` has just made it (45_pipeline R181). -/
theorem encodeBody_not_stuck {s : State} {f : Fault} : encodeBody s ≠ .stuck f := by
  by_cases h : s.inLen = 0
  · rw [encodeBody_of_empty h]; exact nofun
  · obtain ⟨_, _, _, _, _, -, hbody, -⟩ := encodeBody_result h
    rw [hbody]; exact nofun

theorem decodeBody_not_stuck {s : State} {f : Fault} : decodeBody s ≠ .stuck f := by
  unfold decodeBody
  cases hread : treeReadFromStart s with
  | ok u => exact bitDecode_not_stuck
  | raised e u => exact nofun
  | stuck g => exact absurd hread treeRead_not_stuck

theorem endCommand_exists_next {r : ProcResult} (h : ∀ f, r ≠ .stuck f) : ∃ t, endCommand r = .next t := by
  cases r with
  | ok u => exact ⟨_, rfl⟩
  | raised e u => exact ⟨_, rfl⟩
  | stuck f => exact absurd rfl (h f)

theorem runCommand_exists_next {pre : State → Bool} {body : State → ProcResult} {s : State}
    (h : pre (prologue s) = true → ∀ f, body (prologue s) ≠ .stuck f) : ∃ t, runCommand pre body s = .next t := by
  cases hp : pre (prologue s) with
  | true => rw [runCommand_of_pre body hp]; exact endCommand_exists_next (h hp)
  | false => exact ⟨_, runCommand_of_not_pre body hp⟩

/-- Where TREE_VALID stands for a well-formed tree, every command has a next state: DERIVE and TWRITE, which alone
could miss their tree, find it. -/
theorem exec_command_exists_next {i : Instr} {s : State} (hi : i.space = .command)
    (hw : s.treeValid = true → WellFormedTree s) : ∃ t, exec i s = .next t := by
  have htree (hv : (prologue s).treeValid = true) : ∃ t, (prologue s).tree? = some t :=
    (hw hv).tree.imp fun _ ht => ht.1
  cases i with
  | encode => rw [exec_encode]; exact runCommand_exists_next fun _ _ => encodeBody_not_stuck
  | decode => rw [exec_decode]; exact runCommand_exists_next fun _ _ => decodeBody_not_stuck
  | count => rw [exec_count]; exact runCommand_exists_next fun _ _ => count_not_stuck
  | build => rw [exec_build]; exact runCommand_exists_next fun _ _ => build_not_stuck
  | derive =>
    refine runCommand_exists_next fun hv _ => ?_
    obtain ⟨t, ht⟩ := htree hv
    rw [derive_of_tree ht]; exact nofun
  | twrite =>
    refine runCommand_exists_next fun hv _ => ?_
    obtain ⟨t, ht⟩ := htree hv
    rw [treeWrite_of_tree ht]; exact nofun
  | tread => rw [exec_tread]; exact runCommand_exists_next fun _ _ => treeRead_not_stuck
  | benc => exact runCommand_exists_next fun _ _ => bitEncode_not_stuck
  | bdec => exact runCommand_exists_next fun _ _ => bitDecode_not_stuck
  | recInternal | recLeaf _ => cases hi

theorem afterHeader_not_stuck {s : State} {f : Fault} : afterHeader s ≠ .stuck f := by
  unfold afterHeader
  split
  · exact bitDecode_not_stuck
  · exact nofun

theorem recordTurn_exists_next (i : Instr) (s : State) : ∃ t, recordTurn i s = .next t := by
  unfold recordTurn
  split
  · unfold headerRecord
    cases takeRecord i s.node s.parser with
    | more node h => exact ⟨_, rfl⟩
    | complete node h r => exact endCommand_exists_next fun _ => afterHeader_not_stuck
    | malformed node h => exact ⟨_, rfl⟩
  · exact ⟨s, rfl⟩

/-- While BUSY = 1 the invariant puts the engine inside a header, so its turn has a next state (log 19). -/
theorem engineTurn_exists_next {s : State} (hs : Inv s) (hb : s.busy = true) :
    ∃ t, (engineTurn s).outcome = .next t := by
  unfold engineTurn
  rw [if_pos (hs.busyIffParsing.symm.trans hb)]
  split
  · next i rest hd =>
    change ∃ t, exec i s = .next t
    rw [exec_record (decode_ok hd).2]
    exact recordTurn_exists_next i s
  · exact ⟨_, rfl⟩

theorem startCommand_not_fault {s : State} (hs : Inv s) (c : Byte) (f : Fault) :
    (startCommand c s).outcome ≠ .fault f := by
  unfold startCommand
  split_ifs
  · split
    · next i rest hd =>
      obtain ⟨t, ht⟩ := exec_command_exists_next (s := { s with cmd := c }) (decode_ok hd).2
        fun hv => (hs.tree hv).congr rfl rfl rfl rfl
      exact fun h => nomatch ht.symm.trans h
    · exact nofun
  · exact nofun

theorem hostTurn_not_fault {s : State} (hs : Inv s) (m : HostMove) (f : Fault) :
    (hostTurn m s).outcome ≠ .fault f := by
  cases m with
  | writeReg num w =>
    unfold hostTurn
    dsimp only
    split
    · exact startCommand_not_fault hs _ f
    · exact nofun
  | writeIn _ _ | readIn _ => unfold hostTurn; dsimp only; split <;> exact nofun
  | readReg _ | readOut _ | waitIdle | reset => exact nofun

theorem busyTurn_not_fault {s : State} (hs : Inv s) (hb : s.busy = true) (m : HostMove) (rest : List HostMove)
    (f : Fault) : (busyTurn m rest s).outcome ≠ .fault f := by
  cases m with
  | readReg num => unfold busyTurn; dsimp only; split <;> exact nofun
  | waitIdle =>
    obtain ⟨t, ht⟩ := engineTurn_exists_next hs hb
    exact fun h => nomatch ht.symm.trans h
  | reset | writeReg _ _ | writeIn _ _ | readIn _ | readOut _ => exact nofun

/-- A step of the block that no host move interrupts. -/
theorem step_exists_next {s : State} (hs : Inv s) (hh : s.host = []) : ∃ t, step s = .next t := by
  cases hb : s.busy with
  | true => rw [step_engine hb (.inl hh)]; exact engineTurn_exists_next hs hb
  | false => exact ⟨s, step_idle hb hh⟩

/-- Settles O59: `hostTurn_not_fault` and `busyTurn_not_fault` at a host move, `step_exists_next` without one, and
`exec_command_exists_next` for the commands. -/
theorem noStepFaults : Obligations.NoStepFaults := by
  intro s hs
  refine ⟨fun f => ?_, step_exists_next hs, fun i hi => exec_command_exists_next hi hs.tree⟩
  cases hh : s.host with
  | nil =>
    obtain ⟨t, ht⟩ := step_exists_next hs hh
    exact fun h => nomatch ht.symm.trans h
  | cons m rest =>
    cases hb : s.busy with
    | true => rw [step_busy hb hh]; exact busyTurn_not_fault hs hb m rest f
    | false =>
      rw [step_host hb hh]
      have hrest : Inv { s with host := rest } := hs.hostSide hs.inCanonical _ _ _ _ _ _ _
      exact hostTurn_not_fault hrest m f

end Sys2Proof.Machine

namespace Sys2Proof.Machine

/-! ## The host's moves (10_state R40, R54, 20_memory R61, R74) -/

/-- Settles O2: reset is taken in its own turn, whether the engine is busy or not. -/
theorem resetAbandonsTheCommand : Obligations.ResetAbandonsTheCommand := by
  intro s rest hh
  cases hb : s.busy with
  | true => rw [step_busy hb hh]; rfl
  | false => rw [step_host hb hh]; rfl

/-- Settles O8: the host's turn at register number 0 starts the command that the byte decodes to. -/
theorem cmdWriteRunsDecodedCommand : Obligations.CmdWriteRunsDecodedCommand := by
  rintro s rest _ w i hb hh rfl hl hd
  rw [step_host hb hh, hostTurn, if_pos (by rfl), startCommand, if_pos (by exact hl), hd]
  rfl

/-- Settles O9: the engine's turn, by whether the bytes at the parse pointer decode. -/
theorem busyEngineRunsDecodedRecord : Obligations.BusyEngineRunsDecodedRecord := by
  intro s hb hp hh
  rw [step_engine hb hh, engineTurn, if_pos hp]
  exact ⟨fun i rest hd => by rw [hd]; rfl, fun e hd => by rw [hd]; rfl⟩

/-- Settles O51: what `hostReads` does with a value and with an unspecified word. -/
theorem hostReadDeliversTheWord : Obligations.HostReadDeliversTheWord := by
  intro s rest num hb hh
  rw [step_host hb hh]
  have hread : ({ s with host := rest } : State).readReg num.toNat = s.readReg num.toNat := rfl
  refine ⟨fun w hw => ?_, fun m hm => ?_⟩
  · rw [hostTurn, State.hostReads, hread, hw]; rfl
  · rw [hostTurn, State.hostReads, hread, hm]; rfl

/-- A write to any register number but CMD (10_state R40). -/
theorem step_writeReg {s : State} {rest : List HostMove} {num : BitVec 13} {w : Word} (hb : s.busy = false)
    (hh : s.host = .writeReg num w :: rest) (hnum : num ≠ 0) :
    step s = .next (({ s with host := rest } : State).writeRegister num.toNat w) := by
  have hne : num.toNat ≠ regCMD := fun h => hnum (BitVec.eq_of_toNat_eq h)
  rw [step_host hb hh, hostTurn, if_neg hne]
  rfl

/-- Settles O52: `writeRegister` at its three numbers, and at any other. -/
theorem hostWritesTakeOrAreIgnored : Obligations.HostWritesTakeOrAreIgnored := by
  intro s rest num w hb hh hnum
  rw [step_writeReg hb hh hnum]
  refine ⟨fun h => by rw [h]; rfl, fun h => by rw [h]; rfl, fun h => by rw [h]; rfl, fun h3 h4 h7 => ?_⟩
  have hne {n : Nat} (k : BitVec 13) (hk : k.toNat = n) (h : num ≠ k) : num.toNat ≠ n :=
    fun e => h (BitVec.eq_of_toNat_eq (e.trans hk.symm))
  rw [State.writeRegister, if_neg (hne (n := regIN_LEN) 0x003 rfl h3), if_neg (hne (n := regIPTR) 0x004 rfl h4),
    if_neg (hne (n := regSYMCOUNT) 0x007 rfl h7)]

/-- A read after a write of one byte. -/
theorem load_store (m : Memory) (a b : Nat) (v : Byte) :
    (m.store a v).load b = if b = a then some v else m.load b := by
  split
  · next h => rw [h, load_store_same]
  · next h => exact load_store_other m v h

/-- Settles O53: `load_store` for what a read then gives, `store_wf` for the canonical form. -/
theorem hostWriteInStoresOneByte : Obligations.HostWriteInStoresOneByte := by
  intro s rest a v hb hh
  rw [step_host hb hh, hostTurn]
  refine ⟨fun ha => ⟨s.inMem.store a.toNat v, by rw [if_pos ha]; rfl, fun b => load_store _ _ _ _, fun b => ?_,
    fun hm => store_wf hm _ _⟩, fun ha => by rw [if_neg (Nat.not_lt.2 ha)]; rfl⟩
  rw [State.readIn, load_store, State.readIn]
  split <;> rfl

theorem inputBytes_getElem? {s : State} {a : Nat} (h : a < s.inLen.toNat) : s.inputBytes[a]? = some (s.readIn a) := by
  rw [State.inputBytes, List.getElem?_map, List.getElem?_range h]
  rfl

theorem outBytes_getElem? {s : State} {a : Nat} (h : a < s.outLen.toNat) : s.outBytes[a]? = some (s.readOut a) := by
  rw [State.outBytes, List.getElem?_map, List.getElem?_range h]
  rfl

/-- Settles O54: the host's turn at a read of IN or OUT, by whether the address lies below the length. -/
theorem hostReadsOfBuffers : Obligations.HostReadsOfBuffers := by
  intro s rest hb
  refine ⟨fun a hh ha => ⟨fun hlt => ⟨?_, inputBytes_getElem? hlt, fun v hv => ?_⟩, fun hge => ?_⟩,
    fun a hh ha => ?_, fun a hh => ⟨fun hlt => ⟨?_, outBytes_getElem? hlt, fun v hv => ?_⟩, fun hge => ?_⟩⟩
  · rw [step_host hb hh, hostTurn, if_pos ha, State.hostReadsIn, if_pos (by exact hlt)]; rfl
  · rw [State.readIn, hv]; rfl
  · rw [step_host hb hh, hostTurn, if_pos ha, State.hostReadsIn, if_neg (by exact Nat.not_lt.2 hge)]; rfl
  · rw [step_host hb hh, hostTurn, if_neg (Nat.not_lt.2 ha)]; rfl
  · rw [step_host hb hh, hostTurn, State.hostReadsOut, if_pos (by exact hlt)]; rfl
  · rw [State.readOut, hv]; rfl
  · rw [step_host hb hh, hostTurn, State.hostReadsOut, if_neg (by exact Nat.not_lt.2 hge)]; rfl

/-- A poll shows STATUS as it stands but for the bits left open during a command (10_state R32, log 13). -/
theorem hostPolls_getLsbD (s : State) {i : Nat} (hi : i < 32) (h : statusFreeMask.getLsbD i = false) :
    s.hostPolls.rdata.getLsbD i = s.status.getLsbD i := by
  change ((s.status &&& ~~~statusFreeMask) ||| (Config.freeWord s.freeIdx &&& statusFreeMask)).getLsbD i = _
  rw [BitVec.getLsbD_or, BitVec.getLsbD_and, BitVec.getLsbD_and, BitVec.getLsbD_not, h]
  simp [hi]

theorem statusFreeMask_getLsbD_of_six_le {i : Nat} (h : 6 ≤ i) : statusFreeMask.getLsbD i = false := by
  by_cases hi : i < 32
  · have hall : ∀ i < 32, 6 ≤ i → statusFreeMask.getLsbD i = false := by decide
    exact hall i hi h
  · exact BitVec.getLsbD_of_ge _ _ (Nat.le_of_not_lt hi)

/-- Settles O55: `busyTurn` refuses every other move, and the bits of a poll are those of STATUS by
`hostPolls_getLsbD`. -/
theorem hostAccessWhileBusy : Obligations.HostAccessWhileBusy := by
  intro s m rest hb hh
  rw [step_busy hb hh]
  constructor
  case left =>
    intro hwait hreset hread
    cases m with
    | waitIdle => exact absurd rfl hwait
    | reset => exact absurd rfl hreset
    | readReg num =>
      have hne : num.toNat ≠ regSTATUS := fun h =>
        hread (congrArg HostMove.readReg (BitVec.eq_of_toNat_eq h))
      rw [busyTurn, if_neg hne]; rfl
    | writeReg _ _ | writeIn _ _ | readIn _ | readOut _ => rfl
  case right =>
    rintro rfl
    have hbit {i : Nat} (hi : i < 32) (hfree : statusFreeMask.getLsbD i = false) :
        ({ s with host := rest } : State).hostPolls.rdata.getLsbD i = s.status.getLsbD i :=
      hostPolls_getLsbD _ hi hfree
    obtain ⟨-, h0, h1, h2, -, -, -, hhigh⟩ := statusWordLayout s
    refine ⟨({ s with host := rest } : State).hostPolls.rdata, rfl,
      (hbit (by decide) (by decide)).trans (h0.trans hb), (hbit (by decide) (by decide)).trans h1,
      (hbit (by decide) (by decide)).trans h2, BitVec.eq_of_getLsbD_eq fun i hi => ?_⟩
    have h6 : 6 ≤ 6 + i := Nat.le_add_right 6 i
    rw [BitVec.getLsbD_extractLsb', hbit (by omega) (statusFreeMask_getLsbD_of_six_le h6), hhigh _ h6,
      Bool.and_false]
    exact BitVec.getLsbD_zero.symm

end Sys2Proof.Machine

namespace Sys2Proof.Machine

/-! ## What a read of each register number gives (10_state R40, R54) -/

/-- What a set flag guards has its value (10_state R54). -/
theorem guarded_of_true {valid : Bool} (h : valid = true) (mask w : Word) : guarded valid mask w = .value w := by
  subst h
  rfl

theorem entryInUse_of_lt {s : State} (hv : s.treeValid = true) {i : Nat} (hi : i < s.nnodes.toNat) :
    (s.treeValid && decide (i < s.nnodes.toNat)) = true := by
  rw [hv, decide_eq_true hi, Bool.and_self]

/-- At or above NNODES no entry of the arena has a value. -/
theorem entryInUse_of_ge {s : State} {i : Nat} (hi : s.nnodes.toNat ≤ i) :
    (s.treeValid && decide (i < s.nnodes.toNat)) = false := by
  rw [decide_eq_false (Nat.not_lt.2 hi), Bool.and_false]

theorem readReg_freq (s : State) (b : Byte) : s.readReg (0x100 + b.toNat) = .value (freqAt s.freq b) := by
  unfold State.readReg
  rw [regPlace_freq b.isLt]
  rfl

/-- The numbers that lead nowhere (10_state R40). -/
theorem regPlace_reserved {n : Nat} (h : (0x00D ≤ n ∧ n ≤ 0x0FF) ∨ (0x200 ≤ n ∧ n ≤ 0x3FF) ∨
    (0x7FE ≤ n ∧ n ≤ 0xFFF) ∨ (0x1000 ≤ n ∧ n ≤ 0x1FFF ∧ 9 ≤ n % 16)) : regPlace n = .reserved := by
  unfold regPlace
  obtain ⟨_, _⟩ | ⟨_, _⟩ | ⟨_, _⟩ | ⟨_, _, _⟩ := h
  · rw [if_neg (by omega), if_pos (by omega)]
  · rw [if_neg (by omega), if_neg (by omega), if_neg (by omega), if_pos (by omega)]
  · rw [if_neg (by omega), if_neg (by omega), if_neg (by omega), if_neg (by omega), if_neg (by omega),
      if_pos (by omega)]
  · rw [if_neg (by omega), if_neg (by omega), if_neg (by omega), if_neg (by omega), if_neg (by omega),
      if_neg (by omega), if_pos (by omega), if_neg (by omega), if_neg (by omega)]

theorem readReg_reserved (s : State) {n : Nat} (h : regPlace n = .reserved) : s.readReg n = .value 0 := by
  unfold State.readReg
  rw [h]

/-! ### Words of the table windows, bit by bit -/

/-- Each field of a link word stands at its place (10_state R40). -/
theorem linkWord_getLsbD (e : NodeEntry) {i : Nat} (hi : i < 32) : (linkWord e).getLsbD i =
    ((e.kind == .leaf) && decide (26 = i) || !decide (i < 18) && e.sym.getLsbD (i - 18) ||
      !decide (i < 9) && e.left.getLsbD (i - 9) || e.right.getLsbD i) := by
  simp only [linkWord, BitVec.getLsbD_or, flagBit_getLsbD _ _ hi, BitVec.getLsbD_shiftLeft,
    BitVec.getLsbD_setWidth]
  have h18 : i - 18 < 32 := by omega
  have h9 : i - 9 < 32 := by omega
  simp [hi, h18, h9]

theorem linkWord_fields (e : NodeEntry) : (linkWord e).getLsbD 26 = (e.kind == .leaf) ∧
    (linkWord e).extractLsb' 18 8 = e.sym ∧ (linkWord e).extractLsb' 9 9 = e.left ∧
    (linkWord e).extractLsb' 0 9 = e.right ∧ (linkWord e).extractLsb' 27 5 = 0 := by
  have hsym {i : Nat} (h : 8 ≤ i) : e.sym.getLsbD i = false := BitVec.getLsbD_of_ge _ _ h
  have hleft {i : Nat} (h : 9 ≤ i) : e.left.getLsbD i = false := BitVec.getLsbD_of_ge _ _ h
  have hright {i : Nat} (h : 9 ≤ i) : e.right.getLsbD i = false := BitVec.getLsbD_of_ge _ _ h
  refine ⟨?kind, ?sym, ?left, ?right, ?zero⟩
  case kind =>
    rw [linkWord_getLsbD e (by decide), hsym (by decide), hleft (by decide), hright (by decide)]
    simp
  case sym =>
    refine BitVec.eq_of_getLsbD_eq fun i hi => ?_
    rw [BitVec.getLsbD_extractLsb', linkWord_getLsbD e (by omega), hleft (by omega), hright (by omega)]
    simp [hi, show 26 ≠ 18 + i by omega]
  case left =>
    refine BitVec.eq_of_getLsbD_eq fun i hi => ?_
    rw [BitVec.getLsbD_extractLsb', linkWord_getLsbD e (by omega), hright (by omega)]
    simp [hi, show 26 ≠ 9 + i by omega, show 9 + i < 18 by omega]
  case right =>
    refine BitVec.eq_of_getLsbD_eq fun i hi => ?_
    rw [BitVec.getLsbD_extractLsb', linkWord_getLsbD e (by omega)]
    simp [hi, show 26 ≠ i by omega, show i < 18 by omega]
  case zero =>
    refine BitVec.eq_of_getLsbD_eq fun i hi => ?_
    rw [BitVec.getLsbD_extractLsb', linkWord_getLsbD e (by omega), hsym (by omega), hleft (by omega),
      hright (by omega)]
    simp [show 26 ≠ 27 + i by omega]

theorem codeHeadWord_getLsbD (e : CodeEntry) {i : Nat} (hi : i < 32) :
    (codeHeadWord e).getLsbD i = (e.present && decide (8 = i) || e.len.getLsbD i) := by
  simp only [codeHeadWord, BitVec.getLsbD_or, flagBit_getLsbD _ _ hi, BitVec.getLsbD_setWidth]
  simp [hi]

theorem codeHeadWord_fields (e : CodeEntry) : (codeHeadWord e).getLsbD 8 = e.present ∧
    (codeHeadWord e).extractLsb' 0 8 = e.len ∧ (codeHeadWord e).extractLsb' 9 23 = 0 := by
  have hlen {i : Nat} (h : 8 ≤ i) : e.len.getLsbD i = false := BitVec.getLsbD_of_ge _ _ h
  refine ⟨?present, ?len, ?zero⟩
  case present =>
    rw [codeHeadWord_getLsbD e (by decide), hlen (by decide)]
    simp
  case len =>
    refine BitVec.eq_of_getLsbD_eq fun i hi => ?_
    rw [BitVec.getLsbD_extractLsb', codeHeadWord_getLsbD e (by omega)]
    simp [hi, show 8 ≠ i by omega]
  case zero =>
    refine BitVec.eq_of_getLsbD_eq fun i hi => ?_
    rw [BitVec.getLsbD_extractLsb', codeHeadWord_getLsbD e (by omega), hlen (by omega)]
    simp [show 8 ≠ 9 + i by omega]

/-- The flags that were placed in a word from bit 31 down. -/
theorem foldl_flagBit_getLsbD (f : Nat → Bool) {n m : Nat} (hn : n ≤ 32) (hm : m < 32) :
    ((List.range n).foldl (fun w k => w ||| flagBit (f k) (31 - k)) 0).getLsbD (31 - m) = (decide (m < n) && f m) := by
  induction n with
  | zero => simp
  | succ n ih =>
    rw [List.range_succ, List.foldl_append, List.foldl_cons, List.foldl_nil, BitVec.getLsbD_or, ih (by omega),
      flagBit_getLsbD _ _ (by omega)]
    by_cases h : m = n
    · subst h; simp
    · have hplace : 31 - n ≠ 31 - m := by omega
      have hlt : m < n + 1 ↔ m < n := by omega
      simp [hplace, hlt]

/-- Bit `31 - m` of bits word `j` is `c_{32j+m}` (10_state R40). -/
theorem codeBitsWord_getLsbD (e : CodeEntry) (j : Nat) {m : Nat} (hm : m < 32) :
    (codeBitsWord e j).getLsbD (31 - m) = e.path.getD (32 * j + m) false := by
  rw [codeBitsWord, foldl_flagBit_getLsbD (fun m => e.path.getD (32 * j + m) false) (le_refl 32) hm, decide_eq_true hm,
    Bool.true_and]

/-! ### The obligation -/

/-- Settles O50: each number by where it leads, and the words of the windows by their bits. -/
theorem registerReads : Obligations.RegisterReads := by
  intro s
  refine ⟨rfl, rfl, rfl, rfl, rfl, rfl, rfl, rfl, rfl, rfl, fun hv => ?treeRegisters, readReg_freq s,
    fun i hi hlt hv => ?entry, fun b hc => ?code, fun hv => ?noTreeRegisters, fun i hlt h => ?noEntry,
    fun b hc => ?noCode, fun n hn => readReg_reserved s (regPlace_reserved hn)⟩
  case treeRegisters =>
    exact ⟨guarded_of_true hv _ _, guarded_of_true hv _ _, guarded_of_true hv _ _⟩
  case entry =>
    have huse := entryInUse_of_lt hv hi
    exact ⟨(readReg_weight s hlt).trans (guarded_of_true huse _ _), linkWord (nodeAt s.node i),
      (readReg_link s hlt).trans (guarded_of_true huse _ _), linkWord_fields _⟩
  case code =>
    exact ⟨⟨_, (readReg_codeHead s b.isLt).trans (guarded_of_true hc _ _), codeHeadWord_fields _⟩,
      fun j hj => ⟨_, (readReg_codeBits s b.isLt hj).trans (guarded_of_true hc _ _),
        fun m hm => codeBitsWord_getLsbD _ j hm⟩⟩
  case noTreeRegisters =>
    exact ⟨guarded_of_false hv _ _, guarded_of_false hv _ _, guarded_of_false hv _ _⟩
  case noEntry =>
    have huse : (s.treeValid && decide (i < s.nnodes.toNat)) = false :=
      h.elim (fun hv => entryInUse_of_not_treeValid hv i) entryInUse_of_ge
    exact ⟨(readReg_weight s hlt).trans (guarded_of_false huse _ _),
      (readReg_link s hlt).trans (guarded_of_false huse _ _)⟩
  case noCode =>
    have hbits {j : Nat} (hj : j < 8) := (readReg_codeBits s b.isLt hj).trans (guarded_of_false hc _ _)
    refine ⟨(readReg_codeHead s b.isLt).trans (guarded_of_false hc _ _), fun j hj => ?_, ?_⟩
    · rw [hbits (by omega), if_neg (by omega)]
    · rw [show 0x1008 + 16 * b.toNat = 0x1001 + 16 * b.toNat + 7 by omega, hbits (by decide), if_pos rfl]

end Sys2Proof.Machine

namespace Sys2Proof.Machine

/-! ## One record of a header (43_tree_codec R146) -/

/-- While a header is being read a record has its turn of `Parse()`. -/
theorem exec_record_of_parsing {i : Instr} {s : State} (hi : i.space = .stream) (hb : s.busy = true)
    (hp : s.parsing = true) : exec i s = headerRecord i s := by
  rw [exec_record hi, recordTurn, hb, hp]
  rfl

theorem headerRecord_more {i : Instr} {s : State} {node : NodeTable} {h : HeaderParse}
    (he : takeRecord i s.node s.parser = .more node h) :
    headerRecord i s = .next { s with node := node, parser := h } := by
  rw [headerRecord, he]

theorem headerRecord_complete {i : Instr} {s : State} {node : NodeTable} {h : HeaderParse} {r : Nat}
    (he : takeRecord i s.node s.parser = .complete node h r) :
    headerRecord i s = endCommand (afterHeader (commitHeader node h r s)) := by
  rw [headerRecord, he]

theorem headerRecord_malformed {i : Instr} {s : State} {node : NodeTable} {h : HeaderParse}
    (he : takeRecord i s.node s.parser = .malformed node h) :
    headerRecord i s = .next (raise .malformedTree { s with node := node, parser := h }) := by
  rw [headerRecord, he]
  rfl

/-- Settles O33: outside a header `recordTurn` leaves the state as it is. -/
theorem recordOutsideHeaderHasNoEffect : Obligations.RecordOutsideHeaderHasNoEffect := by
  intro s v h
  have hout : (s.busy && s.parsing) = false := Bool.and_eq_false_iff.2 h
  have hturn (i : Instr) : recordTurn i s = .next s := by
    rw [recordTurn, if_neg (by rw [hout]; exact Bool.false_ne_true)]
  exact ⟨hturn _, hturn _⟩

/-- Settles O32: `takeInternal` on both sides of its bound. -/
theorem internalRecordTurn : Obligations.InternalRecordTurn := by
  intro s hb hp
  rw [exec_record_of_parsing rfl hb hp]
  refine ⟨fun h => headerRecord_more ?_, fun h => (headerRecord_malformed (node := s.node)
    (h := { s.parser with p := s.parser.p + 1 }) ?_).trans rfl⟩
  · rw [takeRecord, takeInternal, if_pos h]
  · rw [takeRecord, takeInternal, if_neg (Nat.not_lt.2 h)]

/-- A LEAF record of a new value completes the entries `fs` that wait for their right child alone, and what is completed
last goes to the frames `stk` behind them (43_tree_codec R146). -/
theorem takeLeaf_of_new {v : Byte} {node : NodeTable} {h : HeaderParse} {fs : List (Nat × Nat)} {stk : List Frame}
    (hnew : h.seen.getLsbD v.toNat = false) (hstk : h.stk = waitingRight fs ++ stk) :
    takeRecord (.recLeaf v) node h =
      deliver { h with
          p := h.p + 2, nn := h.nn + 1, nl := h.nl + 1, seen := h.seen ||| BitVec.twoPow 256 v.toNat }
        (completed (tableSet node h.nn ⟨.leaf, v, 0, 0, 0⟩) h.nn fs).1
        (completed (tableSet node h.nn ⟨.leaf, v, 0, 0, 0⟩) h.nn fs).2 stk := by
  rw [takeRecord, takeLeaf, if_neg (by rw [hnew]; exact Bool.false_ne_true), hstk, ← deliver_waitingRight]

/-- A command that ends with `BitDecode()` ends by its epilogue or by TruncatedStreamError (44_bitstream R166). -/
theorem endCommand_bitDecode (s : State) :
    (∃ u, bitDecode s = .ok u ∧ endCommand (bitDecode s) = .next (epilogue u)) ∨
      ∃ u, bitDecode s = .raised .truncatedStream u ∧ endCommand (bitDecode s) = .next (raise .truncatedStream u) := by
  cases h : bitDecode s with
  | ok u => exact .inl ⟨u, rfl, rfl⟩
  | raised e u =>
    obtain ⟨rfl, -⟩ := bitDecode_raised h
    exact .inr ⟨u, rfl, rfl⟩
  | stuck f => exact absurd h bitDecode_not_stuck

/-- Settles O31: `takeLeaf_of_new` for a new value, with a frame behind the completed ones or none; a value that
occurred before is `malformed`. -/
theorem leafRecordTurn : Obligations.LeafRecordTurn := by
  intro s v hb hp
  rw [exec_record_of_parsing rfl hb hp]
  refine ⟨fun fs j stk hnew hstk => ⟨_, _, rfl, headerRecord_more (takeLeaf_of_new hnew hstk)⟩,
    fun fs hnew hstk => ?root, fun hseen => ?seen⟩
  case root =>
    have hlast : s.parser.stk = waitingRight fs ++ [] := by rw [hstk, List.append_nil]
    have hstep := headerRecord_complete (takeLeaf_of_new hnew hlast)
    refine ⟨_, _, _, rfl, rfl, fun hcmd => ?tread, fun hcmd => ?decode⟩
    case tread =>
      rw [hstep, afterHeader, if_neg (by rw [commitHeader_cmd, hcmd]; decide)]
      rfl
    case decode =>
      rw [hstep, afterHeader, if_pos (by exact hcmd)]
      exact endCommand_bitDecode _
  case seen =>
    refine (headerRecord_malformed (node := s.node) (h := { s.parser with p := s.parser.p + 2 }) ?_).trans rfl
    rw [takeRecord, takeLeaf, if_pos hseen]

/-! ## Record by record (70_reset_and_hazards R240) -/

/-- Where more records are due the parse pointer has moved by the record that was taken. -/
theorem takeRecord_more_p {i : Instr} {node node' : NodeTable} {h h' : HeaderParse}
    (he : takeRecord i node h = .more node' h') : h'.p = h.p + (encode i).length := by
  cases i with
  | recInternal =>
    rw [takeRecord, takeInternal] at he
    split at he
    · cases he; rfl
    · cases he
  | recLeaf v =>
    rw [takeRecord, takeLeaf] at he
    split at he
    · cases he
    · rcases deliver_cases { h with
          p := h.p + 2, nn := h.nn + 1, nl := h.nl + 1, seen := h.seen ||| BitVec.twoPow 256 v.toNat }
        (tableSet node h.nn ⟨.leaf, v, 0, 0, 0⟩) h.nn h.stk with ⟨-, _, _, hd⟩ | ⟨_, _, hd, -⟩
      · rw [hd] at he; cases he
      · rw [hd] at he; cases he; rfl
  | _ => cases he

/-- What stands at the parse pointer after a record is what followed the record. -/
theorem streamRest_after_record {s : State} {i : Instr} {rest : List Byte} {node : NodeTable} {h : HeaderParse}
    (hs : s.streamRest = encode i ++ rest) (hp : h.p = s.parser.p + (encode i).length) :
    ({ s with node := node, parser := h } : State).streamRest = rest := by
  have hin : ({ s with node := node, parser := h } : State).inputBytes = s.inputBytes := inputBytes_congr rfl rfl rfl
  rw [State.streamRest, hin]
  change List.drop h.p s.inputBytes = rest
  rw [hp, ← List.drop_drop]
  change List.drop (encode i).length s.streamRest = rest
  rw [hs, List.drop_left]

/-- What `runHeader` does with the way its records end, from a state in which some of them may have been taken. -/
def endHeader (s : State) : HeaderStep → ProcResult
  | .complete node h root => .ok (commitHeader node h root s)
  | .malformed node h => .raised .malformedTree { s with node := node, parser := h }
  | .more node h => .raised .malformedTree { s with node := node, parser := h }

theorem runHeader_eq (s : State) :
    runHeader s = endHeader s (parseRecords (s.streamRest.length + 1) s.streamRest s.node s.parser) := by
  unfold runHeader
  cases parseRecords (s.streamRest.length + 1) s.streamRest s.node s.parser <;> rfl

/-- How a header ends does not depend on the arena and the locals before its next record. -/
theorem endHeader_congr (s : State) (node : NodeTable) (h : HeaderParse) :
    endHeader { s with node := node, parser := h } = endHeader s := by
  funext r
  cases r <;> rfl

/-- A run that ends in `t` after some steps, in each of which BUSY = 1 before. -/
def RunsBusyTo (s t : State) : Prop :=
  ∃ k, Sys2Proof.core.run k s = .next t ∧ ∀ j < k, ∃ u : State, Sys2Proof.core.run j s = .next u ∧ u.busy = true

theorem RunsBusyTo.after_step {s s' t : State} (hb : s.busy = true) (h : step s = .next s') (hrun : RunsBusyTo s' t) :
    RunsBusyTo s t := by
  obtain ⟨k, hk, hbusy⟩ := hrun
  refine ⟨k + 1, (core_run_next k h).trans hk, fun j hj => ?_⟩
  cases j with
  | zero => exact ⟨s, rfl, hb⟩
  | succ j =>
    obtain ⟨u, hu, hub⟩ := hbusy j (Nat.lt_of_succ_lt_succ hj)
    exact ⟨u, (core_run_next j h).trans hu, hub⟩

theorem RunsBusyTo.one {s t : State} (hb : s.busy = true) (h : step s = .next t) : RunsBusyTo s t :=
  RunsBusyTo.after_step hb h ⟨0, rfl, fun _ hj => absurd hj (Nat.not_lt_zero _)⟩

/-- The engine, one record a step, comes to the end that all records of the header at once come to: by induction on the
fuel of `parseRecords`, which lasts as every record takes a byte. -/
theorem runsBusyTo_endHeader {fuel : Nat} {s : State} (hb : s.busy = true) (hp : s.parsing = true)
    (hh : s.host = []) (hf : s.streamRest.length < fuel) :
    ∃ t, RunsBusyTo s t ∧
      endCommand ((endHeader s (parseRecords fuel s.streamRest s.node s.parser)).andThen afterHeader) = .next t := by
  induction fuel generalizing s with
  | zero => exact absurd hf (Nat.not_lt_zero _)
  | succ fuel ih =>
    obtain ⟨hrecord, hbad⟩ := busyEngineRunsDecodedRecord s hb hp (.inl hh)
    rw [parseRecords]
    cases hd : decodeRecord s.streamRest with
    | error e => exact ⟨_, .one hb (hbad e hd), rfl⟩
    | ok x =>
      obtain ⟨i, rest⟩ := x
      obtain ⟨hs, hi⟩ := decodeRecord_ok hd
      have hstep := (hrecord i rest hd).trans (exec_record_of_parsing hi hb hp)
      dsimp only
      cases ht : takeRecord i s.node s.parser with
      | more node h =>
        have hrest := streamRest_after_record (node := node) (h := h) hs (takeRecord_more_p ht)
        have hlen := congrArg List.length hs
        rw [List.length_append] at hlen
        have hpos := encode_length_pos i
        obtain ⟨t, hrun, hend⟩ := ih (s := { s with node := node, parser := h }) hb hp hh (by rw [hrest]; omega)
        rw [hrest, endHeader_congr] at hend
        exact ⟨t, .after_step hb (hstep.trans (headerRecord_more ht)) hrun, hend⟩
      | complete node h r =>
        obtain ⟨t, hend⟩ := endCommand_exists_next (r := afterHeader (commitHeader node h r s))
          fun _ => afterHeader_not_stuck
        exact ⟨t, .one hb (hstep.trans ((headerRecord_complete ht).trans hend)), hend⟩
      | malformed node h => exact ⟨_, .one hb (hstep.trans (headerRecord_malformed ht)), rfl⟩

/-- What `beginHeader` leaves as it was, and that it enters a header. -/
theorem beginHeader_some {s s1 : State} (h : beginHeader s = some s1) :
    s1.busy = s.busy ∧ s1.parsing = true ∧ s1.host = s.host ∧ s1.cmd = s.cmd := by
  unfold beginHeader at h
  split at h
  · cases h; exact ⟨rfl, rfl, rfl, rfl⟩
  · cases h

theorem runHeader_ok_cmd {s u : State} (h : runHeader s = .ok u) : u.cmd = s.cmd := by
  unfold runHeader at h
  split at h
  · cases h; rfl
  · cases h
  · cases h

/-- Settles O34: `runsBusyTo_endHeader` from the state in which the count has been read; what follows the header in TREAD
and DECODE is `afterHeader`. -/
theorem recordByRecordAgrees : Obligations.RecordByRecordAgrees := by
  intro s s1 hh hbegin
  obtain ⟨hb, hp, hhost, hcmd⟩ := beginHeader_some hbegin
  obtain ⟨t, ⟨k, hk, hbusy⟩, hend⟩ := runsBusyTo_endHeader hb hp (hhost.trans hh) (Nat.lt_succ_self _)
  rw [← runHeader_eq] at hend
  have hread : treeReadFromStart (prologue s) = runHeader s1 := by
    rw [treeReadFromStart, treeRead, hbegin]
  have hcmd : s1.cmd = s.cmd := hcmd
  refine ⟨fun h7 => ⟨k, t, hk, ?tread, hbusy⟩, fun h2 => ⟨k, t, hk, ?decode, hbusy⟩⟩
  case tread =>
    rw [exec_tread, runCommand_needsNothing, hread, ← hend]
    cases hr : runHeader s1 with
    | ok u =>
      have hu : u.cmd ≠ decodeCode := by rw [runHeader_ok_cmd hr, hcmd, h7]; decide
      rw [ProcResult.andThen, afterHeader, if_neg hu]
    | raised e u => rfl
    | stuck f => rfl
  case decode =>
    rw [exec_decode, runCommand_needsNothing, decodeBody, hread, ← hend]
    cases hr : runHeader s1 with
    | ok u =>
      have hu : u.cmd = decodeCode := by rw [runHeader_ok_cmd hr, hcmd, h2]; rfl
      rw [ProcResult.andThen, ProcResult.andThen, afterHeader, if_pos hu]
    | raised e u => rfl
    | stuck f => rfl

end Sys2Proof.Machine

namespace Sys2Proof.Machine

/-! ## BUILD depends on FREQ alone (41_tree_builder R119, R122) -/

theorem presentBytes_eq_nil_iff {freq : FreqTable} : presentBytes freq = [] ↔ ∀ b, freqAt freq b = 0 := by
  rw [List.eq_nil_iff_forall_not_mem]
  simp only [mem_presentBytes, not_not]

theorem exec_build_of_empty {s : State} (h : presentBytes s.freq = []) :
    exec .build s = .next (raise .emptyNodeSet
      { prologue s with treeValid := false, codeValid := false, inq := 0 }) :=
  (exec_build s).trans (runCommand_raised rfl (build_empty (prologue s) h))

/-- Settles O22: `build_empty` after the prologue. -/
theorem buildRaisesOnEmptyTable : Obligations.BuildRaisesOnEmptyTable :=
  fun _ h => exec_build_of_empty (presentBytes_eq_nil_iff.2 h)

/-- The loops of `Build()` over the arena of a state (41_tree_builder R117). -/
def buildLoops (freq : FreqTable) (node : NodeTable) : BuildWork :=
  let w := loadLeaves freq ⟨node, 0, 0, 0⟩
  w.turns (w.n - 1)

/-- What `Build()` takes from its loops where it returns. -/
theorem build_ok_loops {s u : State} (h : build s = .ok u) :
    u.treeValid = true ∧ u.nleaf = BitVec.ofNat 9 (loadLeaves s.freq ⟨s.node, 0, 0, 0⟩).n ∧
      u.nnodes = BitVec.ofNat 10 (buildLoops s.freq s.node).n ∧
      u.root = BitVec.ofNat 9 (buildLoops s.freq s.node).last ∧ u.node = (buildLoops s.freq s.node).node := by
  unfold build at h
  dsimp only at h
  split at h
  · cases h
  · cases h; exact ⟨rfl, rfl, rfl, rfl, rfl⟩

theorem build_ok_of_present {s : State} (h : presentBytes s.freq ≠ []) : ∃ u, build s = .ok u := by
  obtain ⟨_, _, _, _, hbuild, -⟩ := build_spec s h
  exact ⟨_, hbuild⟩

/-- Settles O24: both tables are empty, or the loops agree on all entries in use by `build_loops_agree`. -/
theorem buildDependsOnFreqAlone : Obligations.BuildDependsOnFreqAlone := by
  intro s s' t t' hfreq ht ht'
  by_cases hp : presentBytes s.freq = []
  case pos =>
    obtain rfl := Host.Outcome.next.inj ((exec_build_of_empty hp).symm.trans ht)
    obtain rfl := Host.Outcome.next.inj ((exec_build_of_empty (hfreq ▸ hp)).symm.trans ht')
    exact ⟨rfl, rfl, fun he => by cases he⟩
  case neg =>
    obtain ⟨u, hu⟩ := build_ok_of_present (s := prologue s) hp
    obtain ⟨u', hu'⟩ := build_ok_of_present (s := prologue s') (hfreq ▸ hp)
    obtain rfl := Host.Outcome.next.inj (((exec_build s).trans (runCommand_ok rfl hu)).symm.trans ht)
    obtain rfl := Host.Outcome.next.inj (((exec_build s').trans (runCommand_ok rfl hu')).symm.trans ht')
    obtain ⟨hvalid, hleaf, hnodes, hroot, hnode⟩ := build_ok_loops hu
    obtain ⟨hvalid', hleaf', hnodes', hroot', hnode'⟩ := build_ok_loops hu'
    obtain ⟨hagree, hn⟩ := build_loops_agree s.freq s.node s'.node
    have hloops : (buildLoops s.freq s.node).Agrees (buildLoops s.freq s'.node) := hagree
    rw [prologue_freq, prologue_node] at hleaf hnodes hroot hnode
    rw [prologue_freq, prologue_node, ← hfreq] at hleaf' hnodes' hroot' hnode'
    have herror : (epilogue u).error = (epilogue u').error :=
      (build_ok_keeps hu).error.trans (build_ok_keeps hu').error.symm
    refine ⟨herror, hvalid.trans hvalid'.symm, fun _ => ⟨?_, ?_, ?_, fun i hi => ?_⟩⟩
    · change u.nleaf = u'.nleaf
      rw [hleaf, hleaf', hn]
    · change u.nnodes = u'.nnodes
      rw [hnodes, hnodes', hloops.n]
    · change u.root = u'.root
      rw [hroot, hroot', hloops.last]
    · change nodeAt u.node i = nodeAt u'.node i
      change i < u.nnodes.toNat at hi
      rw [hnodes, BitVec.toNat_ofNat] at hi
      rw [hnode, hnode']
      exact hloops.node i (Nat.lt_of_lt_of_le hi (Nat.mod_le _ _))

/-! ## TREAD of any input (43_tree_codec R146, R147) -/

/-- Four bytes of count and the records of a tree are a header (30_encoding R88). -/
theorem headerBytes_unBE32 (b0 b1 b2 b3 : Byte) (t : Tree) :
    headerBytes (unBE32 b0 b1 b2 b3) t = b0 :: b1 :: b2 :: b3 :: serialize t := by
  rw [headerBytes, be32_unBE32]
  rfl

/-- An input that begins with a count field and the records of a tree begins with a header. -/
theorem header_of_bytes_iff (bs : List Byte) :
    (∃ b0 b1 b2 b3 t rest, bs = b0 :: b1 :: b2 :: b3 :: (serialize t ++ rest) ∧ (leavesOf t).Nodup) ↔
      ∃ cnt t rest, bs = headerBytes cnt t ++ rest ∧ (leavesOf t).Nodup := by
  constructor
  · rintro ⟨b0, b1, b2, b3, t, rest, h, hn⟩
    exact ⟨unBE32 b0 b1 b2 b3, t, rest, by rw [headerBytes_unBE32]; exact h, hn⟩
  · rintro ⟨cnt, t, rest, h, hn⟩
    exact ⟨_, _, _, _, t, rest, h, hn⟩

/-- TREAD where no header stands at the start of IN (43_tree_codec R147). -/
theorem exec_tread_of_no_header {s : State}
    (h : ¬ ∃ cnt t rest, s.inputBytes = headerBytes cnt t ++ rest ∧ (leavesOf t).Nodup) :
    ∃ node parser, exec .tread s = .next { s with
      node := node, parser := parser, treeValid := false, codeValid := false, errcode := 3
      error := true, done := false, outLen := 0, iptr := 0, bitcount := 0, busy := false
      parsing := false } := by
  rcases treeReadFromStart_cases (prologue s) with ⟨cnt, t, rest, -, hin, hn, -⟩ | ⟨-, node, parser, parsing, hread⟩
  · exact absurd ⟨cnt, t, rest, hin, hn⟩ h
  · exact ⟨node, parser, (exec_tread s).trans (runCommand_raised rfl hread)⟩

/-- Settles O28: `exec_tread_of_header`, and `arena_of_preOrderAt` for the arena it leaves. -/
theorem treadReadsTheHeader : Obligations.TreadReadsTheHeader := by
  intro s b0 b1 b2 b3 tr rest hin hn
  have hheader : s.inputBytes = headerBytes (unBE32 b0 b1 b2 b3) tr ++ rest := by
    rw [headerBytes_unBE32]
    exact hin
  obtain ⟨node, hpre, hread⟩ := exec_tread_of_header hheader hn
  have hpos := leavesOf_pos tr
  have hlen : 4 + (3 * (leavesOf tr).length - 1) = 4 + 3 * (leavesOf tr).length - 1 := by omega
  rw [headerBytes_length, hlen] at hread
  exact ⟨node, _, hread, arena_of_preOrderAt hpre hn⟩

/-- Settles O29: without a header `exec_tread_of_no_header`; with one TREAD ends without error by
`exec_tread_of_header`. -/
theorem treadRejectsExactlyMalformedHeaders : Obligations.TreadRejectsExactlyMalformedHeaders := by
  intro s
  rw [header_of_bytes_iff]
  refine ⟨exec_tread_of_no_header, ?_⟩
  rintro ⟨node, parser, hread⟩ ⟨cnt, t, rest, hin, hn⟩
  obtain ⟨node', -, hread'⟩ := exec_tread_of_header hin hn
  have herror := congrArg State.error (Host.Outcome.next.inj (hread.symm.trans hread'))
  cases herror

/-! ## BENC (44_bitstream R161 to R164) -/

/-- Padded bits, read in place: bit `k` of a byte sequence stands in byte `k / 8` at bit `7 - k % 8`, and the padding is
0 (20_memory R68, 30_encoding R94). -/
theorem getLsbD_of_padded {bs : List Byte} {bits : List Bool} {pad : Nat}
    (h : bs.flatMap byteBits = bits ++ List.replicate pad false) {k : Nat} (hk : k < 8 * bs.length) :
    (bs.getD (k / 8) 0).getLsbD (7 - k % 8) = bits.getD k false := by
  have hbyte : k / 8 < bs.length := by omega
  have hbit := flatMap_byteBits_getElem? bs k
  rw [h, List.getElem?_eq_getElem hbyte, Option.map_some] at hbit
  rw [List.getD_eq_getElem _ _ hbyte, List.getD_eq_getElem?_getD]
  by_cases hlt : k < bits.length
  · rw [List.getElem?_append_left hlt] at hbit
    rw [hbit]
    rfl
  · rw [List.getElem?_append_right (Nat.le_of_not_lt hlt)] at hbit
    rw [List.getElem?_eq_none (Nat.le_of_not_lt hlt)]
    obtain ⟨hpad, -⟩ := List.getElem?_eq_some_iff.1 hbit
    rw [List.getElem?_eq_getElem hpad, List.getElem_replicate] at hbit
    exact (Option.some.inj hbit).symm

/-- Settles O35: `exec_benc_of_codes`, its bytes read in place by `getLsbD_of_padded`. -/
theorem bencPacksTheCodes : Obligations.BencPacksTheCodes := by
  intro s tr hc hw htree hcode hv
  obtain ⟨tr', htree', hn, hl⟩ := hw.tree
  obtain rfl : tr' = tr := Option.some.inj (htree'.symm.trans htree)
  obtain ⟨out, acc, nb, bs, pad, hexec, hout, hlen, -, hbits⟩ := exec_benc_of_codes hc hcode hn hl.symm hv
  rw [hlen] at hexec
  refine ⟨out, acc, nb, bs, hexec, hout, hlen, fun k hk => getLsbD_of_padded hbits hk, fun h1 => ?_⟩
  obtain ⟨v, rfl⟩ := (single_iff_leaf tr').1 (hl.trans (by rw [h1]; rfl))
  exact bitsOf_leaf v _

/-- Settles O36: `bitEncode_stops` after the prologue. -/
theorem bencStopsAtByteWithoutCode : Obligations.BencStopsAtByteWithoutCode := by
  intro s tr vs v ws hc hw htree hcode hin hvs hv
  obtain ⟨tr', htree', hn, hl⟩ := hw.tree
  obtain rfl : tr' = tr := Option.some.inj (htree'.symm.trans htree)
  obtain ⟨acc, nb, bs, hbody, hbits⟩ := bitEncode_stops (s := prologue s) hcode hn hl.symm hin hvs hv
  have hlt : bs.length < 2 ^ 64 := by
    have hbytes := congrArg List.length hbits
    rw [flatMap_byteBits_length, List.length_take] at hbytes
    have hbitsLen := bitsOf_length_le hn vs
    have hinput := inputBytes_lt s
    rw [hin, List.length_append] at hinput
    omega
  exact ⟨_, acc, nb, bs, (exec_benc s).trans (runCommand_raised hc hbody), emitAll_wrote (s := prologue s) rfl hlt,
    hbits⟩

/-! ## BDEC (44_bitstream R165 to R170) -/

/-- The bytes whose bits were read lie within the input (44_bitstream R166). -/
theorem consumedBytes_le {s : State} (h : s.iptr ≤ s.inLen) (n : Nat) :
    s.iptr.toNat + (s.payloadBits.length - n + 7) / 8 ≤ s.inLen.toNat := by
  have hbits := payloadBits_length s
  have hle := BitVec.le_def.1 h
  omega

/-- Settles O37: `exec_bdec_reads`, and `consumedBytes_le` for IPTR. -/
theorem bdecWalksTheTree : Obligations.BdecWalksTheTree := by
  intro s tr vs rest hv hi _ htree hread
  obtain ⟨out, cur, bp, hexec, hlen, hout⟩ := exec_bdec_reads hv hi htree hread
  exact ⟨out, cur, bp, hexec, hlen, hout, consumedBytes_le hi _⟩

/-- A single-leaf tree gives its value without a bit (44_bitstream R167). -/
theorem readSymbols_leaf (v : Byte) (n : Nat) (bits : List Bool) :
    readSymbols (.leaf v) n bits = some (List.replicate n v, bits) := by
  induction n with
  | zero => rfl
  | succ n ih => rw [readSymbols, readSymbol]; dsimp only; rw [ih, List.replicate_succ]

/-- BDEC of a tree and a count for which no bit is needed: BITCOUNT is 0 and IPTR stays (44_bitstream R167). -/
theorem exec_bdec_of_no_bits {s : State} {t : Tree} {vs : List Byte} (hv : s.treeValid = true) (hi : s.iptr ≤ s.inLen)
    (ht : s.tree? = some t) (hr : readSymbols t s.symcount.toNat s.payloadBits = some (vs, s.payloadBits)) :
    ∃ u, exec .bdec s = .next u ∧ u.done = true ∧ u.outBytes = vs ∧ u.outLen = BitVec.ofNat 64 s.symcount.toNat ∧
      u.bitcount = 0 ∧ u.iptr = s.iptr := by
  obtain ⟨out, cur, bp, hexec, hlen, hout⟩ := exec_bdec_reads hv hi ht hr
  rw [Nat.sub_self] at hexec
  refine ⟨_, hexec, rfl, hout.outBytes ?_, rfl, rfl, ?_⟩
  · have hsmall := s.symcount.isLt
    rw [hlen, BitVec.toNat_ofNat]
    exact Nat.mod_eq_of_lt (by omega)
  · change BitVec.ofNat 32 s.iptr.toNat = s.iptr
    rw [BitVec.ofNat_toNat, BitVec.setWidth_eq]

/-- Settles O38: `exec_bdec_of_no_bits`, for a single leaf by `readSymbols_leaf`. -/
theorem bdecSingleLeafAndZeroCount : Obligations.BdecSingleLeafAndZeroCount := by
  intro s tr hv hi _ htree
  refine ⟨?single, fun h0 => ?zero⟩
  case single =>
    rintro v rfl
    obtain ⟨t, hexec, hdone, hout, -, hbits, hiptr⟩ := exec_bdec_of_no_bits hv hi htree (readSymbols_leaf v _ _)
    exact ⟨t, hexec, hdone, hout, hbits, hiptr⟩
  case zero =>
    obtain ⟨t, hexec, hdone, hout, hlen, hbits, hiptr⟩ :=
      exec_bdec_of_no_bits (vs := []) hv hi htree (by rw [h0]; rfl)
    exact ⟨t, hexec, hdone, hout, hlen.trans (by rw [h0]; rfl), hbits, hiptr⟩

/-- The state machine from AT_NODE walks down as the loop does: it starts on the next symbol with what the loop read, or
it aborts (44_bitstream R166, R170). -/
theorem decoderStep_walkDown (node : NodeTable) (root : Index) (total n : Nat) (out : List Byte) (bits : List Bool)
    (cur : Index) (pos : BitPos) :
    ∃ k, (decoderStep node root total)^[k] (.atNode n ⟨cur, bits, pos, out, true⟩) =
      if (walkDown node out bits cur pos).enough then .start (n + 1) ((walkDown node out bits cur pos).emitSymbol node)
      else .abort (walkDown node out bits cur pos) := by
  induction bits generalizing cur pos with
  | nil =>
    refine ⟨1, ?_⟩
    rw [Function.iterate_one, decoderStep, walkDown]
    cases (nodeAt node cur.toNat).kind <;> rfl
  | cons bit bits ih =>
    rw [walkDown]
    cases hk : (nodeAt node cur.toNat).kind with
    | leaf =>
      refine ⟨1, ?_⟩
      rw [Function.iterate_one, decoderStep]
      simp only [hk]
      rfl
    | internal =>
      obtain ⟨k, hrun⟩ := ih ((nodeAt node cur.toNat).child bit) pos.advance
      refine ⟨k + 1, ?_⟩
      rw [Function.iterate_succ_apply, ← hrun, decoderStep]
      simp only [hk]

/-- The state machine from START, with `m` symbols to go, comes to the end of the loop over them (44_bitstream R166,
R170). -/
theorem decoderStep_decodeSymbols (node : NodeTable) (root : Index) {total n m : Nat} (hm : n + m = total)
    (r : DecodeRun) (he : r.enough = true) :
    ∃ k, (decoderStep node root total)^[k] (.start n r) =
      if (decodeSymbols node root m r).enough then .finish (decodeSymbols node root m r)
      else .abort (decodeSymbols node root m r) := by
  induction m generalizing n r with
  | zero =>
    refine ⟨1, ?_⟩
    rw [Function.iterate_one, decoderStep, if_pos (by omega), decodeSymbols, if_pos he]
  | succ m ih =>
    have hstart : decoderStep node root total (.start n r) = .atNode n ⟨root, r.bits, r.pos, r.out, true⟩ := by
      rw [decoderStep, if_neg (by omega), ← he]
    obtain ⟨k, hwalk⟩ := decoderStep_walkDown node root total n r.out r.bits root r.pos
    rw [decodeSymbols]
    cases hen : (walkDown node r.out r.bits root r.pos).enough with
    | false =>
      refine ⟨k + 1, ?_⟩
      rw [Function.iterate_succ_apply, hstart, hwalk, hen, if_neg Bool.false_ne_true, if_neg Bool.false_ne_true, hen,
        if_neg Bool.false_ne_true]
    | true =>
      rw [hen, if_pos rfl] at hwalk
      obtain ⟨l, hrest⟩ := ih (n := n + 1) (by omega) ((walkDown node r.out r.bits root r.pos).emitSymbol node) hen
      refine ⟨l + (k + 1), ?_⟩
      rw [Function.iterate_add_apply, Function.iterate_succ_apply, hstart, hwalk, hrest, if_pos rfl]

/-- Settles O40: `decoderStep_decodeSymbols` over all SYMCOUNT symbols. -/
theorem decoderStateMachineAgrees : Obligations.DecoderStateMachineAgrees :=
  fun s => decoderStep_decodeSymbols s.node s.root (Nat.zero_add _) _ rfl

end Sys2Proof.Machine

namespace Sys2Proof.Machine

/-! ## How every command ends (45_pipeline R187, 10_state R25) -/

theorem outBytes_eq_nil {s : State} (h : s.outLen = 0) : s.outBytes = [] := by
  rw [State.outBytes, h]
  rfl

/-- Settles O13: every command ends by its epilogue or by a raise, from a state whose ERROR the prologue cleared. -/
theorem commandsSucceedOrReportOneError : Obligations.CommandsSucceedOrReportOneError := by
  intro i s t hi h
  rcases exec_next hi h with ⟨u, hkeeps, rfl⟩ | ⟨e, u, -, rfl⟩
  · exact ⟨rfl, .inl ⟨rfl, hkeeps.error, rfl⟩⟩
  · exact ⟨rfl, .inr ⟨rfl, rfl, e.code_ne_zero, rfl, outBytes_eq_nil rfl, rfl, rfl⟩⟩

/-- What a command without error leaves in IPTR is what its body left. -/
theorem iptr_of_no_error {pre : State → Bool} {body : State → ProcResult} {s t : State} (P : Word → Prop)
    (h : runCommand pre body s = .next t) (he : t.error = false)
    (hbody : ∀ u, body (prologue s) = .ok u → P u.iptr) : P t.iptr := by
  obtain ⟨u, hu, rfl⟩ := runCommand_of_no_error h he
  exact hbody u hu

theorem encodeBody_ok_iptr {s u : State} (h : encodeBody s = .ok u) : u.iptr = s.inLen := by
  obtain ⟨s1, s2, s3, s4, h1, h2, h3, h4, h5⟩ := encodeBody_ok h
  obtain ⟨-, hu⟩ := bitEncode_ok h5
  rw [hu]
  exact ((((count_ok_keeps h1).trans (build_ok_keeps h2)).trans (derive_ok_keeps h3)).trans
    (treeWrite_ok_keeps h4)).inLen

/-- `BitDecode()` from a payload within the input ends within it (44_bitstream R166). -/
theorem bitDecode_ok_iptr_le {s u : State} (h : bitDecode s = .ok u) (hle : s.iptr ≤ s.inLen) : u.iptr ≤ s.inLen := by
  obtain ⟨-, hu⟩ := bitDecode_ok h
  have hend := decodeRun_byteEnd_le hle
  have hiptr : u.iptr = BitVec.ofNat 32 s.decodeRun.pos.byteEnd := by rw [hu]
  rw [hiptr, BitVec.le_def, BitVec.toNat_ofNat]
  exact (Nat.mod_le _ _).trans hend

/-- `TreeRead()` ends behind its header, within the input (43_tree_codec R146). -/
theorem treeRead_ok_iptr_le {s u : State} (h : treeReadFromStart s = .ok u) : u.iptr ≤ s.inLen := by
  obtain ⟨cnt, t, rest, node, hin, hn, -, hu⟩ := treeRead_ok h
  have hlen := congrArg List.length hin
  rw [inputBytes_length, List.length_append, headerBytes_length] at hlen
  have hiptr : u.iptr = BitVec.ofNat 32 (4 + (3 * (leavesOf t).length - 1)) := by
    rw [hu, commitHeader_eq]
  rw [hiptr, BitVec.le_def, BitVec.toNat_ofNat]
  exact (Nat.mod_le _ _).trans (by omega)

theorem decodeBody_ok_iptr_le {s u : State} (h : decodeBody s = .ok u) : u.iptr ≤ s.inLen := by
  obtain ⟨v, hread, hbits⟩ := andThen_ok h
  have hinLen := (treeRead_ok_keeps hread).inLen
  exact hinLen ▸ bitDecode_ok_iptr_le hbits (hinLen ▸ treeRead_ok_iptr_le hread)

/-- IN_LEN is the host's (10_state R56). -/
theorem exec_inLen {i : Instr} {s t : State} (hi : i.space = .command) (h : exec i s = .next t) :
    t.inLen = s.inLen := by
  rcases exec_next hi h with ⟨u, hkeeps, rfl⟩ | ⟨e, u, hkeeps, rfl⟩ <;> exact hkeeps.inLen

/-- Settles O16: a raise sets IPTR to 0, and where a command's body returns, each procedure's own lemma says where. -/
theorem iptrAfterEachCommand : Obligations.IptrAfterEachCommand := by
  intro i s t hi h
  have hinLen := exec_inLen hi h
  refine ⟨fun he => ?raised, fun he => ⟨?whole, ?within, ?kept⟩⟩
  case raised =>
    rcases exec_next hi h with ⟨u, hkeeps, rfl⟩ | ⟨e, u, -, rfl⟩
    · exact absurd (hkeeps.error.symm.trans he) Bool.false_ne_true
    · rfl
  case whole =>
    rw [hinLen]
    rintro (rfl | rfl | rfl)
    · exact iptr_of_no_error (· = s.inLen) (exec_encode s ▸ h) he fun u => encodeBody_ok_iptr
    · refine iptr_of_no_error (· = s.inLen) (exec_count s ▸ h) he fun u hu => ?_
      obtain ⟨-, rfl⟩ := count_ok hu
      rfl
    · refine iptr_of_no_error (· = s.inLen) (exec_benc s ▸ h) he fun u hu => ?_
      obtain ⟨-, hu⟩ := bitEncode_ok hu
      rw [hu]
      rfl
  case within =>
    rw [hinLen]
    rintro (rfl | rfl | rfl)
    · exact iptr_of_no_error (· ≤ s.inLen) (exec_decode s ▸ h) he fun u => decodeBody_ok_iptr_le
    · exact iptr_of_no_error (· ≤ s.inLen) (exec_tread s ▸ h) he fun u => treeRead_ok_iptr_le
    · rcases runCommand_next (exec_bdec s ▸ h) with ⟨-, rfl⟩ | ⟨hp, ⟨u, hu, rfl⟩ | ⟨e, u, -, rfl⟩⟩
      · cases he
      · exact bitDecode_ok_iptr_le (s := prologue s) (u := u) hu ((needsTreeAndPayload_prologue s).1 hp).2
      · cases he
  case kept =>
    rintro (rfl | rfl | rfl)
    · refine iptr_of_no_error (· = s.iptr) (exec_build s ▸ h) he fun u hu => ?_
      obtain ⟨-, hu⟩ := build_ok hu
      rw [hu]
      rfl
    · refine iptr_of_no_error (· = s.iptr) (exec_derive s ▸ h) he fun u hu => ?_
      obtain ⟨_, -, rfl⟩ := derive_ok hu
      rfl
    · refine iptr_of_no_error (· = s.iptr) (exec_twrite s ▸ h) he fun u hu => ?_
      obtain ⟨_, -, rfl⟩ := treeWrite_ok hu
      rw [emitAll_iptr]
      rfl

end Sys2Proof.Machine

namespace Sys2Proof.Machine

/-! ## What each command may write (10_state R56) -/

/-- The two states differ at most in what ENCODE may write (10_state R56), and in the transient state of `Build()` and
`BitEncode()`. -/
def EncodeWrites (s u : State) : Prop :=
  u = { s with
    freq := u.freq, symcount := u.symcount, node := u.node, nnodes := u.nnodes, nleaf := u.nleaf, root := u.root
    treeValid := u.treeValid, code := u.code, codeValid := u.codeValid, outMem := u.outMem, outLen := u.outLen
    bitcount := u.bitcount, iptr := u.iptr, inq := u.inq, acc := u.acc, nb := u.nb }

theorem EncodeWrites.trans {s t u : State} (h : EncodeWrites s t) (h' : EncodeWrites t u) : EncodeWrites s u := by
  unfold EncodeWrites at h h' ⊢
  rw [h] at h'
  exact h'

theorem encodeWrites_of_count_ok {s u : State} (h : count s = .ok u) : EncodeWrites s u := by
  obtain ⟨-, rfl⟩ := count_ok h
  rfl

theorem encodeWrites_of_build_ok {s u : State} (h : build s = .ok u) : EncodeWrites s u := by
  obtain ⟨-, hu⟩ := build_ok h
  unfold EncodeWrites
  rw [hu]

theorem encodeWrites_of_derive_ok {s u : State} (h : derive s = .ok u) : EncodeWrites s u := by
  obtain ⟨_, -, rfl⟩ := derive_ok h
  rfl

theorem encodeWrites_of_treeWrite_ok {s u : State} (h : treeWrite s = .ok u) : EncodeWrites s u := by
  obtain ⟨_, -, rfl⟩ := treeWrite_ok h
  unfold EncodeWrites
  rw [emitAll_eq]

theorem encodeBody_ok_writes {s u : State} (h : encodeBody s = .ok u) : EncodeWrites s u := by
  obtain ⟨s1, s2, s3, s4, h1, h2, h3, h4, h5⟩ := encodeBody_ok h
  have hbits : EncodeWrites s4 u := by
    obtain ⟨-, hu⟩ := bitEncode_ok h5
    unfold EncodeWrites
    rw [hu]
  exact (((encodeWrites_of_count_ok h1).trans (encodeWrites_of_build_ok h2)).trans
    (encodeWrites_of_derive_ok h3)).trans ((encodeWrites_of_treeWrite_ok h4).trans hbits)

theorem encodeBody_raised_writes {s u : State} {e : ErrorKind} (h : encodeBody s = .raised e u) :
    EncodeWrites s u := by
  by_cases hn : s.inLen = 0
  · rw [encodeBody_of_empty hn] at h
    cases h
    rfl
  · obtain ⟨_, _, _, _, _, -, hok, -⟩ := encodeBody_result hn
    rw [hok] at h
    cases h

/-- The same for DECODE: `TreeRead()` and `BitDecode()`. -/
def DecodeWrites (s u : State) : Prop :=
  u = { s with
    node := u.node, nnodes := u.nnodes, nleaf := u.nleaf, root := u.root, treeValid := u.treeValid
    codeValid := u.codeValid, symcount := u.symcount, outMem := u.outMem, outLen := u.outLen
    bitcount := u.bitcount, iptr := u.iptr, cur := u.cur, bp := u.bp, parser := u.parser, parsing := u.parsing }

theorem DecodeWrites.trans {s t u : State} (h : DecodeWrites s t) (h' : DecodeWrites t u) : DecodeWrites s u := by
  unfold DecodeWrites at h h' ⊢
  rw [h] at h'
  exact h'

theorem decodeWrites_of_treeRead_ok {s u : State} (h : treeReadFromStart s = .ok u) : DecodeWrites s u := by
  obtain ⟨_, _, _, _, -, -, -, rfl⟩ := treeRead_ok h
  rfl

theorem decodeBody_ok_writes {s u : State} (h : decodeBody s = .ok u) : DecodeWrites s u := by
  obtain ⟨v, hread, hbits⟩ := andThen_ok h
  refine (decodeWrites_of_treeRead_ok hread).trans ?_
  obtain ⟨-, hu⟩ := bitDecode_ok hbits
  unfold DecodeWrites
  rw [hu]

theorem decodeBody_raised_writes {s u : State} {e : ErrorKind} (h : decodeBody s = .raised e u) :
    DecodeWrites s u := by
  rcases andThen_raised h with hread | ⟨v, hread, hbits⟩
  · obtain ⟨-, -, hu⟩ := treeRead_raised hread
    unfold DecodeWrites
    rw [hu]
  · refine (decodeWrites_of_treeRead_ok hread).trans ?_
    obtain ⟨-, -, hu⟩ := bitDecode_raised hbits
    unfold DecodeWrites
    rw [hu]

/-- Settles O15: the host's side by `exec_next`, then each command by the three ways it can end, where its procedures'
lemmas say what they write. -/
theorem commandsWriteOnlyWhatIsListed : Obligations.CommandsWriteOnlyWhatIsListed := by
  intro s t
  refine ⟨fun i hi h => ?all, fun h => ?count, fun h => ?build, fun h => ?derive, fun h => ?twrite, fun h => ?tread,
    ?bits, fun h => ?encode, fun h => ?decode⟩
  case all =>
    rcases exec_next hi h with ⟨u, k, rfl⟩ | ⟨e, u, k, rfl⟩
    · exact ⟨k.inMem, k.inLen, k.cmd, k.host, k.rdata, k.freeIdx,
        fun he => absurd (k.error.symm.trans he) Bool.false_ne_true⟩
    · exact ⟨k.inMem, k.inLen, k.cmd, k.host, k.rdata, k.freeIdx, fun _ => rfl⟩
  case count =>
    rcases runCommand_next (exec_count s ▸ h) with ⟨-, rfl⟩ | ⟨-, ⟨u, hu, rfl⟩ | ⟨e, u, hu, rfl⟩⟩
    · exact ⟨rfl, nofun, rfl⟩
    · obtain ⟨-, rfl⟩ := count_ok hu
      exact ⟨rfl, fun _ => rfl, rfl⟩
    · obtain ⟨-, -, rfl⟩ := count_raised hu
      exact ⟨rfl, nofun, rfl⟩
  case build =>
    rcases runCommand_next (exec_build s ▸ h) with ⟨hp, -⟩ | ⟨-, ⟨u, hu, rfl⟩ | ⟨e, u, hu, rfl⟩⟩
    · cases hp
    · obtain ⟨-, hu⟩ := build_ok hu
      rw [hu]
      exact ⟨rfl, rfl, fun _ => ⟨rfl, rfl⟩, rfl⟩
    · obtain ⟨-, -, rfl⟩ := build_raised hu
      exact ⟨rfl, rfl, nofun, rfl⟩
  case derive =>
    rcases runCommand_next (exec_derive s ▸ h) with ⟨-, rfl⟩ | ⟨-, ⟨u, hu, rfl⟩ | ⟨e, u, hu, rfl⟩⟩
    · exact ⟨rfl, nofun, rfl⟩
    · obtain ⟨_, -, rfl⟩ := derive_ok hu
      exact ⟨rfl, fun _ => ⟨rfl, rfl⟩, rfl⟩
    · exact absurd hu derive_raised
  case twrite =>
    rcases runCommand_next (exec_twrite s ▸ h) with ⟨-, rfl⟩ | ⟨-, ⟨u, hu, rfl⟩ | ⟨e, u, hu, rfl⟩⟩
    · exact ⟨nofun, rfl⟩
    · obtain ⟨_, -, rfl⟩ := treeWrite_ok hu
      rw [emitAll_eq]
      exact ⟨fun _ => ⟨rfl, rfl⟩, rfl⟩
    · exact absurd hu treeWrite_raised
  case tread =>
    rcases runCommand_next (exec_tread s ▸ h) with ⟨hp, -⟩ | ⟨-, ⟨u, hu, rfl⟩ | ⟨e, u, hu, rfl⟩⟩
    · cases hp
    · obtain ⟨_, _, _, _, -, -, -, rfl⟩ := treeRead_ok hu
      exact ⟨rfl, rfl, nofun, fun _ => rfl, rfl⟩
    · obtain ⟨-, -, hu⟩ := treeRead_raised hu
      rw [hu]
      exact ⟨rfl, rfl, fun _ => rfl, nofun, rfl⟩
  case bits =>
    rintro (h | h)
    · rcases runCommand_next (exec_benc s ▸ h) with ⟨-, rfl⟩ | ⟨-, ⟨u, hu, rfl⟩ | ⟨e, u, hu, rfl⟩⟩
      · rfl
      · obtain ⟨-, hu⟩ := bitEncode_ok hu
        rw [hu]
        rfl
      · obtain ⟨-, -, hu⟩ := bitEncode_raised hu
        rw [hu]
        rfl
    · rcases runCommand_next (exec_bdec s ▸ h) with ⟨-, rfl⟩ | ⟨-, ⟨u, hu, rfl⟩ | ⟨e, u, hu, rfl⟩⟩
      · rfl
      · obtain ⟨-, hu⟩ := bitDecode_ok hu
        rw [hu]
        rfl
      · obtain ⟨-, -, hu⟩ := bitDecode_raised hu
        rw [hu]
        rfl
  case encode =>
    rcases runCommand_next (exec_encode s ▸ h) with ⟨hp, -⟩ | ⟨-, ⟨u, hu, rfl⟩ | ⟨e, u, hu, rfl⟩⟩
    · cases hp
    · rw [encodeBody_ok_writes hu]
      rfl
    · rw [encodeBody_raised_writes hu]
      rfl
  case decode =>
    rcases runCommand_next (exec_decode s ▸ h) with ⟨hp, -⟩ | ⟨-, ⟨u, hu, rfl⟩ | ⟨e, u, hu, rfl⟩⟩
    · cases hp
    · rw [decodeBody_ok_writes hu]
      rfl
    · rw [decodeBody_raised_writes hu]
      rfl

end Sys2Proof.Machine

namespace Sys2Proof.Machine

/-! ## DECODE of a malformed header (45_pipeline R183, 43_tree_codec R147, R150) -/

/-- DECODE where no header stands at the start of IN: its `TreeRead()` raises, whatever the payload. -/
theorem exec_decode_of_no_header {s : State}
    (h : ¬ ∃ cnt t rest, s.inputBytes = headerBytes cnt t ++ rest ∧ (leavesOf t).Nodup) :
    ∃ node parser, exec .decode s = .next { s with
      node := node, parser := parser, treeValid := false, codeValid := false, errcode := 3
      error := true, done := false, outLen := 0, iptr := 0, bitcount := 0, busy := false
      parsing := false } := by
  rcases treeReadFromStart_cases (prologue s) with ⟨cnt, t, rest, -, hin, hn, -⟩ | ⟨-, node, parser, parsing, hread⟩
  · exact absurd ⟨cnt, t, rest, hin, hn⟩ h
  · have hbody : decodeBody (prologue s) = .raised .malformedTree _ := congrArg (·.andThen bitDecode) hread
    exact ⟨node, parser, (exec_decode s).trans (runCommand_raised rfl hbody)⟩

/-- Settles O45: `exec_decode_of_no_header` and `exec_decode_runs_out`. -/
theorem decodeErrors : Obligations.DecodeErrors := by
  refine fun s => ⟨fun h => ?malformed, fun cnt tr pay hin hn hr => ?truncated⟩
  case malformed =>
    obtain ⟨node, parser, hdecode⟩ := exec_decode_of_no_header h
    exact ⟨_, hdecode, rfl, rfl, rfl, rfl, rfl, rfl, rfl, rfl⟩
  case truncated =>
    obtain ⟨u, hdecode, hvalid, hcode, hcount, htree⟩ := exec_decode_runs_out hin hn hr
    exact ⟨_, hdecode, rfl, rfl, rfl, rfl, rfl, rfl, hvalid, hcode, hcount, htree⟩

/-- No header begins another, longer one (30_encoding R91). -/
theorem eq_nil_of_headerBytes_append {cnt cnt' : Word} {t t' : Tree} {bs : List Byte}
    (h : headerBytes cnt t = headerBytes cnt' t' ++ bs) : bs = [] := by
  rw [headerBytes, headerBytes, List.append_assoc] at h
  obtain ⟨-, hrecords⟩ := List.append_inj h rfl
  exact (serialize_append_inj ((List.append_nil _).trans hrecords)).2.symm

/-- A header without its last byte begins with no header (43_tree_codec R150). -/
theorem no_header_of_cut (cnt : Word) (t : Tree) :
    ¬ ∃ cnt' t' rest, (headerBytes cnt t).take ((headerBytes cnt t).length - 1) = headerBytes cnt' t' ++ rest ∧
      (leavesOf t').Nodup := by
  rintro ⟨cnt', t', rest, hcut, -⟩
  have hwhole : headerBytes cnt t =
      headerBytes cnt' t' ++ (rest ++ (headerBytes cnt t).drop ((headerBytes cnt t).length - 1)) := by
    rw [← List.append_assoc, ← hcut, List.take_append_drop]
  obtain ⟨-, hlast⟩ := List.append_eq_nil_iff.1 (eq_nil_of_headerBytes_append hwhole)
  have hlen := List.drop_eq_nil_iff.1 hlast
  rw [headerBytes_length] at hlen
  omega

/-- Settles O47: `outBytes_of_exec_encode` says where the tree section of the stream ends, and without its last byte
no header is left (`no_header_of_cut`). -/
theorem cutTreeSectionRejected : Obligations.CutTreeSectionRejected := by
  intro s t u hinput hencode hin
  obtain ⟨tr, pay, -, hstream, -, hl, -⟩ := outBytes_of_exec_encode hinput hencode
  rw [hstream, ← hl, ← headerBytes_length s.inLen tr, List.take_append_of_le_length (Nat.sub_le _ 1)] at hin
  have hnone := hin ▸ no_header_of_cut s.inLen tr
  obtain ⟨_, _, hdecode⟩ := exec_decode_of_no_header hnone
  obtain ⟨_, _, htread⟩ := exec_tread_of_no_header hnone
  exact ⟨_, _, hdecode, rfl, rfl, outBytes_eq_nil rfl, htread, rfl, rfl⟩

end Sys2Proof.Machine

namespace Sys2Proof.Machine

/-! ## No command reads the transient state (10_state R51) -/

/-- The state with the transients of `u` (10_state R46 to R50). -/
def State.withTransientsOf (s u : State) : State :=
  { s with inq := u.inq, acc := u.acc, nb := u.nb, bp := u.bp, cur := u.cur, parser := u.parser }

theorem sameButTransients_iff {s s' : State} : SameButTransients s s' ↔ s' = s.withTransientsOf s' :=
  Iff.rfl

theorem sameButTransients_withTransientsOf (s u : State) : SameButTransients s (s.withTransientsOf u) :=
  rfl

@[simp] theorem inputBytes_withTransientsOf (s u : State) : (s.withTransientsOf u).inputBytes = s.inputBytes :=
  rfl

@[simp] theorem tree?_withTransientsOf (s u : State) : (s.withTransientsOf u).tree? = s.tree? :=
  rfl

/-- Two results of the same kind, with the same error, whose states differ at most in the transients. -/
inductive SameResult : ProcResult → ProcResult → Prop
  | ok {s s' : State} (h : SameButTransients s s') : SameResult (.ok s) (.ok s')
  | raised (e : ErrorKind) {s s' : State} (h : SameButTransients s s') : SameResult (.raised e s) (.raised e s')
  | stuck (f : Fault) : SameResult (.stuck f) (.stuck f)

/-- The procedure's result depends on no transient. -/
def IgnoresTransients (body : State → ProcResult) : Prop :=
  ∀ s u, SameResult (body s) (body (s.withTransientsOf u))

theorem IgnoresTransients.andThen {body f : State → ProcResult} (hbody : IgnoresTransients body)
    (hf : IgnoresTransients f) : IgnoresTransients fun s => (body s).andThen f := by
  intro s u
  have h := hbody s u
  dsimp only
  generalize body s = r at h ⊢
  generalize body (s.withTransientsOf u) = r' at h ⊢
  cases h with
  | ok h =>
    rw [sameButTransients_iff.1 h]
    exact hf _ _
  | raised e h => exact .raised e h
  | stuck f => exact .stuck f

theorem emitAll_withTransientsOf (s u : State) (vs : List Byte) :
    emitAll (s.withTransientsOf u) vs = (emitAll s vs).withTransientsOf u := by
  induction vs generalizing s with
  | nil => rfl
  | cons v vs ih => exact ih (emit s v)

theorem emitAll_sameButTransients {s s' : State} (h : SameButTransients s s') (vs : List Byte) :
    SameButTransients (emitAll s vs) (emitAll s' vs) := by
  rw [sameButTransients_iff.1 h, emitAll_withTransientsOf]
  exact sameButTransients_withTransientsOf _ s'

theorem count_ignoresTransients : IgnoresTransients count := by
  intro s u
  by_cases hn : s.inLen = 0
  · rw [count_of_empty hn, count_of_empty (s := s.withTransientsOf u) hn]
    exact .raised _ rfl
  · rw [count, count, if_neg hn, if_neg (show (s.withTransientsOf u).inLen ≠ 0 from hn)]
    exact .ok rfl

theorem build_ignoresTransients : IgnoresTransients build := by
  intro s u
  unfold State.withTransientsOf
  by_cases hn : (loadLeaves s.freq ⟨s.node, 0, 0, 0⟩).n = 0
  · simp only [build, if_pos hn]
    exact .raised _ rfl
  · simp only [build, if_neg hn]
    exact .ok rfl

theorem derive_ignoresTransients : IgnoresTransients derive := by
  intro s u
  rw [derive, derive, tree?_withTransientsOf]
  cases s.tree? with
  | none => exact .stuck _
  | some t => exact .ok rfl

theorem treeWrite_ignoresTransients : IgnoresTransients treeWrite := by
  intro s u
  rw [treeWrite, treeWrite, tree?_withTransientsOf]
  cases s.tree? with
  | none => exact .stuck _
  | some t => exact .ok (emitAll_sameButTransients (sameButTransients_withTransientsOf s u) _)

/-- `TreeRead()` sets the parser itself before its first record (43_tree_codec R146). -/
theorem beginHeader_withTransientsOf (s u : State) :
    beginHeader (s.withTransientsOf u) =
      (beginHeader s).map fun v => v.withTransientsOf { u with parser := v.parser } := by
  have hiptr : (s.withTransientsOf u).iptr = s.iptr := rfl
  rw [beginHeader, beginHeader, inputBytes_withTransientsOf, hiptr]
  split <;> rfl

/-- The records of a header depend on no transient but the parser. -/
theorem runHeader_withTransientsOf (v u : State) :
    SameResult (runHeader v) (runHeader (v.withTransientsOf { u with parser := v.parser })) := by
  have hrest : (v.withTransientsOf { u with parser := v.parser }).streamRest = v.streamRest := rfl
  have hnode : (v.withTransientsOf { u with parser := v.parser }).node = v.node := rfl
  have hparser : (v.withTransientsOf { u with parser := v.parser }).parser = v.parser := rfl
  rw [runHeader, runHeader, hrest, hnode, hparser]
  cases parseRecords (v.streamRest.length + 1) v.streamRest v.node v.parser with
  | complete node h root => exact .ok rfl
  | malformed node h => exact .raised _ rfl
  | more node h => exact .raised _ rfl

theorem treeReadFromStart_ignoresTransients : IgnoresTransients treeReadFromStart := by
  intro s u
  have hbegin := beginHeader_withTransientsOf { s with iptr := 0 } u
  change SameResult (treeRead { s with iptr := 0 }) (treeRead (State.withTransientsOf { s with iptr := 0 } u))
  rw [treeRead, treeRead, hbegin]
  cases beginHeader { s with iptr := 0 } with
  | none => exact .raised _ rfl
  | some v => exact runHeader_withTransientsOf v u

theorem SameButTransients.with_iptr_bitcount {s s' : State} (h : SameButTransients s s') (iptr : Word)
    (bitcount : BitVec 64) :
    SameButTransients { s with iptr := iptr, bitcount := bitcount } { s' with iptr := iptr, bitcount := bitcount } := by
  rw [sameButTransients_iff.1 h]
  rfl

theorem bitEncode_ignoresTransients : IgnoresTransients bitEncode := by
  intro s u
  have hcode : (s.withTransientsOf u).code = s.code := rfl
  have hnleaf : (s.withTransientsOf u).nleaf = s.nleaf := rfl
  rw [bitEncode, bitEncode, inputBytes_withTransientsOf, hcode, hnleaf]
  generalize packBytes s.code (s.nleaf == 1) s.inputBytes Packer.start = run
  have hemit := emitAll_sameButTransients
    (s := { s with bitcount := 0, acc := run.2.acc, nb := BitVec.ofNat 3 run.2.nb })
    (s' := { s.withTransientsOf u with bitcount := 0, acc := run.2.acc, nb := BitVec.ofNat 3 run.2.nb }) rfl
  dsimp only
  split
  · exact .ok ((hemit run.2.flush).with_iptr_bitcount s.inLen (BitVec.ofNat 64 run.2.total))
  · exact .raised _ (hemit run.2.out)

/-- `BitDecode()` starts at the root whatever CUR holds; with no symbol to decode CUR stays (44_bitstream R166). -/
theorem decodeRun_withTransientsOf (s u : State) :
    (s.withTransientsOf u).decodeRun = { s.decodeRun with cur := (s.withTransientsOf u).decodeRun.cur } := by
  have hcount : (s.withTransientsOf u).symcount = s.symcount := rfl
  rw [State.decodeRun, State.decodeRun, hcount]
  cases s.symcount.toNat with
  | zero => rfl
  | succ n => rfl

theorem bitDecode_ignoresTransients : IgnoresTransients bitDecode := by
  intro s u
  rw [bitDecode, bitDecode, decodeRun_withTransientsOf]
  generalize (s.withTransientsOf u).decodeRun.cur = cur
  generalize s.decodeRun = run
  have hemit := emitAll_sameButTransients
    (s := { s with bitcount := 0, cur := run.cur, bp := BitVec.ofNat 3 run.pos.bp })
    (s' := { s.withTransientsOf u with bitcount := 0, cur := cur, bp := BitVec.ofNat 3 run.pos.bp }) rfl run.out
  dsimp only
  split
  · exact .ok (hemit.with_iptr_bitcount (BitVec.ofNat 32 run.pos.byteEnd) (BitVec.ofNat 64 run.pos.used))
  · exact .raised _ hemit

theorem SameResult.endCommand {r r' : ProcResult} {t : State} (hsame : SameResult r r')
    (h : Machine.endCommand r = .next t) : ∃ t', Machine.endCommand r' = .next t' ∧ SameButTransients t t' := by
  cases hsame with
  | ok hs =>
    cases h
    exact ⟨_, rfl, congrArg epilogue hs⟩
  | raised e hs =>
    cases h
    exact ⟨_, rfl, congrArg (raise e) hs⟩
  | stuck f => cases h

/-- A command without a transient in its precondition or its body ends alike whatever the transients hold. -/
theorem runCommand_sameButTransients {pre : State → Bool} {body : State → ProcResult} {s s' t : State}
    (hpre : ∀ v u : State, pre (v.withTransientsOf u) = pre v) (hbody : IgnoresTransients body)
    (hs : SameButTransients s s') (h : runCommand pre body s = .next t) :
    ∃ t', runCommand pre body s' = .next t' ∧ SameButTransients t t' := by
  obtain ⟨u, rfl⟩ : ∃ u : State, s' = s.withTransientsOf u := ⟨s', hs⟩
  have hp' : pre (prologue (s.withTransientsOf u)) = pre (prologue s) := hpre (prologue s) u
  cases hp : pre (prologue s) with
  | false =>
    rw [runCommand_of_not_pre body hp] at h
    rw [runCommand_of_not_pre body (hp'.trans hp)]
    cases h
    exact ⟨_, rfl, rfl⟩
  | true =>
    rw [runCommand_of_pre body hp] at h
    rw [runCommand_of_pre body (hp'.trans hp)]
    exact (hbody (prologue s) u).endCommand h

theorem encodeBody_ignoresTransients : IgnoresTransients encodeBody :=
  (((count_ignoresTransients.andThen build_ignoresTransients).andThen derive_ignoresTransients).andThen
    treeWrite_ignoresTransients).andThen bitEncode_ignoresTransients

theorem decodeBody_ignoresTransients : IgnoresTransients decodeBody :=
  treeReadFromStart_ignoresTransients.andThen bitDecode_ignoresTransients

/-- Settles O17: each command's precondition and procedures ignore the transients. -/
theorem transientsDoNotMatter : Obligations.TransientsDoNotMatter := by
  intro i s s' t hi hs h
  cases i with
  | encode =>
    exact runCommand_sameButTransients (pre := needsNothing) (fun _ _ => rfl) encodeBody_ignoresTransients hs h
  | decode =>
    exact runCommand_sameButTransients (pre := needsNothing) (fun _ _ => rfl) decodeBody_ignoresTransients hs h
  | count => exact runCommand_sameButTransients (pre := needsNothing) (fun _ _ => rfl) count_ignoresTransients hs h
  | build => exact runCommand_sameButTransients (pre := needsNothing) (fun _ _ => rfl) build_ignoresTransients hs h
  | derive => exact runCommand_sameButTransients (pre := needsTree) (fun _ _ => rfl) derive_ignoresTransients hs h
  | twrite => exact runCommand_sameButTransients (pre := needsTree) (fun _ _ => rfl) treeWrite_ignoresTransients hs h
  | tread =>
    exact runCommand_sameButTransients (pre := needsNothing) (fun _ _ => rfl) treeReadFromStart_ignoresTransients hs h
  | benc => exact runCommand_sameButTransients (pre := needsCode) (fun _ _ => rfl) bitEncode_ignoresTransients hs h
  | bdec =>
    exact runCommand_sameButTransients (pre := needsTreeAndPayload) (fun _ _ => rfl) bitDecode_ignoresTransients hs h
  | recInternal | recLeaf _ => cases hi

end Sys2Proof.Machine

namespace Sys2Proof.Machine

/-! ## ENCODE and DECODE as sequences of commands (30_encoding R87) -/

/-- The result with ERRCODE set in its state. -/
def ProcResult.withErrcode (c : BitVec 3) : ProcResult → ProcResult
  | .ok s => .ok { s with errcode := c }
  | .raised e s => .raised e { s with errcode := c }
  | .stuck f => .stuck f

/-- Both ends of a command set ERRCODE themselves (30_encoding R84, 60_exceptions R195). -/
theorem endCommand_withErrcode (c : BitVec 3) (r : ProcResult) : endCommand (r.withErrcode c) = endCommand r := by
  cases r with
  | ok s => rfl
  | raised e s => rfl
  | stuck f => rfl

/-- The procedure neither reads nor writes ERRCODE. -/
def IgnoresErrcode (body : State → ProcResult) : Prop :=
  ∀ s c, body { s with errcode := c } = (body s).withErrcode c

theorem build_ignoresErrcode : IgnoresErrcode build := by
  intro s c
  by_cases hn : (loadLeaves s.freq ⟨s.node, 0, 0, 0⟩).n = 0
  · simp only [build, if_pos hn]
    rfl
  · simp only [build, if_neg hn]
    rfl

theorem derive_ignoresErrcode : IgnoresErrcode derive := by
  intro s c
  have htree : State.tree? { s with errcode := c } = s.tree? := rfl
  rw [derive, derive, htree]
  cases s.tree? with
  | none => rfl
  | some t => rfl

theorem emitAll_with_errcode (s : State) (c : BitVec 3) (vs : List Byte) :
    emitAll { s with errcode := c } vs = { emitAll s vs with errcode := c } := by
  induction vs generalizing s with
  | nil => rfl
  | cons v vs ih => exact ih (emit s v)

theorem treeWrite_ignoresErrcode : IgnoresErrcode treeWrite := by
  intro s c
  have htree : State.tree? { s with errcode := c } = s.tree? := rfl
  rw [treeWrite, treeWrite, htree]
  cases s.tree? with
  | none => rfl
  | some t => exact congrArg ProcResult.ok (emitAll_with_errcode s c _)

theorem bitDecode_ignoresErrcode : IgnoresErrcode bitDecode := by
  intro s c
  have hrun : State.decodeRun { s with errcode := c } = s.decodeRun := rfl
  rw [bitDecode, bitDecode, hrun]
  generalize s.decodeRun = run
  have hemit := emitAll_with_errcode { s with bitcount := 0, cur := run.cur, bp := BitVec.ofNat 3 run.pos.bp } c run.out
  dsimp only at hemit ⊢
  rw [hemit]
  split <;> rfl

/-- The prologue of the next command undoes the epilogue of the last, but for ERRCODE (30_encoding R84). -/
theorem prologue_epilogue {s v : State} (hkeeps : KeepsHostSide (prologue s) v) :
    prologue (epilogue v) = { v with errcode := 0, outLen := 0 } := by
  have hbusy : v.busy = true := hkeeps.busy
  have hdone : v.done = false := hkeeps.done
  have herror : v.error = false := hkeeps.error
  unfold prologue epilogue
  dsimp only
  congr 1
  · exact hbusy.symm
  · exact hdone.symm
  · exact herror.symm

/-- A component command, run from where the procedures before it have ended as commands, ends as its procedure does in
the command they make up (30_encoding R87). -/
theorem runCommand_epilogue {pre : State → Bool} {body : State → ProcResult} {s v : State}
    (hkeeps : KeepsHostSide (prologue s) v) (hout : v.outLen = 0) (hbody : IgnoresErrcode body)
    (hpre : pre { v with errcode := 0 } = true) : runCommand pre body (epilogue v) = endCommand (body v) := by
  have hstart : prologue (epilogue v) = { v with errcode := 0 } := by
    rw [prologue_epilogue hkeeps, ← hout]
  rw [runCommand_of_pre body (hstart ▸ hpre), hstart, hbody, endCommand_withErrcode]

/-- DECODE ends where TREAD and BDEC end: `TreeRead()` leaves what BDEC requires. -/
theorem exec_decode_components {s t : State} (h : exec .decode s = .next t) :
    ∃ s1, exec .tread s = .next s1 ∧
      ((s1.error = true ∧ t = s1) ∨ (s1.error = false ∧ exec .bdec s1 = .next t)) := by
  cases hread : treeReadFromStart (prologue s) with
  | ok v =>
    have hkeeps := treeRead_ok_keeps hread
    have hiptr := treeRead_ok_iptr_le hread
    rw [← hkeeps.inLen] at hiptr
    have hvalid : v.treeValid = true ∧ v.outLen = 0 := by
      obtain ⟨_, _, _, _, -, -, -, rfl⟩ := treeRead_ok hread
      exact ⟨rfl, rfl⟩
    obtain ⟨hvalid, hout⟩ := hvalid
    refine ⟨epilogue v, (exec_tread s).trans (runCommand_ok rfl hread), .inr ⟨hkeeps.error, ?_⟩⟩
    have hpre : needsTreeAndPayload { v with errcode := 0 } = true := by
      rw [needsTreeAndPayload, Bool.and_eq_true, decide_eq_true_iff]
      exact ⟨hvalid, hiptr⟩
    rw [exec_bdec, runCommand_epilogue hkeeps hout bitDecode_ignoresErrcode hpre, ← decodeBody_of_treeRead hread,
      ← runCommand_needsNothing, ← exec_decode, h]
  | raised e u =>
    have hbody : decodeBody (prologue s) = .raised e u := congrArg (·.andThen bitDecode) hread
    have hdecode := (exec_decode s).trans (runCommand_raised rfl hbody)
    exact ⟨_, (exec_tread s).trans (runCommand_raised rfl hread),
      .inl ⟨rfl, Host.Outcome.next.inj (h.symm.trans hdecode)⟩⟩
  | stuck f => exact absurd hread treeRead_not_stuck

/-- OUT and OUT_LEN as a run of `Emit` from OUT_LEN = 0 left them hold its bytes (20_memory R65). -/
theorem outBytes_of_emitted {s u : State} {vs : List Byte} (h0 : s.outLen = 0) (hlt : vs.length < 2 ^ 64)
    (hmem : u.outMem = (emitAll s vs).outMem) (hlen : u.outLen = (emitAll s vs).outLen) : u.outBytes = vs := by
  have hwrote := emitAll_wrote h0 hlt
  rw [← hmem] at hwrote
  refine hwrote.outBytes ?_
  have hz : s.outLen.toNat = 0 := by rw [h0]; rfl
  rw [hlen, emitAll_outLen_toNat (by omega), hz, Nat.zero_add]

/-- Two runs of `Emit` in a row leave what the second, started over at OUT_LEN = 0, would leave after the output of the
first. -/
theorem outBytes_of_runs {s z u v w : State} {bs cs : List Byte} (hs : s.outLen = 0) (hz : z.outLen = 0)
    (hlt : (bs ++ cs).length < 2 ^ 64)
    (hvmem : v.outMem = (emitAll s bs).outMem) (hvlen : v.outLen = (emitAll s bs).outLen)
    (humem : u.outMem = (emitAll (emitAll s bs) cs).outMem) (hulen : u.outLen = (emitAll (emitAll s bs) cs).outLen)
    (hwmem : w.outMem = (emitAll z cs).outMem) (hwlen : w.outLen = (emitAll z cs).outLen) :
    u.outBytes = v.outBytes ++ w.outBytes := by
  rw [← emitAll_append] at humem hulen
  have hlen := List.length_append (as := bs) (bs := cs)
  rw [outBytes_of_emitted hs hlt humem hulen, outBytes_of_emitted hs (by omega) hvmem hvlen,
    outBytes_of_emitted hz (by omega) hwmem hwlen]

/-- What `BitEncode()` carries after a run of bytes that all have codes (44_bitstream R161). -/
def packed (t : Tree) (vs : List Byte) : Packer :=
  Packer.start.pushAll (bitsOf t vs)

theorem packed_flush_length (t : Tree) (vs : List Byte) : (packed t vs).flush.length = ((bitsOf t vs).length + 7) / 8 :=
  Packer.flush_length (Packer.pushAll_holds Packer.start_holds (bitsOf t vs))

/-- `BitEncode()` where every input byte has a code: what it packs depends on the input and the tree alone. -/
theorem bitEncode_of_codes {s : State} {t : Tree} (hcode : s.code = codesOf t) (hn : (leavesOf t).Nodup)
    (hl : s.nleaf.toNat = (leavesOf t).length) (hv : ∀ v ∈ s.inputBytes, v ∈ leavesOf t) :
    bitEncode s = .ok { s with
      outMem := (emitAll s (packed t s.inputBytes).flush).outMem
      outLen := (emitAll s (packed t s.inputBytes).flush).outLen, acc := (packed t s.inputBytes).acc
      nb := BitVec.ofNat 3 (packed t s.inputBytes).nb
      bitcount := BitVec.ofNat 64 (packed t s.inputBytes).total, iptr := s.inLen } := by
  have hsingle : (s.nleaf == 1) = true ↔ (leavesOf t).length = 1 := by
    rw [beq_iff_eq, ← hl]
    exact ⟨fun h => by rw [h]; rfl, fun h => BitVec.eq_of_toNat_eq h⟩
  have hpack := packBytes_codes hn hsingle s.inputBytes [] hv Packer.start
  rw [List.append_nil, ← hcode] at hpack
  rw [bitEncode, hpack, packBytes]
  dsimp only
  rw [if_pos rfl, emitAll_with (s := s) (by rfl) (by rfl)]
  rfl

/-- ENCODE ends where its five components end, but for OUT, which holds what TWRITE and BENC leave there, one after the
other. -/
theorem exec_encode_components {s t : State} (h : exec .encode s = .next t) :
    ∃ s1, exec .count s = .next s1 ∧
      ((s1.error = true ∧ t = s1) ∨
        (s1.error = false ∧ ∃ s2 s3 s4 s5, exec .build s1 = .next s2 ∧ exec .derive s2 = .next s3 ∧
          exec .twrite s3 = .next s4 ∧ exec .benc s4 = .next s5 ∧
          t = { s5 with outMem := t.outMem, outLen := t.outLen } ∧ t.outBytes = s4.outBytes ++ s5.outBytes)) := by
  by_cases hin : s.inLen = 0
  case pos =>
    have hencode := (exec_encode s).trans (runCommand_raised rfl (encodeBody_of_empty (s := prologue s) hin))
    exact ⟨_, (exec_count s).trans (runCommand_raised rfl (count_of_empty (s := prologue s) hin)),
      .inl ⟨rfl, Host.Outcome.next.inj (h.symm.trans hencode)⟩⟩
  case neg =>
    obtain ⟨tr, s1, s2, s3, s4, u, -, h1, h2, h3, h4, h5, e1, e2, e3, e4, -, -, -, hn, hl, hv, -⟩ :=
      encodeBody_spec (s := prologue s) hin
    have k1 := count_ok_keeps h1
    have k2 := k1.trans (build_ok_keeps h2)
    have k3 := k2.trans (derive_ok_keeps h3)
    have k4 := k3.trans (treeWrite_ok_keeps h4)
    have o1 : s1.outLen = 0 := by rw [e1]; rfl
    have o2 : s2.outLen = 0 := by rw [e2]; exact o1
    have o3 : s3.outLen = 0 := by rw [e3]; exact o2
    have hvalid2 : s2.treeValid = true := by rw [e2]
    have hvalid3 : s3.treeValid = true := by rw [e3]; exact hvalid2
    have hbuild : exec .build (epilogue s1) = .next (epilogue s2) := by
      rw [exec_build, runCommand_epilogue k1 o1 build_ignoresErrcode rfl, h2]
      rfl
    have hderive : exec .derive (epilogue s2) = .next (epilogue s3) := by
      rw [exec_derive, runCommand_epilogue k2 o2 derive_ignoresErrcode hvalid2, h3]
      rfl
    have htwrite : exec .twrite (epilogue s3) = .next (epilogue s4) := by
      rw [exec_twrite, runCommand_epilogue k3 o3 treeWrite_ignoresErrcode hvalid3, h4]
      rfl
    have hcode : s4.code = codesOf tr := by rw [e4, emitAll_code, e3]
    have hcodeValid : s4.codeValid = true := by rw [e4, emitAll_codeValid, e3]
    have hnleaf : s4.nleaf.toNat = (leavesOf tr).length := by rw [e4, emitAll_nleaf, e3]; exact hl
    have hinput : s4.inputBytes = s.inputBytes := inputBytes_congr k4.inMem k4.inLen k4.freeIdx
    have hleaves : ∀ v ∈ s4.inputBytes, v ∈ leavesOf tr := by
      rw [hinput]
      exact fun v => (hv v).2
    have hbits := bitEncode_of_codes hcode hn hnleaf hleaves
    have hbits' := bitEncode_of_codes (s := { s4 with errcode := 0, outLen := 0 }) hcode hn hnleaf hleaves
    have hbenc := (exec_benc (epilogue s4)).trans
      (runCommand_ok hcodeValid ((congrArg bitEncode (prologue_epilogue k4)).trans hbits'))
    obtain rfl := ProcResult.ok.inj (h5.symm.trans hbits)
    have hencode := (exec_encode s).trans (runCommand_ok rfl (encodeBody_of_parts h1 h2 h3 h4 h5))
    obtain rfl := Host.Outcome.next.inj (h.symm.trans hencode)
    have hlt := stream_length_lt s.inLen hn (inputBytes_lt s) (packed_flush_length tr s.inputBytes)
    refine ⟨epilogue s1, (exec_count s).trans (runCommand_ok rfl h1), .inr ⟨k1.error, epilogue s2, epilogue s3,
      epilogue s4, _, hbuild, hderive, htwrite, hbenc, ?state, ?out⟩⟩
    case state => rfl
    case out =>
      have hheader : s4 = emitAll s3 (headerBytes s.inLen tr) := e4
      rw [← hinput] at hlt
      exact outBytes_of_runs (z := { s4 with errcode := 0, outLen := 0 }) o3 rfl hlt (by rw [← hheader]; rfl)
        (by rw [← hheader]; rfl) (by rw [← hheader]; rfl) (by rw [← hheader]; rfl) rfl rfl

/-- Settles O42: `exec_encode_components` and `exec_decode_components`. -/
theorem macroCommandsAreTheirComponents : Obligations.MacroCommandsAreTheirComponents :=
  fun _ _ => ⟨exec_encode_components, exec_decode_components⟩

end Sys2Proof.Machine
